-- ==== Sys2Proof/Word.lean ====
section
/-! DEFINITION. The word types of WTCORE (spec/10_state.md R23, R34; spec/30_encoding.md R90). -/

namespace Sys2Proof

/-- One byte of a 64-bit host word (R67). -/
abbrev Byte := BitVec 8

/-- A 64-bit register or memory word, as one host access moves it (R23, R61). -/
abbrev Word := BitVec 64

/-- A 32-bit command word or host byte address (R60, R90). -/
abbrev Word32 := BitVec 32

/-- A real value as it is laid out in a 64-bit word (R34): all 64 bits for binary64, bits 31:0 with
bits 63:32 zero for binary32. -/
abbrev F := BitVec 64

end Sys2Proof
end

