-- ==== Sys2Proof/Config.lean ====
section
/-! DEFINITION. What one WTCORE implementation fixes (spec/00_scope.md R9) and the values the spec leaves open. -/

namespace Sys2Proof

/-- The numeric format `PREC` of every real value (R9). -/
inductive Prec where
  | binary32
  | binary64
  deriving DecidableEq, Repr

/-- The build parameters (R9). "A model takes each one as an argument": State holds them in a field no
step changes (log 1). -/
structure Build where
  log2n    : Nat
  prec     : Prec
  tslots   : Nat
  log2lmax : Nat
  fb       : Nat
  deriving DecidableEq, Repr

/-- Significand precision `p` of the format: 24 or 53 (R9). -/
def Prec.digits : Prec → Nat
  | .binary32 => 24
  | .binary64 => 53

/-- `N = 2^LOG2N`, the entries of a buffer (R9). -/
def Build.n (b : Build) : Nat := 2 ^ b.log2n

/-- `LMAX = 2^LOG2LMAX`, the samples of a slot (R9). -/
def Build.lmax (b : Build) : Nat := 2 ^ b.log2lmax

/-- The phase width `PW = IB + FB` with `IB = LOG2LMAX` (R9, R177). -/
def Build.pw (b : Build) : Nat := b.log2lmax + b.fb

/-- The legal ranges of R9. -/
structure Build.Legal (b : Build) : Prop where
  log2n_pos    : 1 ≤ b.log2n
  log2n_le     : b.log2n ≤ 17
  tslots_pos   : 1 ≤ b.tslots
  tslots_le    : b.tslots ≤ 256
  log2lmax_ge  : b.log2n ≤ b.log2lmax
  log2lmax_le  : b.log2lmax ≤ 17
  fb_pos       : 1 ≤ b.fb
  fb_le        : b.fb ≤ min 32 b.prec.digits

/-- DESIGN CHOICE (log 1): the build of `State.reset`, the one the spec's own vectors use
(95_test_vectors.md: binary64, `FB = 16`, `TSLOTS = 4`, `LOG2LMAX = LOG2N`, most of them with `N = 4`). -/
def Build.standard : Build :=
  { log2n := 2, prec := .binary64, tslots := 4, log2lmax := 2, fb := 16 }

/-- The constant the register `ID` reads (R24). -/
def Config.idWord : Word := 0x57544331#64

/-- Free value (R72, log 6): what the `k`-th host read of a location other than `ID`, `CFG`, `CTRL` and
`STATUS` returns while a command is in flight. -/
opaque Config.busyRead : Nat → Word

/-- Free value (R169, log 10): what `floor(x * 2^FB)` yields when the product `x` overflowed to infinity,
a function of the frequency, the table length and the sample rate. The clamp of R169 is applied to it. -/
opaque Config.infiniteInc : F → Nat → F → Nat

end Sys2Proof
end

