-- ==== Sys2Proof/Machine/Float.lean ====
section
/-! DEFINITION. The real arithmetic of every command: IEEE 754 binary32 and binary64, round to nearest even (spec/00_scope.md R14; spec/40_fft.md R110). -/

namespace Sys2Proof.Machine

/-- Width of the format in bits. -/
def fmtWidth (p : Prec) : Nat := match p with | .binary32 => 32 | .binary64 => 64

/-- Exponent of the least subnormal: every finite value is a multiple of `2^expMin`. -/
def fmtExpMin (p : Prec) : Int := match p with | .binary32 => -149 | .binary64 => -1074

/-- The all-ones biased exponent of infinities and NaNs. -/
def fmtExpMax (p : Prec) : Nat := match p with | .binary32 => 255 | .binary64 => 2047

/-- `2^(digits - 1)`: the hidden bit's weight, one unit of the biased exponent field. -/
def fmtHidden (p : Prec) : Nat := 2 ^ (p.digits - 1)

/-- The sign bit's weight. -/
def fmtSign (p : Prec) : Nat := 2 ^ (fmtWidth p - 1)

/-- The magnitude bits of infinity. -/
def fmtInf (p : Prec) : Nat := fmtExpMax p * fmtHidden p

/-- What an `F` pattern stands for: NaN, an infinity, or the finite real `±m * 2^e`. -/
inductive FVal where
  | nan
  | inf (neg : Bool)
  | fin (neg : Bool) (m : Nat) (e : Int)
  deriving DecidableEq, Repr

/-- The bits of an `F` word that hold the value: all of them, or bits 31:0 (R34). -/
def fbits (p : Prec) (v : F) : Nat := v.toNat % 2 ^ fmtWidth p

/-- The word as R34 lays it out: bits 63:32 are zero for binary32. -/
def layoutF (p : Prec) (v : Word) : F := BitVec.ofNat 64 (fbits p v)

/-- The sign bit. -/
def fsign (p : Prec) (v : F) : Bool := decide (fmtSign p ≤ fbits p v)

/-- The bits below the sign bit. -/
def fmag (p : Prec) (v : F) : Nat := fbits p v % fmtSign p

/-- The value of a pattern (IEEE 754 interchange formats). -/
def unpack (p : Prec) (v : F) : FVal :=
  let neg := fsign p v
  let ex := fmag p v / fmtHidden p
  let fr := fmag p v % fmtHidden p
  if ex = fmtExpMax p then (if fr = 0 then .inf neg else .nan)
  else if ex = 0 then .fin neg fr (fmtExpMin p)
  else .fin neg (fr + fmtHidden p) (fmtExpMin p + (ex - 1 : Nat))

/-- A pattern from its sign and magnitude bits. -/
def packBits (p : Prec) (neg : Bool) (mag : Nat) : F :=
  BitVec.ofNat 64 (if neg then fmtSign p + mag else mag)

/-- The canonical quiet NaN (R110): `0x7FC00000` or `0x7FF8_0000_0000_0000`. -/
def canonNaN (p : Prec) : F := BitVec.ofNat 64 (fmtInf p + fmtHidden p / 2)

/-- An infinity. -/
def infF (p : Prec) (neg : Bool) : F := packBits p neg (fmtInf p)

/-- A zero. -/
def zeroF (p : Prec) (neg : Bool) : F := packBits p neg 0

/-- `m / 2^d` to the nearest integer, ties to even; `sticky` says that the exact numerator lies strictly
between `m` and `m + 1`. -/
def roundShift (m d : Nat) (sticky : Bool) : Nat :=
  let q := m / 2 ^ d
  let r := m % 2 ^ d
  let h := 2 ^ d / 2
  if h < r ∨ (r = h ∧ (sticky = true ∨ q % 2 = 1)) then q + 1 else q

/-- The exponent of the last kept digit of `m * 2^e`: `digits` digits are kept, but none below `expMin`. -/
def quantum (p : Prec) (m : Nat) (e : Int) : Int :=
  max (e + (Nat.log2 m + 1 : Nat) - p.digits) (fmtExpMin p)

/-- Magnitude bits of the correctly rounded `m * 2^e` (`m > 0`), or of infinity on overflow. The rounded
significand plus the exponent's offset is the pattern: a carry out of the significand moves into the
exponent field by itself. -/
def roundMag (p : Prec) (m : Nat) (e : Int) (sticky : Bool) : Nat :=
  let q := quantum p m e
  let sig := if q ≤ e then m * 2 ^ (e - q).toNat else roundShift m (q - e).toNat sticky
  min (sig + (q - fmtExpMin p).toNat * fmtHidden p) (fmtInf p)

/-- The correctly rounded `F` value (R14: nearest, ties to even) of a real of the given sign whose magnitude
is `m * 2^e`, or lies strictly between `m * 2^e` and `(m + 1) * 2^e` when `sticky`. -/
def roundF (p : Prec) (neg : Bool) (m : Nat) (e : Int) (sticky : Bool) : F :=
  if m = 0 then zeroF p neg else packBits p neg (roundMag p m e sticky)

/-- `fneg`: flips the sign bit and nothing else (R110). -/
def fneg (p : Prec) (a : F) : F := packBits p (!fsign p a) (fmag p a)

/-- The signed integer `±m * 2^s`. -/
def signedShift (neg : Bool) (m s : Nat) : Int :=
  if neg then -((m * 2 ^ s : Nat) : Int) else ((m * 2 ^ s : Nat) : Int)

/-- The exact sum of two finite values, rounded once. An exact zero sum is `+0.0` unless both operands are
negative (IEEE 754, round to nearest). -/
def addFinite (p : Prec) (na : Bool) (ma : Nat) (ea : Int) (nb : Bool) (mb : Nat) (eb : Int) : F :=
  let e := min ea eb
  let t := signedShift na ma (ea - e).toNat + signedShift nb mb (eb - e).toNat
  if t = 0 then zeroF p (na && nb) else roundF p (decide (t < 0)) t.natAbs e false

/-- `fadd` (R14, R110). -/
def fadd (p : Prec) (a b : F) : F :=
  match unpack p a, unpack p b with
  | .nan, _ => canonNaN p
  | _, .nan => canonNaN p
  | .inf na, .inf nb => if na = nb then infF p na else canonNaN p
  | .inf na, .fin _ _ _ => infF p na
  | .fin _ _ _, .inf nb => infF p nb
  | .fin na ma ea, .fin nb mb eb => addFinite p na ma ea nb mb eb

/-- `fsub` (R14, R110): the sum with the second operand negated. -/
def fsub (p : Prec) (a b : F) : F := fadd p a (fneg p b)

/-- `fmul` (R14, R110). -/
def fmul (p : Prec) (a b : F) : F :=
  match unpack p a, unpack p b with
  | .nan, _ => canonNaN p
  | _, .nan => canonNaN p
  | .inf na, .inf nb => infF p (na ^^ nb)
  | .inf na, .fin nb mb _ => if mb = 0 then canonNaN p else infF p (na ^^ nb)
  | .fin na ma _, .inf nb => if ma = 0 then canonNaN p else infF p (na ^^ nb)
  | .fin na ma ea, .fin nb mb eb => roundF p (na ^^ nb) (ma * mb) (ea + eb) false

/-- The exact quotient of two finite values, the second not zero, rounded once: the numerator is scaled so
that the integer quotient has more digits than the format, and the remainder is the sticky digit. -/
def divFinite (p : Prec) (neg : Bool) (ma : Nat) (ea : Int) (mb : Nat) (eb : Int) : F :=
  let k := p.digits + 3 + Nat.log2 mb
  let num := ma * 2 ^ k
  roundF p neg (num / mb) (ea - eb - (k : Int)) (num % mb != 0)

/-- `fdiv` (R14, R110). -/
def fdiv (p : Prec) (a b : F) : F :=
  match unpack p a, unpack p b with
  | .nan, _ => canonNaN p
  | _, .nan => canonNaN p
  | .inf _, .inf _ => canonNaN p
  | .inf na, .fin nb _ _ => infF p (na ^^ nb)
  | .fin na _ _, .inf nb => zeroF p (na ^^ nb)
  | .fin na ma ea, .fin nb mb eb =>
    if mb = 0 then (if ma = 0 then canonNaN p else infF p (na ^^ nb))
    else divFinite p (na ^^ nb) ma ea mb eb

/-- Integer square root from the bit of weight `2^k` down: `acc` is the part found so far. -/
def isqrtFrom (n : Nat) : Nat → Nat → Nat
  | 0, acc => if (acc + 1) * (acc + 1) ≤ n then acc + 1 else acc
  | k + 1, acc =>
    let t := acc + 2 ^ (k + 1)
    isqrtFrom n k (if t * t ≤ n then t else acc)

/-- The floor of the square root. -/
def isqrt (n : Nat) : Nat := isqrtFrom n (Nat.log2 n / 2) 0

/-- The square root of a finite positive value, rounded once: the significand is scaled to an even exponent
and to more than twice the format's digits. -/
def sqrtFinite (p : Prec) (m : Nat) (e : Int) : F :=
  let k := 2 * p.digits + 4 + (e % 2).toNat
  let n := m * 2 ^ k
  let r := isqrt n
  roundF p false r ((e - (k : Int)) / 2) (r * r != n)

/-- `fsqrt` (R14, R110). -/
def fsqrt (p : Prec) (a : F) : F :=
  match unpack p a with
  | .nan => canonNaN p
  | .inf neg => if neg then canonNaN p else infF p false
  | .fin neg m e =>
    if m = 0 then zeroF p neg else if neg then canonNaN p else sqrtFinite p m e

/-- `toF(n)` of a non-negative integer (R14). -/
def toF (p : Prec) (n : Nat) : F := roundF p false n 0 false

/-- `isNaN` (R14). -/
def isNaN (p : Prec) (a : F) : Bool := decide (fmtInf p < fmag p a)

/-- Finite: neither NaN nor an infinity. -/
def isFinite (p : Prec) (a : F) : Bool := decide (fmag p a < fmtInf p)

/-- An integer that orders the patterns as IEEE 754 orders their values, both zeros at 0. -/
def orderKey (p : Prec) (a : F) : Int := if fsign p a then -(fmag p a : Int) else (fmag p a : Int)

/-- `flt` (R14): false when an operand is NaN; `-0` equals `+0`. -/
def flt (p : Prec) (a b : F) : Bool := !isNaN p a && !isNaN p b && decide (orderKey p a < orderKey p b)

/-- `fle` (R14). -/
def fle (p : Prec) (a b : F) : Bool := !isNaN p a && !isNaN p b && decide (orderKey p a ≤ orderKey p b)

/-- `fgt` (R14). -/
def fgt (p : Prec) (a b : F) : Bool := flt p b a

/-- `fge` (R14). -/
def fge (p : Prec) (a b : F) : Bool := fle p b a

/-- `floor(m * 2^e)`. -/
def floorScaled (m : Nat) (e : Int) : Nat := if 0 ≤ e then m * 2 ^ e.toNat else m / 2 ^ (-e).toNat

/-- `floor(x)` of a finite non-negative value; 0 of anything else. -/
def ffloor (p : Prec) (x : F) : Nat :=
  match unpack p x with
  | .fin false m e => floorScaled m e
  | _ => 0

end Sys2Proof.Machine
end

