-- ==== Sys2Proof/Syntax.lean ====
section
/-! DEFINITION. The commands of WTCORE, one constructor per row of spec/opcode_table.json (spec/30_encoding.md R93). -/

namespace Sys2Proof

/-- An oscillator channel, the field `CH` (R91): 0 or 1. -/
inductive Chan where
  | c0
  | c1
  deriving DecidableEq, Repr

/-- A command with the fields its opcode uses (R93). `bs` and `bd` are the two-bit buffer fields: the value 3
names no buffer and faults when the command is checked (R92); `slot` is the eight-bit slot index. -/
inductive Instr where
  | nop
  | fftFwd (bs bd : BitVec 2)
  | fftFwdr (bs bd : BitVec 2)
  | fftInv (bs bd : BitVec 2)
  | fftInvr (bs : BitVec 2) (slot : BitVec 8)
  | mask (bd : BitVec 2)
  | build (bs bd : BitVec 2) (slot : BitVec 8)
  | oscSetf (ch : Chan)
  | oscAdv (ch : Chan)
  | oscRetrig (ch : Chan)
  | morphSetf
  | morphAdv
  deriving DecidableEq, Repr

end Sys2Proof
end

