-- ==== Sys2Proof/WellFormed.lean ====
section
/-! DEFINITION. Which commands the assembler can write (spec/30_encoding.md R96). -/

namespace Sys2Proof

/-- A buffer field names one of `B0`, `B1`, `B2` (R92, R96). -/
def bufferNamed (f : BitVec 2) : Bool := f != 3#2

/-- Every buffer field the command uses names a buffer: the commands the assembler syntax of R96 can write.
Slots `T0` to `T255` and channels `C0`, `C1` fill their fields, so they need no check. A command that is not
well-formed still has its word, and that word still decodes to it (R92). -/
def Instr.wellFormed : Instr → Bool
  | .nop => true
  | .fftFwd bs bd => bufferNamed bs && bufferNamed bd
  | .fftFwdr bs bd => bufferNamed bs && bufferNamed bd
  | .fftInv bs bd => bufferNamed bs && bufferNamed bd
  | .fftInvr bs _ => bufferNamed bs
  | .mask bd => bufferNamed bd
  | .build bs bd _ => bufferNamed bs && bufferNamed bd
  | .oscSetf _ => true
  | .oscAdv _ => true
  | .oscRetrig _ => true
  | .morphSetf => true
  | .morphAdv => true

end Sys2Proof
end

