-- ==== Sys2Proof/Decode.lean ====
section
/-! DEFINITION. The decoder and the encoder of the 32-bit command word (spec/30_encoding.md R90 to R95). -/

namespace Sys2Proof

/-- The field `OP` (R91). -/
def opField (w : Word32) : BitVec 8 := w.extractLsb' 0 8

/-- The field `BS` (R91, R92). -/
def bsField (w : Word32) : BitVec 2 := w.extractLsb' 8 2

/-- The field `BD` (R91, R92). -/
def bdField (w : Word32) : BitVec 2 := w.extractLsb' 10 2

/-- The field `CH` (R91, R92). -/
def chField (w : Word32) : Chan := if w.getLsbD 12 then .c1 else .c0

/-- The field `SLOT` (R91, R92). -/
def slotField (w : Word32) : BitVec 8 := w.extractLsb' 16 8

/-- Why a word is illegal (R94): its opcode is none of R93's, or a bit outside the fields its opcode uses is
set. Both raise `ILLEGAL_CMD`. -/
inductive DecodeError where
  | unassignedOpcode
  | nonzeroUnusedBits
  deriving DecidableEq, Repr

/-- One row of R93: the word matches when `(w & mask) == value`; `make` reads the fields the row uses. -/
structure Row where
  mask  : Word32
  value : Word32
  make  : Word32 → Instr

/-- The table of R93. -/
def rows : List Row := [
  { mask := 0xFFFFFFFF#32, value := 0x00000000#32, make := fun _ => .nop },
  { mask := 0xFFFFF0FF#32, value := 0x00000001#32, make := fun w => .fftFwd (bsField w) (bdField w) },
  { mask := 0xFFFFF0FF#32, value := 0x00000002#32, make := fun w => .fftFwdr (bsField w) (bdField w) },
  { mask := 0xFFFFF0FF#32, value := 0x00000003#32, make := fun w => .fftInv (bsField w) (bdField w) },
  { mask := 0xFF00FCFF#32, value := 0x00000004#32, make := fun w => .fftInvr (bsField w) (slotField w) },
  { mask := 0xFFFFF3FF#32, value := 0x00000005#32, make := fun w => .mask (bdField w) },
  { mask := 0xFF00F0FF#32, value := 0x00000006#32, make := fun w => .build (bsField w) (bdField w) (slotField w) },
  { mask := 0xFFFFEFFF#32, value := 0x00000010#32, make := fun w => .oscSetf (chField w) },
  { mask := 0xFFFFEFFF#32, value := 0x00000011#32, make := fun w => .oscAdv (chField w) },
  { mask := 0xFFFFEFFF#32, value := 0x00000012#32, make := fun w => .oscRetrig (chField w) },
  { mask := 0xFFFFFFFF#32, value := 0x00000013#32, make := fun _ => .morphSetf },
  { mask := 0xFFFFFFFF#32, value := 0x00000014#32, make := fun _ => .morphAdv } ]

/-- The row a word matches (R95). -/
def Row.hits (w : Word32) (r : Row) : Bool := (w &&& r.mask) == r.value

/-- The decoder of R95, total on all words: the one row that matches, or illegal, by name. -/
def decode (w : Word32) : Except DecodeError Instr :=
  match rows.find? (Row.hits w) with
  | some r => .ok (r.make w)
  | none =>
    if rows.any (fun r => opField r.value == opField w) then .error .nonzeroUnusedBits
    else .error .unassignedOpcode

/-- The bit `CH` holds (R91). -/
def Chan.bit : Chan → BitVec 1
  | .c0 => 0#1
  | .c1 => 1#1

/-- A command word from its fields, every reserved bit 0 (R91). -/
def packFields (op : BitVec 8) (bs bd : BitVec 2) (ch : BitVec 1) (slot : BitVec 8) : Word32 :=
  0#8 ++ slot ++ 0#3 ++ ch ++ bd ++ bs ++ op

/-- The word of a command (R93): its opcode, the fields it uses, zero elsewhere. -/
def encode : Instr → Word32
  | .nop => packFields 0x00#8 0#2 0#2 0#1 0#8
  | .fftFwd bs bd => packFields 0x01#8 bs bd 0#1 0#8
  | .fftFwdr bs bd => packFields 0x02#8 bs bd 0#1 0#8
  | .fftInv bs bd => packFields 0x03#8 bs bd 0#1 0#8
  | .fftInvr bs slot => packFields 0x04#8 bs 0#2 0#1 slot
  | .mask bd => packFields 0x05#8 0#2 bd 0#1 0#8
  | .build bs bd slot => packFields 0x06#8 bs bd 0#1 slot
  | .oscSetf ch => packFields 0x10#8 0#2 0#2 ch.bit 0#8
  | .oscAdv ch => packFields 0x11#8 0#2 0#2 ch.bit 0#8
  | .oscRetrig ch => packFields 0x12#8 0#2 0#2 ch.bit 0#8
  | .morphSetf => packFields 0x13#8 0#2 0#2 0#1 0#8
  | .morphAdv => packFields 0x14#8 0#2 0#2 0#1 0#8

/-- The instruction read from a word given as the opcode table numbers its bits. A command word has 32 bits
(R90); the bits above `nbits` are 0. -/
def decodeTableWord (nbits w : Nat) : Option Instr :=
  if nbits ≤ 32 then (decode (BitVec.ofNat 32 (w % 2 ^ nbits))).toOption else none

end Sys2Proof
end

