-- ==== Sys2Proof/Machine/State.lean ====
section
/-! DEFINITION. The state of WTCORE (spec/10_state.md), its reset (spec/70_reset_and_hazards.md R260) and the reasons a step can stop. -/

namespace Sys2Proof.Machine

/-- The fault codes of spec/60_exceptions.md R221. -/
inductive FaultCode where
  | cmdBusy | illegalCmd | badBuffer | badSlot | aliased | badSr | badFarg
  | freqRange | badSet | badLen | badKern | noTable | hostBusy
  deriving DecidableEq, Repr

/-- The interpolation kernels a channel can hold in `CURKERN` (R41, R182): codes 0, 1 and 2. -/
inductive Kernel where
  | linear | hermite | cubic
  deriving DecidableEq, Repr

/-- A complex value `(re, im)` of two real values (R14). -/
structure Cplx where
  re : F
  im : F
  deriving DecidableEq, Repr

/-- A slot descriptor (R49). -/
structure SlotDesc where
  maxf : F
  len  : BitVec 18
  kern : BitVec 2
  deriving DecidableEq, Repr

/-- The registers of one oscillator channel (R35 to R46). `pos` and `inc` are zero-extended from `PW` and
`PW + 1` bits. -/
structure Channel where
  setbase : BitVec 8
  setcnt  : BitVec 9
  freq    : F
  valid   : Bool
  sel     : BitVec 8
  curlen  : BitVec 18
  curkern : Kernel
  pos     : Word
  inc     : Word
  bottom  : F
  top     : F
  cur     : F
  deriving DecidableEq, Repr

/-- The `TAG` of an output event (R204): channel 0, channel 1 or the morph stage; 3 is never driven. -/
inductive Tag where
  | chan0 | chan1 | morph
  deriving DecidableEq, Repr

/-- One event of the output sample port (R204, R205). -/
structure OutEvent where
  tag    : Tag
  sample : Word
  deriving DecidableEq, Repr

/-- What one host access does at its address: a read, or a write of a 64-bit value. -/
inductive HostOp where
  | read
  | write (v : Word)
  deriving DecidableEq, Repr

/-- One host access (R60, R61): its width in bits, its byte address, and what it does. -/
structure Access where
  bits : Nat
  addr : Word32
  op   : HostOp
  deriving DecidableEq, Repr

/-- The data one host read returned. -/
structure ReadBack where
  addr : Word32
  data : Word
  deriving DecidableEq, Repr

/-- One move of an agent (R270, log 2): a host access; the host's `WAIT` poll (R97, R99); the engine's turn, in
which the command in flight completes; `RST` asserted, or still asserted, with the contents the memories and
`SCR` then have (R261, "a model takes them as an argument"); or the release of `RST` (R260). -/
inductive Turn where
  | host (a : Access)
  | wait
  | engine
  | rst (cells : List Host.Cell) (scr : List Cplx)
  | release
  deriving DecidableEq, Repr

/-- The bytes of the buffers and of table memory, at their host addresses (R63, R64): addresses strictly
rising, no zero byte listed. An unlisted byte reads as 0 (log 4). -/
abbrev Mem := List Host.Cell

/-- The whole state: the build parameters, every register, memory and hidden element the spec names, and last
the model's own histories and inputs (see INVENTORY.md). -/
structure State where
  /-- the build parameters (R9), never changed -/
  build    : Build
  /-- `CTRL[1:0]`: bit 0 `IE_DONE`, bit 1 `IE_FAULT` (R26) -/
  ctrl     : BitVec 2
  /-- the word of the command in flight (R51); `STATUS.BUSY` is 1 exactly while it is present -/
  inflight : Option Word32
  /-- `STATUS.DONE` (R27) -/
  done     : Bool
  /-- `STATUS.FAULT` and `STATUS.FCODE` (R27): the first fault since reset -/
  fault    : Option FaultCode
  /-- the last accepted word (R28) -/
  lastcmd  : Word32
  /-- `FINFO` (R29) -/
  finfo    : Word
  /-- `FARG` (R30) -/
  farg     : F
  /-- `SR` (R31) -/
  sr       : F
  /-- `MORPH_P` (R32) -/
  morphP   : F
  /-- `MORPH_OUT` (R33) -/
  morphOut : F
  /-- channel 0 (R35) -/
  ch0      : Channel
  /-- channel 1 (R35) -/
  ch1      : Channel
  /-- the slot descriptors, `TSLOTS` of them (R49) -/
  slots    : List SlotDesc
  /-- the complex buffers and table memory (R47, R48) -/
  mem      : Mem
  /-- the scratch buffer `SCR` (R51) -/
  scr      : List Cplx
  /-- the level of the reset input `RST` (R260): while it is asserted every register keeps its reset value -/
  rst      : Bool
  /-- the output history (R205), the model's own -/
  out      : List OutEvent
  /-- what the host's reads returned, the model's own (log 7) -/
  reads    : List ReadBack
  /-- how many free values were handed out, the model's own (log 6) -/
  draws    : Nat
  /-- the moves still to come, the model's own (log 2) -/
  turns    : List Turn
  deriving DecidableEq, Repr

/-- Why a step of the model stops with a fault. WTCORE itself never stops: its faults are next states (R225). -/
inductive Fault where
  /-- Raised by the engine's turn and by a command's meaning, when the word in flight does not decode or its
  operand checks fail. R228 ("a command already accepted never faults later") says that no such state is
  reached; the model stops rather than invent an effect. Safe. -/
  | inflightCorrupt
  deriving DecidableEq, Repr

/-- Why a step of the model is refused. -/
inductive Refusal where
  /-- Raised by exec's arm of an instruction that has no meaning yet. Safe. -/
  | notModelled (mnemonic : String)
  /-- Raised by the host port for an access that is not 64 bits wide or not 8-byte aligned (R61: "a model
  refuses such an access"). Safe. -/
  | busError
  deriving DecidableEq, Repr

/-- A channel after reset (R55, R260). -/
def Channel.reset : Channel :=
  { setbase := 0#8, setcnt := 0#9, freq := 0#64, valid := false, sel := 0#8, curlen := 0#18, curkern := .linear,
    pos := 0#64, inc := 0#64, bottom := 0#64, top := 0#64, cur := 0#64 }

/-- A slot descriptor after reset (R49, R260). -/
def SlotDesc.reset : SlotDesc := { maxf := 0#64, len := 0#18, kern := 0#2 }

/-- The machine of build `b` right after reset, `RST` released (R55, R260, R263), with the given contents of the memories and of `SCR`,
which the spec leaves open (R261). -/
def State.afterReset (b : Build) (mem : Mem) (scr : List Cplx) : State :=
  { build := b, ctrl := 0#2, inflight := none, done := false, fault := none, lastcmd := 0#32, finfo := 0#64,
    farg := 0#64, sr := 0#64, morphP := 0#64, morphOut := 0#64, ch0 := .reset, ch1 := .reset,
    slots := List.replicate b.tslots .reset, mem := mem, scr := scr, rst := false,
    out := [], reads := [], draws := 0, turns := [] }

/-- The machine right after reset, of the standard build (log 1), the memories and `SCR` all zero (log 4). -/
def State.reset : State :=
  State.afterReset .standard [] (List.replicate Build.standard.n ⟨0#64, 0#64⟩)

end Sys2Proof.Machine
end

