-- ==== Sys2Proof/Machine/Ops.lean ====
section
/-! DEFINITION. The named operations over memory and registers, taking a fault (spec/60_exceptions.md R225) and the lifecycle of a command (spec/70_reset_and_hazards.md R270). -/

namespace Sys2Proof.Machine

/-- What a meaning answers. -/
abbrev Result := Host.Outcome State Fault Refusal

/-! ## Bytes and words (R67) -/

/-- The byte at an address; an unlisted address reads as 0 (log 4). -/
def Mem.byteAt : Mem → Nat → Byte
  | [], _ => 0#8
  | (k, v) :: rest, a => if k = a then v else Mem.byteAt rest a

/-- The cells of consecutive bytes from an address, zero bytes left out. -/
def cellsFrom (a : Nat) : List Byte → Mem
  | [] => []
  | v :: rest => if v = 0#8 then cellsFrom (a + 1) rest else (a, v) :: cellsFrom (a + 1) rest

/-- Stores consecutive bytes from an address. -/
def Mem.store (m : Mem) (a : Nat) (bytes : List Byte) : Mem :=
  m.filter (fun c => decide (c.1 < a)) ++ cellsFrom a bytes ++
    m.filter (fun c => decide (a + bytes.length ≤ c.1))

/-- The canonical form: addresses strictly rising, no zero byte listed. -/
abbrev Mem.wf (m : Mem) : Prop :=
  m.Pairwise (fun x y => x.1 < y.1) ∧ ∀ c ∈ m, c.2 ≠ 0#8

/-- The eight bytes of a word, byte `k` being bits `8k+7 : 8k` (R67). -/
def wordBytes (v : Word) : List Byte :=
  [v.extractLsb' 0 8, v.extractLsb' 8 8, v.extractLsb' 16 8, v.extractLsb' 24 8,
   v.extractLsb' 32 8, v.extractLsb' 40 8, v.extractLsb' 48 8, v.extractLsb' 56 8]

/-- The word at an address (R67). -/
def Mem.wordAt (m : Mem) (a : Nat) : Word :=
  m.byteAt (a + 7) ++ m.byteAt (a + 6) ++ m.byteAt (a + 5) ++ m.byteAt (a + 4) ++
    m.byteAt (a + 3) ++ m.byteAt (a + 2) ++ m.byteAt (a + 1) ++ m.byteAt a

/-- Stores consecutive words from an address. -/
def Mem.storeWords (m : Mem) (a : Nat) (ws : List Word) : Mem := m.store a (ws.flatMap wordBytes)

/-- A memory from any list of cells: each is stored in turn, so the result is canonical and the last cell of an
address counts. -/
def Mem.ofCells (cells : List Host.Cell) : Mem := cells.foldl (fun m c => m.store c.1 [c.2]) []

/-! ## Where the buffers and tables stand (R63, R64) -/

/-- The host address of entry `i` of the buffer a field names (R63); used once the field is known not to be 3. -/
def bufAddr (f : BitVec 2) (i : Nat) : Nat := (1 + f.toNat) * 2 ^ 28 + 16 * i

/-- The host address of sample `j` of slot `t` (R64). -/
def tabAddr (b : Build) (t j : Nat) : Nat := 4 * 2 ^ 28 + t * (8 * b.lmax) + 8 * j

/-- The F value at an address, as R34 lays it out. -/
def State.fAt (s : State) (a : Nat) : F := layoutF s.build.prec (s.mem.wordAt a)

/-- `BufRead(b, i)` (R13). -/
def State.bufRead (s : State) (f : BitVec 2) (i : Nat) : Cplx :=
  ⟨s.fAt (bufAddr f i), s.fAt (bufAddr f i + 8)⟩

/-- All `N` entries of a buffer, in order. -/
def State.bufEntries (s : State) (f : BitVec 2) : List Cplx := (List.range s.build.n).map (s.bufRead f)

/-- `BufWrite(b, i, y[k])` for consecutive entries from `i` (R13). -/
def State.bufWrite (s : State) (f : BitVec 2) (i : Nat) (ys : List Cplx) : State :=
  { s with mem := s.mem.storeWords (bufAddr f i) (ys.flatMap fun y => [y.re, y.im]) }

/-- `TabRead(t, j)` (R13). -/
def State.tabRead (s : State) (t j : Nat) : F := s.fAt (tabAddr s.build t j)

/-- `TabWrite(t, j, v[j])` for the samples from 0 (R13). -/
def State.tabWrite (s : State) (t : Nat) (vs : List F) : State :=
  { s with mem := s.mem.storeWords (tabAddr s.build t 0) vs }

/-! ## Channels and slot descriptors (R35, R49) -/

/-- `ch[c]` (R13). -/
def State.chan (s : State) : Chan → Channel
  | .c0 => s.ch0
  | .c1 => s.ch1

/-- Writes the registers of channel `c`. -/
def State.setChan (s : State) (c : Chan) (r : Channel) : State :=
  match c with
  | .c0 => { s with ch0 := r }
  | .c1 => { s with ch1 := r }

/-- The descriptor of slot `t` in a list of descriptors. -/
def slotOf (slots : List SlotDesc) (t : Nat) : SlotDesc := slots.getD t .reset

/-- `slot[t]` (R13). -/
def State.slot (s : State) (t : Nat) : SlotDesc := slotOf s.slots t

/-- Writes the descriptor of slot `t`. -/
def State.setSlot (s : State) (t : Nat) (d : SlotDesc) : State := { s with slots := s.slots.set t d }

/-- A position as `POS` holds it: `PW` bits (R42). -/
def posWord (b : Build) (p : Nat) : Word := BitVec.ofNat 64 (p % 2 ^ b.pw)

/-- An increment as `INC` holds it: `PW + 1` bits (R43). -/
def incWord (b : Build) (p : Nat) : Word := BitVec.ofNat 64 (p % 2 ^ (b.pw + 1))

/-! ## Taking a fault (R225); nothing returns from one but reset (R239) -/

/-- `fault(code, info)` (R225): the first fault is kept, a later one changes nothing. -/
def State.raise (s : State) (c : FaultCode) (info : Word) : State :=
  match s.fault with
  | none => { s with fault := some c, finfo := info }
  | some _ => s

/-! ## The lifecycle of a command (R224, R270) -/

/-- `STATUS.BUSY` (R27, R51). -/
def State.busy (s : State) : Bool := s.inflight.isSome

/-- `STATUS.FAULT` (R27). -/
def State.faulted (s : State) : Bool := s.fault.isSome

/-- What a decoded command word does at the `CMD` write of an idle engine (R224): ignored after a fault (R227);
otherwise the lowest failing check faults, and with none the command is accepted. -/
def State.issue (s : State) (w : Word32) (code : Option FaultCode) : State :=
  if s.faulted then s
  else match code with
    | some c => s.raise c (w.setWidth 64)
    | none => { s with lastcmd := w, inflight := some w, done := false }

/-- The end of a completion (R270): `BUSY <- 0`, `DONE <- 1`. -/
def State.finish (s : State) : State := { s with inflight := none, done := true }

/-- `emit(tag, v)` (R205). -/
def State.emit (s : State) (tag : Tag) (v : F) : State := { s with out := s.out ++ [⟨tag, v⟩] }

/-- One step of a command (R224, R270, log 3): with no command in flight, its issue at the `CMD` write, where
the checks are made; with one in flight, its completion, where the effects are applied. `word` is the command's
word, `check` its lowest failing operand check, `effect` what it writes. -/
def command (word : Word32) (check : State → Option FaultCode) (effect : State → State) (s : State) : Result :=
  match s.inflight with
  | none => .next (s.issue word (check s))
  | some _ =>
    match check s with
    | none => .next (effect s).finish
    | some _ => .fault .inflightCorrupt

/-! ## Reset (R260 to R262) -/

/-- A byte of the buffers or of table memory exists at this address (R63, R64); bytes 4 to 7 of a word hold
nothing for binary32 (R34). -/
def byteExists (b : Build) (a : Nat) : Bool :=
  let region := a / 2 ^ 28
  let off := a % 2 ^ 28
  (b.prec == .binary64 || decide (a % 8 < 4)) &&
    ((decide (1 ≤ region) && decide (region ≤ 3) && decide (off / 16 < b.n)) ||
      (decide (region = 4) && decide (off / (8 * b.lmax) < b.tslots)))

/-- `RST` asserted (R260 to R262): every register takes its reset value, the command in flight and any fault are
abandoned, and the memories and `SCR` hold unspecified contents, which the turn supplies (log 5). The histories
and the turns to come are not the machine's and stay. -/
def State.resetBy (s : State) (cells : List Host.Cell) (scr : List Cplx) : State :=
  { State.afterReset s.build (Mem.ofCells (cells.filter fun c => byteExists s.build c.1))
      ((List.range s.build.n).map fun i =>
        ⟨layoutF s.build.prec (scr.getD i ⟨0#64, 0#64⟩).re, layoutF s.build.prec (scr.getD i ⟨0#64, 0#64⟩).im⟩) with
    rst := true, out := s.out, reads := s.reads, draws := s.draws, turns := s.turns }

/-- `RST` released (R260, R263): the registers hold their reset values still, and accesses take effect again. -/
def State.releaseRst (s : State) : State := { s with rst := false }

end Sys2Proof.Machine
end

