-- ==== Sys2Proof/Machine/Operands.lean ====
section
/-! DEFINITION. The operand checks of the commands (spec/60_exceptions.md R221, R222) and the decoding of host addresses (spec/20_memory.md R62 to R65). -/

namespace Sys2Proof.Machine

/-- The value of `FCODE` for each fault (R221). -/
def FaultCode.code : FaultCode → BitVec 8
  | .cmdBusy => 0x01#8
  | .illegalCmd => 0x02#8
  | .badBuffer => 0x03#8
  | .badSlot => 0x04#8
  | .aliased => 0x05#8
  | .badSr => 0x06#8
  | .badFarg => 0x07#8
  | .freqRange => 0x08#8
  | .badSet => 0x09#8
  | .badLen => 0x0A#8
  | .badKern => 0x0B#8
  | .noTable => 0x0C#8
  | .hostBusy => 0x0D#8

/-- The first check that fails, in the order given, which is ascending code order (R222). -/
def firstFault : List (Bool × FaultCode) → Option FaultCode
  | [] => none
  | (failed, c) :: rest => if failed then some c else firstFault rest

/-- The lower of two possible faults (R229). -/
def lowerFault : Option FaultCode → Option FaultCode → Option FaultCode
  | none, y => y
  | x, none => x
  | some x, some y => if x.code.toNat ≤ y.code.toNat then some x else some y

/-- A buffer field names no buffer (R92). -/
def badBuffer (f : BitVec 2) : Bool := f == 3#2

/-- `SLOT >= TSLOTS` (R92). -/
def badSlot (b : Build) (t : BitVec 8) : Bool := decide (b.tslots ≤ t.toNat)

/-- `SR` is NaN, infinite, or not greater than zero (R31, R221). -/
def badSr (p : Prec) (sr : F) : Bool := !(isFinite p sr && fgt p sr (toF p 0))

/-- `FARG` is NaN or not greater than zero (R143, R221). -/
def badFarg (p : Prec) (farg : F) : Bool := !(fgt p farg (toF p 0))

/-- The frequency check of R162: NaN, negative (`-0.0` is not), or at least the sample rate. -/
def badFreq (p : Prec) (f sr : F) : Bool := isNaN p f || flt p f (toF p 0) || fge p f sr

/-- The set check of R163. -/
def badSet (b : Build) (r : Channel) : Bool :=
  decide (r.setcnt.toNat = 0) || decide (b.tslots < r.setbase.toNat + r.setcnt.toNat)

/-- The length check of R168. -/
def badLen (b : Build) (d : SlotDesc) : Bool := decide (d.len.toNat = 0) || decide (b.lmax < d.len.toNat)

/-- The kernel check of R168, R186. -/
def badKern (d : SlotDesc) : Bool := d.kern == 3#2

/-- The kernel a code names (R182); code 3 is reserved and never latched (R168). -/
def kernelOf (k : BitVec 2) : Kernel :=
  if k = 1#2 then .hermite else if k = 2#2 then .cubic else .linear

/-- The code of a kernel (R41). -/
def Kernel.code : Kernel → BitVec 2
  | .linear => 0#2
  | .hermite => 1#2
  | .cubic => 2#2

/-- The value of `TAG` (R204). -/
def Tag.code : Tag → BitVec 2
  | .chan0 => 0#2
  | .chan1 => 1#2
  | .morph => 2#2

/-- The tag of a channel's own samples (R205). -/
def chanTag : Chan → Tag
  | .c0 => .chan0
  | .c1 => .chan1

/-! ## Host addresses -/

/-- The registers of a channel's block (R35 to R46). -/
inductive ChanReg where
  | setbase | setcnt | freq | selstat | curlen | curkern | pos | inc | bottom | top | cur
  deriving DecidableEq, Repr

/-- The fields of a slot descriptor (R49). -/
inductive SlotField where
  | maxf | len | kern
  deriving DecidableEq, Repr

/-- What stands at a host address (R62): a register, an F word of a buffer or of table memory (with its
address), a descriptor field, or nothing (RAZ/WI). -/
inductive Loc where
  | id | cfg | ctrl | status | cmd | finfo | farg | sr | morphP | morphOut
  | chan (c : Chan) (r : ChanReg)
  | fword (a : Nat)
  | slot (t : Nat) (k : SlotField)
  | raz
  deriving DecidableEq, Repr

/-- The register at an offset of a channel's block (R36 to R46). -/
def chanRegAt (o : Nat) : Option ChanReg :=
  match o with
  | 0x00 => some .setbase
  | 0x08 => some .setcnt
  | 0x10 => some .freq
  | 0x18 => some .selstat
  | 0x20 => some .curlen
  | 0x28 => some .curkern
  | 0x30 => some .pos
  | 0x38 => some .inc
  | 0x40 => some .bottom
  | 0x48 => some .top
  | 0x50 => some .cur
  | _ => none

/-- The global register at an offset (R24 to R33). -/
def globalRegAt (o : Nat) : Option Loc :=
  match o with
  | 0x000 => some .id
  | 0x008 => some .cfg
  | 0x010 => some .ctrl
  | 0x018 => some .status
  | 0x020 => some .cmd
  | 0x028 => some .finfo
  | 0x030 => some .farg
  | 0x038 => some .sr
  | 0x040 => some .morphP
  | 0x048 => some .morphOut
  | _ => none

/-- Region 0 (R62): the global registers, the block of channel 0 at `0x100`, that of channel 1 at `0x180` (R35). -/
def registerAt (off : Nat) : Loc :=
  if off < 0x100 then (globalRegAt off).getD .raz
  else if off < 0x180 then ((chanRegAt (off - 0x100)).map (Loc.chan .c0)).getD .raz
  else if off < 0x200 then ((chanRegAt (off - 0x180)).map (Loc.chan .c1)).getD .raz
  else .raz

/-- Region 5 (R65). -/
def descriptorAt (b : Build) (off : Nat) : Loc :=
  let t := off / 32
  if b.tslots ≤ t then .raz
  else match off / 8 % 4 with
    | 0 => .slot t .maxf
    | 1 => .slot t .len
    | 2 => .slot t .kern
    | _ => .raz

/-- The address map of R62 to R65, for an 8-byte-aligned address. -/
def locate (b : Build) (a : Word32) : Loc :=
  let region := a.toNat / 2 ^ 28
  let off := a.toNat % 2 ^ 28
  if region = 0 then registerAt off
  else if region ≤ 3 then (if off / 16 < b.n then .fword a.toNat else .raz)
  else if region = 4 then (if off / (8 * b.lmax) < b.tslots then .fword a.toNat else .raz)
  else if region = 5 then descriptorAt b off
  else .raz

/-- The host port moves exactly 64 bits at an 8-byte-aligned address (R61). -/
def Access.served (x : Access) : Bool := decide (x.bits = 64) && decide (x.addr.toNat % 8 = 0)

end Sys2Proof.Machine
end

