-- ==== Sys2Proof/Machine/Flags.lean ====
section
/-! DEFINITION. The status bits and what the host reads from the registers (spec/10_state.md R24 to R46, R54; spec/60_exceptions.md R230). WTCORE has no condition codes (R54). -/

namespace Sys2Proof.Machine

/-- `STATUS.FCODE` (R27): the code of the first fault, 0 while there is none. -/
def State.fcode (s : State) : BitVec 8 := (s.fault.map FaultCode.code).getD 0#8

/-- `CTRL.IE_DONE` (R26). -/
def State.ieDone (s : State) : Bool := s.ctrl.getLsbD 0

/-- `CTRL.IE_FAULT` (R26). -/
def State.ieFault (s : State) : Bool := s.ctrl.getLsbD 1

/-- The interrupt line (R230). -/
def State.irq (s : State) : Bool := (s.ieDone && s.done) || (s.ieFault && s.faulted)

/-- The word `STATUS` reads (R27). -/
def State.statusWord (s : State) : Word :=
  0#48 ++ s.fcode ++ 0#5 ++ BitVec.ofBool s.faulted ++ BitVec.ofBool s.done ++ BitVec.ofBool s.busy

/-- The word `CFG` reads (R25). -/
def cfgWord (b : Build) : Word :=
  0#34 ++ BitVec.ofNat 6 b.fb ++ 0#3 ++ BitVec.ofNat 5 b.log2lmax ++ BitVec.ofNat 8 (b.tslots - 1) ++ 0#2 ++
    BitVec.ofBool (b.prec == .binary64) ++ BitVec.ofNat 5 b.log2n

/-- The word `SELSTAT` reads (R39). -/
def Channel.selstat (r : Channel) : Word := 0#48 ++ r.sel ++ 0#7 ++ BitVec.ofBool r.valid

/-- The word a channel register reads (R36 to R46). -/
def Channel.readReg (r : Channel) (p : Prec) : ChanReg → Word
  | .setbase => r.setbase.setWidth 64
  | .setcnt => r.setcnt.setWidth 64
  | .freq => layoutF p r.freq
  | .selstat => r.selstat
  | .curlen => r.curlen.setWidth 64
  | .curkern => r.curkern.code.setWidth 64
  | .pos => r.pos
  | .inc => r.inc
  | .bottom => layoutF p r.bottom
  | .top => layoutF p r.top
  | .cur => layoutF p r.cur

/-- The word a descriptor field reads (R49). -/
def SlotDesc.readField (d : SlotDesc) (p : Prec) : SlotField → Word
  | .maxf => layoutF p d.maxf
  | .len => d.len.setWidth 64
  | .kern => d.kern.setWidth 64

/-- The 64-bit word at a host location (R65, `MemRead`). -/
def State.readLoc (s : State) : Loc → Word
  | .id => Config.idWord
  | .cfg => cfgWord s.build
  | .ctrl => s.ctrl.setWidth 64
  | .status => s.statusWord
  | .cmd => s.lastcmd.setWidth 64
  | .finfo => s.finfo
  | .farg => layoutF s.build.prec s.farg
  | .sr => layoutF s.build.prec s.sr
  | .morphP => layoutF s.build.prec s.morphP
  | .morphOut => layoutF s.build.prec s.morphOut
  | .chan c r => (s.chan c).readReg s.build.prec r
  | .fword a => s.fAt a
  | .slot t k => (s.slot t).readField s.build.prec k
  | .raz => 0#64

/-- A host write of a channel register (R35 to R37): only `SETBASE` and `SETCNT` are writable, and each such
write empties the cached window. -/
def Channel.writeReg (r : Channel) (k : ChanReg) (v : Word) : Channel :=
  match k with
  | .setbase => { r with setbase := v.setWidth 8, bottom := 0#64, top := 0#64 }
  | .setcnt => { r with setcnt := v.setWidth 9, bottom := 0#64, top := 0#64 }
  | .freq | .selstat | .curlen | .curkern | .pos | .inc | .bottom | .top | .cur => r

/-- A host write of a descriptor field (R49). -/
def SlotDesc.writeField (d : SlotDesc) (p : Prec) (k : SlotField) (v : Word) : SlotDesc :=
  match k with
  | .maxf => { d with maxf := layoutF p v }
  | .len => { d with len := v.setWidth 18 }
  | .kern => { d with kern := v.setWidth 2 }

/-- A host write of a location other than `CMD` (R65, `MemWrite`): what the location's rule lets it change. A
write of `CMD` issues a command and is not made here (R224). -/
def State.writeLoc (s : State) (l : Loc) (v : Word) : State :=
  match l with
  | .ctrl => { s with ctrl := v.setWidth 2 }
  | .status => { s with done := s.done && !v.getLsbD 1 }
  | .farg => { s with farg := layoutF s.build.prec v }
  | .sr => { s with sr := layoutF s.build.prec v }
  | .morphP => { s with morphP := layoutF s.build.prec v }
  | .chan c r => s.setChan c ((s.chan c).writeReg r v)
  | .fword a => { s with mem := s.mem.storeWords a [layoutF s.build.prec v] }
  | .slot t k => s.setSlot t ((s.slot t).writeField s.build.prec k v)
  | .id | .cfg | .cmd | .finfo | .morphOut | .raz => s

end Sys2Proof.Machine
end

