-- ==== Sys2Proof/Machine/Twiddle.lean ====
section
/-! DEFINITION. The FFT execution plan ROM (spec/10_state.md R50; spec/40_fft.md R112 to R115). -/

namespace Sys2Proof.Machine

/-- `TWROM` for binary64: entry `s` is the correctly rounded `(cos(π / 2^s), sin(π / 2^s))` (R114). Entries 0 to 4
are R114's own table; DEDUCED (log 9): entries 5 to 16 were evaluated from R114's definition. -/
def twrom64 : List Cplx :=
  [ ⟨0xBFF0000000000000#64, 0x0#64⟩,
    ⟨0x0#64, 0x3FF0000000000000#64⟩,
    ⟨0x3FE6A09E667F3BCD#64, 0x3FE6A09E667F3BCD#64⟩,
    ⟨0x3FED906BCF328D46#64, 0x3FD87DE2A6AEA963#64⟩,
    ⟨0x3FEF6297CFF75CB0#64, 0x3FC8F8B83C69A60B#64⟩,
    ⟨0x3FEFD88DA3D12526#64, 0x3FB917A6BC29B42C#64⟩,
    ⟨0x3FEFF621E3796D7E#64, 0x3FA91F65F10DD814#64⟩,
    ⟨0x3FEFFD886084CD0D#64, 0x3F992155F7A3667E#64⟩,
    ⟨0x3FEFFF62169B92DB#64, 0x3F8921D1FCDEC784#64⟩,
    ⟨0x3FEFFFD8858E8A92#64, 0x3F7921F0FE670071#64⟩,
    ⟨0x3FEFFFF621621D02#64, 0x3F6921F8BECCA4BA#64⟩,
    ⟨0x3FEFFFFD88586EE6#64, 0x3F5921FAAEE6472E#64⟩,
    ⟨0x3FEFFFFF62161A34#64, 0x3F4921FB2AECB360#64⟩,
    ⟨0x3FEFFFFFD8858675#64, 0x3F3921FB49EE4EA6#64⟩,
    ⟨0x3FEFFFFFF621619C#64, 0x3F2921FB51AEB57C#64⟩,
    ⟨0x3FEFFFFFFD885867#64, 0x3F1921FB539ECF31#64⟩,
    ⟨0x3FEFFFFFFF62161A#64, 0x3F0921FB541AD59E#64⟩ ]

/-- `TWROM` for binary32 (R114, log 9). -/
def twrom32 : List Cplx :=
  [ ⟨0xBF800000#64, 0x0#64⟩,
    ⟨0x0#64, 0x3F800000#64⟩,
    ⟨0x3F3504F3#64, 0x3F3504F3#64⟩,
    ⟨0x3F6C835E#64, 0x3EC3EF15#64⟩,
    ⟨0x3F7B14BE#64, 0x3E47C5C2#64⟩,
    ⟨0x3F7EC46D#64, 0x3DC8BD36#64⟩,
    ⟨0x3F7FB10F#64, 0x3D48FB30#64⟩,
    ⟨0x3F7FEC43#64, 0x3CC90AB0#64⟩,
    ⟨0x3F7FFB11#64, 0x3C490E90#64⟩,
    ⟨0x3F7FFEC4#64, 0x3BC90F88#64⟩,
    ⟨0x3F7FFFB1#64, 0x3B490FC6#64⟩,
    ⟨0x3F7FFFEC#64, 0x3AC90FD5#64⟩,
    ⟨0x3F7FFFFB#64, 0x3A490FD9#64⟩,
    ⟨0x3F7FFFFF#64, 0x39C90FDA#64⟩,
    ⟨0x3F800000#64, 0x39490FDB#64⟩,
    ⟨0x3F800000#64, 0x38C90FDB#64⟩,
    ⟨0x3F800000#64, 0x38490FDB#64⟩ ]

/-- `TWROM[s]` of the build's format, `cos` in `re` and `sin` in `im` (R114). `s` is below `LOG2N`, at most 17. -/
def twrom (p : Prec) (s : Nat) : Cplx :=
  match p with
  | .binary64 => twrom64.getD s ⟨0#64, 0#64⟩
  | .binary32 => twrom32.getD s ⟨0#64, 0#64⟩

/-- `rev` of R113: reverses the low `l` bits of `i`. -/
def rev : Nat → Nat → Nat
  | 0, _ => 0
  | l + 1, i => (i % 2) * 2 ^ l + rev l (i / 2)

end Sys2Proof.Machine
end

