-- ==== Sys2Proof/Machine/Fft.lean ====
section
/-! DEFINITION. The FFT engine (spec/40_fft.md): complex arithmetic, the transform, and FFT.FWD, FFT.FWDR, FFT.INV, FFT.INVR. -/

namespace Sys2Proof.Machine

/-- `cadd` (R111). -/
def cadd (p : Prec) (a b : Cplx) : Cplx := ⟨fadd p a.re b.re, fadd p a.im b.im⟩

/-- `csub` (R111). -/
def csub (p : Prec) (a b : Cplx) : Cplx := ⟨fsub p a.re b.re, fsub p a.im b.im⟩

/-- `cmul` (R111): four products and two sums, always computed. -/
def cmul (p : Prec) (x y : Cplx) : Cplx :=
  ⟨fsub p (fmul p x.re y.re) (fmul p x.im y.im), fadd p (fmul p x.re y.im) (fmul p x.im y.re)⟩

/-- The direction of a transform (R116). -/
inductive Dir where
  | fwd
  | inv
  deriving DecidableEq, Repr

/-- `NORM = fdiv(toF(1), fsqrt(toF(N)))` (R112). -/
def normFactor (b : Build) : F := fdiv b.prec (toF b.prec 1) (fsqrt b.prec (toF b.prec b.n))

/-- The per-stage rotator `WS(dir, s)` (R115). -/
def rotator (p : Prec) (dir : Dir) (s : Nat) : Cplx :=
  match dir with
  | .fwd => ⟨(twrom p s).re, fneg p (twrom p s).im⟩
  | .inv => twrom p s

/-- Step 1 of the transform (R116): permute and normalise. -/
def permute (b : Build) (x : List Cplx) : List Cplx :=
  let nrm := normFactor b
  (List.range b.n).map fun i =>
    let z := x.getD (rev b.log2n i) ⟨0#64, 0#64⟩
    ⟨fmul b.prec nrm z.re, fmul b.prec nrm z.im⟩

/-- The `j` loop of R117 over one group: `as` and `bs` are `y[k .. k+m-1]` and `y[k+m .. k+2m-1]`, `w` the running
twiddle. -/
def butterflies (p : Prec) (ws : Cplx) : Cplx → List Cplx → List Cplx → List Cplx × List Cplx
  | w, a :: as, b :: bs =>
    let t := cmul p w b
    let rest := butterflies p ws (cmul p w ws) as bs
    (cadd p a t :: rest.1, csub p a t :: rest.2)
  | _, _, _ => ([], [])

/-- The `k` loop of R117: `g` groups of `2m` entries, the twiddle starting at `(1, 0)` in each. -/
def stage (p : Prec) (ws : Cplx) (m : Nat) : Nat → List Cplx → List Cplx
  | 0, _ => []
  | g + 1, y =>
    let r := butterflies p ws ⟨toF p 1, 0#64⟩ (y.take m) ((y.drop m).take m)
    r.1 ++ r.2 ++ stage p ws m g (y.drop (2 * m))

/-- The `s` loop of R117 from stage `s` on, `k` stages left. -/
def stagesFrom (b : Build) (dir : Dir) : Nat → Nat → List Cplx → List Cplx
  | 0, _, y => y
  | k + 1, s, y =>
    stagesFrom b dir k (s + 1) (stage b.prec (rotator b.prec dir s) (2 ^ s) (2 ^ (b.log2n - 1 - s)) y)

/-- `transform(x, dir)` (R116, R117). -/
def transform (b : Build) (dir : Dir) (x : List Cplx) : List Cplx :=
  stagesFrom b dir b.log2n 0 (permute b x)

/-- The checks of `FFT.FWD`, `FFT.FWDR` and `FFT.INV` (R120 to R122). -/
def checkFft (bs bd : BitVec 2) : Option FaultCode :=
  firstFault [(badBuffer bs || badBuffer bd, .badBuffer), (bs == bd, .aliased)]

/-- The checks of `FFT.INVR` (R123). -/
def checkInvr (b : Build) (bs : BitVec 2) (slot : BitVec 8) : Option FaultCode :=
  firstFault [(badBuffer bs, .badBuffer), (badSlot b slot, .badSlot)]

/-- What `FFT.INVR` and `BUILD` do with a spectrum (R123, R146): `SCR` receives the inverse transform, the slot the
`N` real parts, and `LEN` becomes `N`. -/
def inverseReal (spectrum : List Cplx) (slot : BitVec 8) (s : State) : State :=
  let y := transform s.build .inv spectrum
  let s := { s with scr := y }
  let s := s.tabWrite slot.toNat (y.map Cplx.re)
  s.setSlot slot.toNat { s.slot slot.toNat with len := BitVec.ofNat 18 s.build.n }

/-- Real input (R121): the imaginary components are not read and count as `+0.0`. -/
def realInput (x : List Cplx) : List Cplx := x.map fun z => ⟨z.re, 0#64⟩

/-- `FFT.FWD Bs, Bd` (R120). -/
def execFftFwd (bs bd : BitVec 2) (s : State) : Result :=
  command (encode (.fftFwd bs bd)) (fun _ => checkFft bs bd)
    (fun s => s.bufWrite bd 0 (transform s.build .fwd (s.bufEntries bs))) s

/-- `FFT.FWDR Bs, Bd` (R121). -/
def execFftFwdr (bs bd : BitVec 2) (s : State) : Result :=
  command (encode (.fftFwdr bs bd)) (fun _ => checkFft bs bd)
    (fun s => s.bufWrite bd 0 (transform s.build .fwd (realInput (s.bufEntries bs)))) s

/-- `FFT.INV Bs, Bd` (R122). -/
def execFftInv (bs bd : BitVec 2) (s : State) : Result :=
  command (encode (.fftInv bs bd)) (fun _ => checkFft bs bd)
    (fun s => s.bufWrite bd 0 (transform s.build .inv (s.bufEntries bs))) s

/-- `FFT.INVR Bs, Tt` (R123, R124). -/
def execFftInvr (bs : BitVec 2) (slot : BitVec 8) (s : State) : Result :=
  command (encode (.fftInvr bs slot)) (fun s => checkInvr s.build bs slot)
    (fun s => inverseReal (s.bufEntries bs) slot s) s

end Sys2Proof.Machine
end

