-- ==== Sys2Proof/Machine/Mask.lean ====
section
/-! DEFINITION. The spectral bin masker and the table build (spec/41_mask_build.md): MASK and BUILD. -/

namespace Sys2Proof.Machine

/-- `q` of R140: two rounded divisions, `(SR / 2) / FARG`. -/
def cutoffRatio (p : Prec) (sr farg : F) : F := fdiv p (fdiv p sr (toF p 2)) farg

/-- The cutoff index of R141: none when `q >= N/2` (the no-op), else `floor(q) + 1`. -/
def cutoff (b : Build) (sr farg : F) : Option Nat :=
  let q := cutoffRatio b.prec sr farg
  if fge b.prec q (toF b.prec (b.n / 2)) then none else some (ffloor b.prec q + 1)

/-- `maskFn` (R142): bin 0 made real, bins `C .. N-C` zeroed; nothing when there is no cutoff. -/
def maskFn (n : Nat) (c : Option Nat) (y : List Cplx) : List Cplx :=
  match c with
  | none => y
  | some c =>
    y.mapIdx fun k z =>
      if k = 0 then ⟨z.re, 0#64⟩ else if c ≤ k ∧ k ≤ n - c then ⟨0#64, 0#64⟩ else z

/-- The checks of `MASK` (R143). -/
def checkMask (bd : BitVec 2) (s : State) : Option FaultCode :=
  firstFault [(badBuffer bd, .badBuffer), (badSr s.build.prec s.sr, .badSr), (badFarg s.build.prec s.farg, .badFarg)]

/-- The checks of `BUILD` (R146). -/
def checkBuild (bs bd : BitVec 2) (slot : BitVec 8) (s : State) : Option FaultCode :=
  firstFault [(badBuffer bs || badBuffer bd, .badBuffer), (badSlot s.build slot, .badSlot), (bs == bd, .aliased),
    (badSr s.build.prec s.sr, .badSr), (badFarg s.build.prec s.farg, .badFarg)]

/-- What `MASK` writes (R143): nothing without a cutoff, otherwise `BD[0].im` and the bins `C .. N-C`. -/
def maskBuffer (bd : BitVec 2) (s : State) : State :=
  match cutoff s.build s.sr s.farg with
  | none => s
  | some c =>
    let s := { s with mem := s.mem.storeWords (bufAddr bd 0 + 8) [0#64] }
    s.bufWrite bd c (List.replicate (s.build.n - c + 1 - c) ⟨0#64, 0#64⟩)

/-- What `BUILD` writes (R146). -/
def buildBand (bs bd : BitVec 2) (slot : BitVec 8) (s : State) : State :=
  let w := maskFn s.build.n (cutoff s.build s.sr s.farg) (s.bufEntries bs)
  let s := inverseReal w slot (s.bufWrite bd 0 w)
  s.setSlot slot.toNat { s.slot slot.toNat with maxf := s.farg }

/-- `MASK Bd` (R143). -/
def execMask (bd : BitVec 2) (s : State) : Result :=
  command (encode (.mask bd)) (checkMask bd) (maskBuffer bd) s

/-- `BUILD Bs, Bd, Tt` (R146). -/
def execBuild (bs bd : BitVec 2) (slot : BitVec 8) (s : State) : Result :=
  command (encode (.build bs bd slot)) (checkBuild bs bd slot) (buildBand bs bd slot) s

end Sys2Proof.Machine
end

