-- ==== Sys2Proof/Machine/Osc.lean ====
section
/-! DEFINITION. Phase accumulator, table selection and interpolation (spec/42_oscillator.md): OSC.SETF, OSC.ADV and OSC.RETRIG. -/

namespace Sys2Proof.Machine

/-! ## Selection (R164 to R169) -/

/-- The window test of R164: `BOTTOM < f <= TOP`. -/
def inWindow (p : Prec) (r : Channel) (f : F) : Bool := flt p r.bottom f && fle p f r.top

/-- The scan of R165 over `n` slots from `t`: the first whose `MAXF >= f`, else the last of them. -/
def scanFrom (p : Prec) (slots : List SlotDesc) (f : F) : Nat → Nat → Nat
  | 0, t => t - 1
  | n + 1, t => if fge p (slotOf slots t).maxf f then t else scanFrom p slots f n (t + 1)

/-- `scan(c, f)` (R165). -/
def scan (p : Prec) (slots : List SlotDesc) (r : Channel) (f : F) : Nat :=
  scanFrom p slots f r.setcnt.toNat r.setbase.toNat

/-- The position rescaled to a new length (R167): exact floor, clamped below the new length. -/
def rescale (b : Build) (pos oldLen newLen : Nat) : Nat :=
  min (pos * newLen / oldLen) (newLen * 2 ^ b.fb - 1)

/-- `srInv` (R161). -/
def srInverse (p : Prec) (sr : F) : F := fdiv p (toF p 1) sr

/-- The increment of R169 for length `l`. A NaN product arises only from `f = ±0` (log 10), for which R170 states
`INC = 0`; of an infinite product the spec states no floor, so that value is free, under the clamp R169 states. -/
def incOf (b : Build) (f : F) (l : Nat) (sr : F) : Nat :=
  match unpack b.prec (fmul b.prec (fmul b.prec f (toF b.prec l)) (srInverse b.prec sr)) with
  | .fin false m e => min (floorScaled m (e + b.fb)) (l * 2 ^ b.fb)
  | .inf false => min (Config.infiniteInc f l sr) (l * 2 ^ b.fb)
  | _ => 0

/-- The registers of a channel that selects slot `t` (R166 to R168). -/
def selectSlot (b : Build) (slots : List SlotDesc) (r : Channel) (t : Nat) : Channel :=
  let d := slotOf slots t
  { r with
    bottom := if t = r.setbase.toNat then 0#64 else (slotOf slots (t - 1)).maxf
    top := d.maxf
    pos := if r.valid then posWord b (rescale b r.pos.toNat r.curlen.toNat d.len.toNat) else r.pos
    sel := BitVec.ofNat 8 t
    curlen := d.len
    curkern := kernelOf d.kern
    valid := true }

/-- `FREQ` and `INC` of a channel once its table is settled (R169, R170). -/
def retune (b : Build) (f sr : F) (r : Channel) : Channel :=
  { r with freq := f, inc := incWord b (incOf b f r.curlen.toNat sr) }

/-- The checks of `OSC.SETF` on one channel, in order (R170): those of the selected slot only when the window test
fails (R168). -/
def checkSetf (b : Build) (slots : List SlotDesc) (sr f : F) (r : Channel) : Option FaultCode :=
  let d := slotOf slots (scan b.prec slots r f)
  let selects := !inWindow b.prec r f
  firstFault [(badSr b.prec sr, .badSr), (badFreq b.prec f sr, .freqRange), (badSet b r, .badSet),
    (selects && badLen b d, .badLen), (selects && badKern d, .badKern)]

/-- The new registers of a channel whose frequency is set (R170). -/
def setf (b : Build) (slots : List SlotDesc) (sr f : F) (r : Channel) : Channel :=
  retune b f sr (if inWindow b.prec r f then r else selectSlot b slots r (scan b.prec slots r f))

/-! ## Playback (R171, R180 to R185) -/

/-- `Lfx`, the table length in phase units. -/
def lengthFx (b : Build) (r : Channel) : Nat := r.curlen.toNat * 2 ^ b.fb

/-- `advPos(c)` (R171): one exact addition, at most one subtraction. -/
def advPos (b : Build) (r : Channel) : Nat :=
  let q := r.pos.toNat + r.inc.toNat
  if lengthFx b r ≤ q then q - lengthFx b r else q

/-- `fixedFrac(p)` (R181). -/
def fixedFrac (b : Build) (pos : Nat) : F := roundF b.prec false (pos % 2 ^ b.fb) (-(b.fb : Int)) false

/-- The constant `0.5` (R184), exact in both formats. -/
def fHalf (p : Prec) : F := roundF p false 1 (-1) false

/-- The constant `1.5` (R184). -/
def fThreeHalves (p : Prec) : F := roundF p false 3 (-1) false

/-- The constant `2.5` (R184). -/
def fFiveHalves (p : Prec) : F := roundF p false 5 (-1) false

/-- The linear kernel (R183). -/
def kernelLinear (p : Prec) (y0 y1 x : F) : F := fadd p y0 (fmul p x (fsub p y1 y0))

/-- The hermite kernel (R184). -/
def kernelHermite (p : Prec) (ym1 y0 y1 y2 x : F) : F :=
  let c0 := y0
  let c1 := fmul p (fHalf p) (fsub p y1 ym1)
  let c2 := fsub p (fadd p (fsub p ym1 (fmul p (fFiveHalves p) y0)) (fmul p (toF p 2) y1)) (fmul p (fHalf p) y2)
  let c3 := fadd p (fmul p (fHalf p) (fsub p y2 ym1)) (fmul p (fThreeHalves p) (fsub p y0 y1))
  fadd p (fmul p (fadd p (fmul p (fadd p (fmul p c3 x) c2) x) c1) x) c0

/-- The cubic kernel (R185). -/
def kernelCubic (p : Prec) (ym1 y0 y1 y2 x : F) : F :=
  let a0 := fadd p (fsub p (fsub p y2 y1) ym1) y0
  let a1 := fsub p (fsub p ym1 y0) a0
  let a2 := fsub p y1 ym1
  let a3 := y0
  fadd p (fmul p (fadd p (fmul p (fadd p (fmul p a0 x) a1) x) a2) x) a3

/-- Kernel dispatch (R182). -/
def kernelOn (p : Prec) (k : Kernel) (ym1 y0 y1 y2 x : F) : F :=
  match k with
  | .linear => kernelLinear p y0 y1 x
  | .hermite => kernelHermite p ym1 y0 y1 y2 x
  | .cubic => kernelCubic p ym1 y0 y1 y2 x

/-- `interp(k, t, L, p)` (R180): the neighbours wrap around the period. -/
def State.interp (s : State) (k : Kernel) (t l pos : Nat) : F :=
  let idx := pos / 2 ^ s.build.fb
  kernelOn s.build.prec k (s.tabRead t ((idx + l - 1) % l)) (s.tabRead t (idx % l))
    (s.tabRead t ((idx + 1) % l)) (s.tabRead t ((idx + 2) % l)) (fixedFrac s.build pos)

/-- The value of channel `c`'s selected table at a position. -/
def State.sampleAt (s : State) (c : Chan) (pos : Nat) : F :=
  s.interp (s.chan c).curkern (s.chan c).sel.toNat (s.chan c).curlen.toNat pos

/-- The position becomes `pos` and the current value is recomputed there: what `OSC.ADV` and `OSC.RETRIG` write
(R172, R173). -/
def State.moveTo (s : State) (c : Chan) (pos : Nat) : State :=
  s.setChan c { s.chan c with pos := posWord s.build pos, cur := s.sampleAt c pos }

/-- The check of `OSC.ADV` and `OSC.RETRIG` (R172, R173). -/
def checkTable (c : Chan) (s : State) : Option FaultCode := firstFault [(!(s.chan c).valid, .noTable)]

/-- `OSC.SETF Cc` (R170). -/
def execOscSetf (c : Chan) (s : State) : Result :=
  command (encode (.oscSetf c)) (fun s => checkSetf s.build s.slots s.sr s.farg (s.chan c))
    (fun s => s.setChan c (setf s.build s.slots s.sr s.farg (s.chan c))) s

/-- `OSC.ADV Cc` (R172). -/
def execOscAdv (c : Chan) (s : State) : Result :=
  command (encode (.oscAdv c)) (checkTable c)
    (fun s => (s.moveTo c (advPos s.build (s.chan c))).emit (chanTag c) (s.sampleAt c (advPos s.build (s.chan c)))) s

/-- `OSC.RETRIG Cc` (R173). -/
def execOscRetrig (c : Chan) (s : State) : Result :=
  command (encode (.oscRetrig c)) (checkTable c) (fun s => s.moveTo c 0) s

end Sys2Proof.Machine
end

