-- ==== Sys2Proof/Machine/Output.lean ====
section
/-! DEFINITION. Morph and output stage, control commands (spec/43_output_control.md): NOP, MORPH.SETF and MORPH.ADV. -/

namespace Sys2Proof.Machine

/-- The checks of `MORPH.SETF` (R201): those of `OSC.SETF` for both channels, the lowest code of either. -/
def checkMorphSetf (s : State) : Option FaultCode :=
  lowerFault (checkSetf s.build s.slots s.sr s.farg s.ch0) (checkSetf s.build s.slots s.sr s.farg s.ch1)

/-- The check of `MORPH.ADV` (R203). -/
def checkMorphAdv (s : State) : Option FaultCode := firstFault [(!s.ch0.valid || !s.ch1.valid, .noTable)]

/-- `blend(p, a, b)` (R202). -/
def blend (p : Prec) (x a b : F) : F := fadd p (fmul p (fsub p (toF p 1) x) a) (fmul p x b)

/-- What `MORPH.ADV` writes and emits (R203). -/
def morphAdvance (s : State) : State :=
  let p0 := advPos s.build s.ch0
  let p1 := advPos s.build s.ch1
  let v0 := s.sampleAt .c0 p0
  let v1 := s.sampleAt .c1 p1
  let m := blend s.build.prec s.morphP v0 v1
  let t := { s with
    ch0 := { s.ch0 with pos := posWord s.build p0, cur := v0 }
    ch1 := { s.ch1 with pos := posWord s.build p1, cur := v1 }
    morphOut := m }
  t.emit .morph m

/-- `NOP` (R200). -/
def execNop (s : State) : Result := command (encode .nop) (fun _ => none) id s

/-- `MORPH.SETF` (R201). -/
def execMorphSetf (s : State) : Result :=
  command (encode .morphSetf) checkMorphSetf
    (fun s => { s with
      ch0 := setf s.build s.slots s.sr s.farg s.ch0
      ch1 := setf s.build s.slots s.sr s.farg s.ch1 }) s

/-- `MORPH.ADV` (R203). -/
def execMorphAdv (s : State) : Result := command (encode .morphAdv) checkMorphAdv morphAdvance s

end Sys2Proof.Machine
end

