-- ==== Sys2Proof/Machine/Dispatch.lean ====
section
/-! DEFINITION. One arm per command (spec/30_encoding.md R93): its meaning. -/

namespace Sys2Proof.Machine

def exec (i : Instr) (s : State) : Host.Outcome State Fault Refusal :=
  match i with
  | .nop => Sys2Proof.Machine.execNop s
  | .fftFwd bs bd => Sys2Proof.Machine.execFftFwd bs bd s
  | .fftFwdr bs bd => Sys2Proof.Machine.execFftFwdr bs bd s
  | .fftInv bs bd => Sys2Proof.Machine.execFftInv bs bd s
  | .fftInvr bs slot => Sys2Proof.Machine.execFftInvr bs slot s
  | .mask bd => Sys2Proof.Machine.execMask bd s
  | .build bs bd slot => Sys2Proof.Machine.execBuild bs bd slot s
  | .oscSetf ch => Sys2Proof.Machine.execOscSetf ch s
  | .oscAdv ch => Sys2Proof.Machine.execOscAdv ch s
  | .oscRetrig ch => Sys2Proof.Machine.execOscRetrig ch s
  | .morphSetf => Sys2Proof.Machine.execMorphSetf s
  | .morphAdv => Sys2Proof.Machine.execMorphAdv s

end Sys2Proof.Machine
end

