-- ==== Sys2Proof/Machine/HostPort.lean ====
section
/-! DEFINITION. The host port and the engine's turn (spec/20_memory.md R61, R72; spec/60_exceptions.md R224; spec/70_reset_and_hazards.md R270, R272). -/

namespace Sys2Proof.Machine

/-- A host write to `CMD` (R224): ignored after a fault, `CMD_BUSY` while a command is in flight, `ILLEGAL_CMD` when
the word does not decode; otherwise the command is issued. -/
def onCmdWrite (v : Word) (s : State) : Result :=
  let w : Word32 := v.setWidth 32
  if s.faulted then .next s
  else if s.busy then .next (s.raise .cmdBusy (w.setWidth 64))
  else match decode w with
    | .error _ => .next (s.raise .illegalCmd (w.setWidth 64))
    | .ok i => exec i s

/-- A host write. While `RST` is asserted it changes nothing: every register holds its reset value (R260; DEDUCED, log 5),
and a write to a memory, whose contents are unspecified (R261), is dropped (DESIGN CHOICE, log 5). Otherwise (R224, R272): while a command is in
flight only `CMD`, `CTRL` and `STATUS` are written, any other write is dropped and raises `HOST_BUSY`. -/
def hostWrite (a : Word32) (v : Word) (s : State) : Result :=
  if s.rst then .next s
  else match locate s.build a with
  | .cmd => onCmdWrite v s
  | .ctrl => .next (s.writeLoc .ctrl v)
  | .status => .next (s.writeLoc .status v)
  | l => if s.busy then .next (s.raise .hostBusy (a.setWidth 64)) else .next (s.writeLoc l v)

/-- The locations whose reads are exact while a command is in flight (R72, R272). -/
def Loc.stableWhileBusy : Loc → Bool
  | .id => true
  | .cfg => true
  | .ctrl => true
  | .status => true
  | _ => false

/-- Records what a host read returned (log 7). -/
def State.answer (s : State) (a : Word32) (v : Word) : State := { s with reads := s.reads ++ [⟨a, v⟩] }

/-- A host read (R65, R68): the word at the address, with no side effect; while a command is in flight any value,
but for `ID`, `CFG`, `CTRL` and `STATUS` (R72, log 6). -/
def hostRead (a : Word32) (s : State) : State :=
  let l := locate s.build a
  if s.busy && !l.stableWhileBusy then
    { s.answer a (Config.busyRead s.draws) with draws := s.draws + 1 }
  else s.answer a (s.readLoc l)

/-- One host access (R61): served when it is 64 bits wide and aligned, refused otherwise. -/
def hostAccess (x : Access) (s : State) : Result :=
  if x.served then
    match x.op with
    | .read => .next (hostRead x.addr s)
    | .write v => hostWrite x.addr v s
  else .refused .busError

/-- The engine's turn (R270): the command in flight completes; with none in flight the engine is idle (R238). -/
def engineTurn (s : State) : Result :=
  match s.inflight with
  | none => .next s
  | some w =>
    match decode w with
    | .ok i => exec i s
    | .error _ => .fault .inflightCorrupt

/-- One poll of the host's `WAIT` (R97, R99): while a command is in flight the engine moves and the host polls again;
otherwise the read of `STATUS` returns `BUSY = 0` and the host goes on with the turns `rest` (log 2). -/
def waitTurn (rest : List Turn) (s : State) : Result :=
  if s.busy then engineTurn s else .next (hostRead 0x018#32 { s with turns := rest })

/-- The address of `CMD` (R28, R99). -/
def cmdAddr : Word32 := 0x020#32

/-- The host access that issues a command word (R28, R96). -/
def issueTurn (w : Word32) : Turn := .host { bits := 64, addr := cmdAddr, op := .write (w.setWidth 64) }

end Sys2Proof.Machine
end

