-- ==== Sys2Proof/Machine/Step.lean ====
section
/-! DEFINITION. One step of WTCORE: the next move of the host, of the engine or of the reset input (spec/70_reset_and_hazards.md R270). -/

namespace Sys2Proof.Machine

/-- One step: the first of the turns to come. With no turn left the host does nothing, and the engine completes the
command in flight, if there is one (R281). -/
def step (s : State) : Host.Outcome State Fault Refusal :=
  match s.turns with
  | [] => engineTurn s
  | .host x :: rest => hostAccess x { s with turns := rest }
  | .wait :: rest => waitTurn rest s
  | .engine :: rest => engineTurn { s with turns := rest }
  | .rst cells scr :: rest => .next (State.resetBy { s with turns := rest } cells scr)
  | .release :: rest => .next (State.releaseRst { s with turns := rest })

/-- `s` with the command word `w` next at the host port (log 3): the host's next move writes it to `CMD`, and the
engine is idle and fault-free with `RST` released, so that the very next step decodes and runs it. -/
def State.withFetchWord (s : State) (nbits w : Nat) : State :=
  { s with
    inflight := none
    fault := none
    rst := false
    turns := issueTurn (BitVec.ofNat 32 (w % 2 ^ nbits)) :: s.turns }

end Sys2Proof.Machine
end

