-- ==== Sys2Proof/Safety.lean ====
section
/-! DEFINITION. What claims about WTCORE are stated in: the operand fault of a command, and the states a run can be in (spec/10_state.md R53). -/

namespace Sys2Proof.Machine

/-- The lowest code among a command's operand checks that fail, if any (R222, R229). -/
def operandFault (i : Instr) (s : State) : Option FaultCode :=
  match i with
  | .nop => none
  | .fftFwd bs bd => checkFft bs bd
  | .fftFwdr bs bd => checkFft bs bd
  | .fftInv bs bd => checkFft bs bd
  | .fftInvr bs slot => checkInvr s.build bs slot
  | .mask bd => checkMask bd s
  | .build bs bd slot => checkBuild bs bd slot s
  | .oscSetf ch => checkSetf s.build s.slots s.sr s.farg (s.chan ch)
  | .oscAdv ch => checkTable ch s
  | .oscRetrig ch => checkTable ch s
  | .morphSetf => checkMorphSetf s
  | .morphAdv => checkMorphAdv s

/-- A word is laid out as R34 says: for binary32 its bits 63:32 are zero. -/
def Laid (p : Prec) (v : Word) : Prop := layoutF p v = v

/-- The invariants of R53 on one channel, and the layout of its real values (R34). -/
structure Channel.Sound (b : Build) (r : Channel) : Prop where
  unselected : r.valid = false → r.pos = 0#64 ∧ r.inc = 0#64 ∧ r.cur = 0#64 ∧ r.bottom = 0#64 ∧ r.top = 0#64
  selected : r.valid = true →
    1 ≤ r.curlen.toNat ∧ r.curlen.toNat ≤ b.lmax ∧ r.sel.toNat < b.tslots ∧ r.pos.toNat < lengthFx b r
  inc_le : r.inc.toNat ≤ lengthFx b r
  laid : Laid b.prec r.freq ∧ Laid b.prec r.bottom ∧ Laid b.prec r.top ∧ Laid b.prec r.cur

/-- Every register and every descriptor holds its reset value (R55, R260), whatever the memories and `SCR` hold. -/
def State.AtReset (s : State) : Prop :=
  s = { State.afterReset s.build s.mem s.scr with
        rst := s.rst, out := s.out, reads := s.reads, draws := s.draws, turns := s.turns }

/-- The states a run can be in: a legal build (R9); memory in its canonical form; one descriptor per slot (R49);
R53 on both channels; real registers laid out as R34 says; `DONE` clear while busy and `FINFO` clear while there is
no fault (R27, R29); a command in flight that decodes and passes its checks (R224, R228); and every register at its
reset value while `RST` is asserted (R260). -/
structure State.Sound (s : State) : Prop where
  legal : s.build.Legal
  mem_wf : s.mem.wf
  slots_length : s.slots.length = s.build.tslots
  slots_laid : ∀ d ∈ s.slots, Laid s.build.prec d.maxf
  chan0 : s.ch0.Sound s.build
  chan1 : s.ch1.Sound s.build
  regs_laid : Laid s.build.prec s.farg ∧ Laid s.build.prec s.sr ∧ Laid s.build.prec s.morphP ∧ Laid s.build.prec s.morphOut
  scr_length : s.scr.length = s.build.n
  busy_not_done : s.busy = true → s.done = false
  info_of_fault : s.fault = none → s.finfo = 0#64
  inflight_checked : ∀ w, s.inflight = some w → ∃ i, decode w = .ok i ∧ operandFault i s = none
  held : s.rst = true → s.AtReset

/-! ## Words that claims are written in -/

/-- The real number a finite pattern stands for; 0 of anything else. -/
def realOf (p : Prec) (v : F) : ℚ :=
  match unpack p v with
  | .fin neg m e => (if neg then -1 else 1) * ((m : ℚ) * (2 : ℚ) ^ e)
  | _ => 0

/-- `v` is a nearest `F` value of `x`, and of two equally near ones the even one (R14): no finite value is nearer, and
one as near is the same number unless `v` has an even pattern. -/
def NearestEven (p : Prec) (x : ℚ) (v : F) : Prop :=
  isFinite p v = true ∧ ∀ y, isFinite p y = true →
    |realOf p v - x| ≤ |realOf p y - x| ∧
    (|realOf p v - x| = |realOf p y - x| → realOf p y = realOf p v ∨ fmag p v % 2 = 0)

/-- `NearestEven` of a real number. -/
def NearestEvenReal (p : Prec) (x : ℝ) (v : F) : Prop :=
  isFinite p v = true ∧ ∀ y, isFinite p y = true →
    |(realOf p v : ℝ) - x| ≤ |(realOf p y : ℝ) - x| ∧
    (|(realOf p v : ℝ) - x| = |(realOf p y : ℝ) - x| → realOf p y = realOf p v ∨ fmag p v % 2 = 0)

/-- The least magnitude that rounds to infinity: half a unit above the greatest finite value (R14). -/
def overflowBound (p : Prec) : ℚ :=
  ((2 ^ (p.digits + 1) - 1 : ℕ) : ℚ) * (2 : ℚ) ^ (fmtExpMin p + ((fmtExpMax p - 3 : ℕ) : Int))

/-- The pattern is `+0.0` or `-0.0`. -/
def IsZero (p : Prec) (v : F) : Prop := fmag p v = 0

/-- The pattern is an infinity of either sign. -/
def IsInf (p : Prec) (v : F) : Prop := fmag p v = fmtInf p

/-- A host read at the address `a` answers `v` and changes nothing else. -/
def State.ReadsAt (s : State) (a : Nat) (v : Word) : Prop :=
  ∀ x : Word32, x.toNat = a → hostRead x s = s.answer x v

/-- A host write of `v` at the address `a` leaves the state `t`. -/
def State.WritesAt (s : State) (a : Nat) (v : Word) (t : State) : Prop :=
  ∀ x : Word32, x.toNat = a → hostWrite x v s = .next t

/-- `CB(c)`, the address of a channel's block (R35). -/
def chanBase : Chan → Nat
  | .c0 => 0x100
  | .c1 => 0x180

/-- The addresses at which R62 to R65 and R35 put nothing: the gaps of region 0, the buffers from entry `N` on, table
memory and descriptors from slot `TSLOTS` on, word 3 of a descriptor, and the regions from 6 on. -/
def Absent (b : Build) (a : Nat) : Prop :=
  (0x050 ≤ a ∧ a < 0x100) ∨ (0x158 ≤ a ∧ a < 0x180) ∨ (0x1D8 ≤ a ∧ a < 0x10000000) ∨
  (0x10000000 + 16 * b.n ≤ a ∧ a < 0x20000000) ∨ (0x20000000 + 16 * b.n ≤ a ∧ a < 0x30000000) ∨
  (0x30000000 + 16 * b.n ≤ a ∧ a < 0x40000000) ∨ (0x40000000 + b.tslots * (8 * b.lmax) ≤ a ∧ a < 0x50000000) ∨
  (∃ t, t < b.tslots ∧ a = 0x50000000 + 32 * t + 24) ∨ (0x50000000 + 32 * b.tslots ≤ a ∧ a < 0x60000000) ∨
  0x60000000 ≤ a

/-- The addresses of registers the host can only read: `ID`, `CFG`, `FINFO`, `MORPH_OUT`, and all of a channel's block
but `SETBASE` and `SETCNT` (R24, R25, R29, R33, R35). -/
def ReadOnly (a : Nat) : Prop :=
  a = 0x000 ∨ a = 0x008 ∨ a = 0x028 ∨ a = 0x048 ∨ ∃ c k, 2 ≤ k ∧ k ≤ 10 ∧ a = chanBase c + 8 * k

/-- The bytes of entries `i` to `j - 1` of a buffer (R63). -/
def InEntries (f : BitVec 2) (i j a : Nat) : Prop := bufAddr f i ≤ a ∧ a < bufAddr f j

/-- The bytes of the first `n` samples of a slot (R64). -/
def InSamples (b : Build) (t n a : Nat) : Prop := tabAddr b t 0 ≤ a ∧ a < tabAddr b t n

/-- A fault applies to a command in a state: the causes of R221, with the commands that raise each. -/
def Applies (i : Instr) (s : State) (c : FaultCode) : Prop :=
  match c with
  | .badBuffer =>
    (match i with
      | .fftFwd bs bd | .fftFwdr bs bd | .fftInv bs bd => bs = 3#2 ∨ bd = 3#2
      | .build bs bd _ => bs = 3#2 ∨ bd = 3#2
      | .fftInvr bs _ => bs = 3#2
      | .mask bd => bd = 3#2
      | _ => False)
  | .badSlot =>
    (match i with
      | .fftInvr _ slot | .build _ _ slot => s.build.tslots ≤ slot.toNat
      | _ => False)
  | .aliased =>
    (match i with
      | .fftFwd bs bd | .fftFwdr bs bd | .fftInv bs bd => bs = bd
      | .build bs bd _ => bs = bd
      | _ => False)
  | .badSr =>
    (match i with
      | .mask _ | .build _ _ _ | .oscSetf _ | .morphSetf =>
        isFinite s.build.prec s.sr = false ∨ fgt s.build.prec s.sr (toF s.build.prec 0) = false
      | _ => False)
  | .badFarg =>
    (match i with
      | .mask _ | .build _ _ _ => fgt s.build.prec s.farg (toF s.build.prec 0) = false
      | _ => False)
  | .freqRange =>
    (match i with
      | .oscSetf _ | .morphSetf =>
        isNaN s.build.prec s.farg = true ∨ flt s.build.prec s.farg (toF s.build.prec 0) = true ∨
          fge s.build.prec s.farg s.sr = true
      | _ => False)
  | .badSet =>
    (match i with
      | .oscSetf ch => badSet s.build (s.chan ch) = true
      | .morphSetf => badSet s.build s.ch0 = true ∨ badSet s.build s.ch1 = true
      | _ => False)
  | .badLen =>
    (match i with
      | .oscSetf ch => SelectsSlot (s.chan ch) fun d => d.len.toNat = 0 ∨ s.build.lmax < d.len.toNat
      | .morphSetf =>
        (SelectsSlot s.ch0 fun d => d.len.toNat = 0 ∨ s.build.lmax < d.len.toNat) ∨
          SelectsSlot s.ch1 fun d => d.len.toNat = 0 ∨ s.build.lmax < d.len.toNat
      | _ => False)
  | .badKern =>
    (match i with
      | .oscSetf ch => SelectsSlot (s.chan ch) fun d => d.kern = 3#2
      | .morphSetf => (SelectsSlot s.ch0 fun d => d.kern = 3#2) ∨ SelectsSlot s.ch1 fun d => d.kern = 3#2
      | _ => False)
  | .noTable =>
    (match i with
      | .oscAdv ch | .oscRetrig ch => (s.chan ch).valid = false
      | .morphAdv => s.ch0.valid = false ∨ s.ch1.valid = false
      | _ => False)
  | .cmdBusy | .illegalCmd | .hostBusy => False
where
  /-- The channel selects a slot at this frequency (R164, R165), and the slot has the property. -/
  SelectsSlot (r : Channel) (q : SlotDesc → Prop) : Prop :=
    inWindow s.build.prec r s.farg = false ∧ q (s.slot (scan s.build.prec s.slots r s.farg))

/-- One `OSC.ADV` of channel `c` from acceptance to completion, nothing else moving between. -/
def advanceOnce (c : Chan) (s : State) : Result :=
  exec (.oscAdv c) { s with inflight := some (encode (.oscAdv c)) }

/-- `k` such commands in a row (R174). -/
def advanceTimes (c : Chan) : Nat → State → Result
  | 0, s => .next s
  | k + 1, s =>
    match advanceOnce c s with
    | .next t => advanceTimes c k t
    | .fault f => .fault f
    | .refused r => .refused r

/-! ## R111 to R117 as they are written: loops over an array, in place -/

/-- `WS(dir, s)` of R115. -/
def wsOf (p : Prec) (dir : Dir) (s : Nat) : Cplx :=
  match dir with
  | .fwd => ⟨(twrom p s).re, fneg p (twrom p s).im⟩
  | .inv => ⟨(twrom p s).re, (twrom p s).im⟩

/-- The product of R111. -/
def productOf (p : Prec) (x y : Cplx) : Cplx :=
  ⟨fsub p (fmul p x.re y.re) (fmul p x.im y.im), fadd p (fmul p x.re y.im) (fmul p x.im y.re)⟩

/-- One butterfly of R117 on entries `i` and `j`, with the sum and the difference of R111. -/
def butterflyAt (p : Prec) (w : Cplx) (y : Nat → Cplx) (i j : Nat) : Nat → Cplx :=
  let a := y i
  let t := productOf p w (y j)
  fun x =>
    if x = i then ⟨fadd p a.re t.re, fadd p a.im t.im⟩
    else if x = j then ⟨fsub p a.re t.re, fsub p a.im t.im⟩
    else y x

/-- The `j` loop of R117 for the group at `k`, from `w = (+1.0, +0.0)`. -/
def groupLoop (p : Prec) (ws : Cplx) (m k : Nat) (y : Nat → Cplx) : Nat → Cplx :=
  ((List.range m).foldl
    (fun (st : (Nat → Cplx) × Cplx) j => (butterflyAt p st.2 st.1 (k + j) (k + j + m), productOf p st.2 ws))
    (y, ⟨toF p 1, 0#64⟩)).1

/-- The `k` and `s` loops of R117, from the permuted and normalised array of R116, `NORM` as R112 computes it. -/
def loopTransform (b : Build) (dir : Dir) (x : Nat → Cplx) : Nat → Cplx :=
  let nrm := fdiv b.prec (toF b.prec 1) (fsqrt b.prec (toF b.prec (2 ^ b.log2n)))
  (List.range b.log2n).foldl
    (fun y s => (List.range (2 ^ b.log2n / (2 * 2 ^ s))).foldl
      (fun y g => groupLoop b.prec (wsOf b.prec dir s) (2 ^ s) (g * (2 * 2 ^ s)) y) y)
    (fun i => ⟨fmul b.prec nrm (x (rev b.log2n i)).re, fmul b.prec nrm (x (rev b.log2n i)).im⟩)

end Sys2Proof.Machine
end

