-- ==== Sys2Proof/Certificates/Slice0/Obligations.lean ====
section
/-! DEFINITION. The statements about WTCORE that are to be proved. Each docstring names the rule of spec/ it formalises. -/

open Sys2Proof Sys2Proof.Machine

/-! ## Command words -/

/-- Every command is read back from its word, with every field at every value (30_encoding.md R93, R95). -/
def Obligations.DecodeOfEncodeIsTheCommand : Prop := ∀ i : Instr, decode (encode i) = .ok i

/-- A word that decodes is the word of the command it decodes to: no two words name one command (R93, R94). -/
def Obligations.EncodeOfDecodeIsTheWord : Prop := ∀ (w : Word32) (i : Instr), decode w = .ok i → encode i = w

/-- R95 with the rows of R93 written out: a word that matches a row decodes to its command with the fields of the word,
a word that matches none is illegal, and at most one row matches any word. -/
def Obligations.DecodeFollowsTheTable : Prop := ∀ w : Word32,
  (w &&& 0xFFFFFFFF#32 = 0x00000000#32 → decode w = .ok .nop) ∧
  (w &&& 0xFFFFF0FF#32 = 0x00000001#32 → decode w = .ok (.fftFwd (w.extractLsb' 8 2) (w.extractLsb' 10 2))) ∧
  (w &&& 0xFFFFF0FF#32 = 0x00000002#32 → decode w = .ok (.fftFwdr (w.extractLsb' 8 2) (w.extractLsb' 10 2))) ∧
  (w &&& 0xFFFFF0FF#32 = 0x00000003#32 → decode w = .ok (.fftInv (w.extractLsb' 8 2) (w.extractLsb' 10 2))) ∧
  (w &&& 0xFF00FCFF#32 = 0x00000004#32 → decode w = .ok (.fftInvr (w.extractLsb' 8 2) (w.extractLsb' 16 8))) ∧
  (w &&& 0xFFFFF3FF#32 = 0x00000005#32 → decode w = .ok (.mask (w.extractLsb' 10 2))) ∧
  (w &&& 0xFF00F0FF#32 = 0x00000006#32 →
    decode w = .ok (.build (w.extractLsb' 8 2) (w.extractLsb' 10 2) (w.extractLsb' 16 8))) ∧
  (w &&& 0xFFFFEFFF#32 = 0x00000010#32 → decode w = .ok (.oscSetf (if w.getLsbD 12 then .c1 else .c0))) ∧
  (w &&& 0xFFFFEFFF#32 = 0x00000011#32 → decode w = .ok (.oscAdv (if w.getLsbD 12 then .c1 else .c0))) ∧
  (w &&& 0xFFFFEFFF#32 = 0x00000012#32 → decode w = .ok (.oscRetrig (if w.getLsbD 12 then .c1 else .c0))) ∧
  (w &&& 0xFFFFFFFF#32 = 0x00000013#32 → decode w = .ok .morphSetf) ∧
  (w &&& 0xFFFFFFFF#32 = 0x00000014#32 → decode w = .ok .morphAdv) ∧
  ((∀ r ∈ rows, w &&& r.mask ≠ r.value) → ∃ e, decode w = .error e) ∧
  (rows.filter fun r => (w &&& r.mask) == r.value).length ≤ 1

/-- The words of 95_test_vectors.md V-DEC-1 decode as that table says. -/
def Obligations.ListedWordsDecodeAsListed : Prop :=
  decode 0x00000000#32 = .ok .nop ∧ decode 0x00000402#32 = .ok (.fftFwdr 0#2 1#2) ∧
  decode 0x00000903#32 = .ok (.fftInv 1#2 2#2) ∧ decode 0x00000104#32 = .ok (.fftInvr 1#2 0#8) ∧
  decode 0x00030906#32 = .ok (.build 1#2 2#2 3#8) ∧ decode 0x00001010#32 = .ok (.oscSetf .c1) ∧
  decode 0x00000007#32 = .error .unassignedOpcode ∧ decode 0x00002000#32 = .error .nonzeroUnusedBits ∧
  decode 0x00000100#32 = .error .nonzeroUnusedBits ∧ decode 0x00000015#32 = .error .unassignedOpcode ∧
  decode 0x01000010#32 = .error .nonzeroUnusedBits ∧ decode 0x00010010#32 = .error .nonzeroUnusedBits

/-- R94: a word whose opcode is unassigned, or with a bit set outside the fields its opcode uses, is illegal, and writing
it to `CMD` of an idle, fault-free engine out of reset raises `ILLEGAL_CMD` and changes nothing else. -/
def Obligations.IllegalWordRaisesIllegalCmd : Prop := ∀ (w : Word32) (s : State),
  (let op := w.extractLsb' 0 8
   (op.toNat ∈ [0x00, 0x13, 0x14] ∧ w &&& 0xFFFFFF00#32 ≠ 0#32) ∨
   (op.toNat ∈ [0x01, 0x02, 0x03] ∧ w &&& 0xFFFFF000#32 ≠ 0#32) ∨
   (op.toNat = 0x04 ∧ w &&& 0xFF00FC00#32 ≠ 0#32) ∨
   (op.toNat = 0x05 ∧ w &&& 0xFFFFF300#32 ≠ 0#32) ∨
   (op.toNat = 0x06 ∧ w &&& 0xFF00F000#32 ≠ 0#32) ∨
   (op.toNat ∈ [0x10, 0x11, 0x12] ∧ w &&& 0xFFFFEF00#32 ≠ 0#32) ∨
   (0x07 ≤ op.toNat ∧ op.toNat ≤ 0x0F) ∨ (0x15 ≤ op.toNat ∧ op.toNat ≤ 0xFF)) →
  s.rst = false → s.fault = none → s.inflight = none →
  (∃ e, decode w = .error e) ∧
  hostWrite 0x020#32 (w.setWidth 64) s = .next { s with fault := some .illegalCmd, finfo := w.setWidth 64 }

/-! ## Registers and the address map -/

/-- R24 and R25: `ID` and `CFG` read their constants, busy or not, for every legal build, and a host write leaves an
idle machine as it was. -/
def Obligations.ConstantRegistersReadTheirConstants : Prop := ∀ s : State, s.build.Legal →
  hostRead 0x000#32 s = s.answer 0x000#32 0x0000000057544331#64 ∧
  hostRead 0x008#32 s = s.answer 0x008#32 (cfgWord s.build) ∧
  (let v := cfgWord s.build
   (v.extractLsb' 0 5).toNat = s.build.log2n ∧ v.getLsbD 5 = (s.build.prec == .binary64) ∧
   v.extractLsb' 6 2 = 0#2 ∧ (v.extractLsb' 8 8).toNat = s.build.tslots - 1 ∧
   (v.extractLsb' 16 5).toNat = s.build.log2lmax ∧ v.extractLsb' 21 3 = 0#3 ∧
   (v.extractLsb' 24 6).toNat = s.build.fb ∧ v.extractLsb' 30 34 = 0#34) ∧
  ∀ v, s.inflight = none → hostWrite 0x000#32 v s = .next s ∧ hostWrite 0x008#32 v s = .next s

/-- R27: the bits `STATUS` reads, busy or not, with the codes of R221, and what a write of `STATUS` changes out of reset:
`DONE` is cleared by a 1 and kept by a 0, every other bit ignores the write. -/
def Obligations.StatusBitsAndWriteOneToClear : Prop := ∀ s : State,
  hostRead 0x018#32 s = s.answer 0x018#32 s.statusWord ∧
  s.statusWord.getLsbD 0 = s.inflight.isSome ∧ s.statusWord.getLsbD 1 = s.done ∧
  s.statusWord.getLsbD 2 = s.fault.isSome ∧ s.statusWord.extractLsb' 3 5 = 0#5 ∧
  s.statusWord.extractLsb' 8 8 = (match s.fault with
    | none => 0x00#8
    | some .cmdBusy => 0x01#8 | some .illegalCmd => 0x02#8 | some .badBuffer => 0x03#8 | some .badSlot => 0x04#8
    | some .aliased => 0x05#8 | some .badSr => 0x06#8 | some .badFarg => 0x07#8 | some .freqRange => 0x08#8
    | some .badSet => 0x09#8 | some .badLen => 0x0A#8 | some .badKern => 0x0B#8 | some .noTable => 0x0C#8
    | some .hostBusy => 0x0D#8) ∧
  s.statusWord.extractLsb' 16 48 = 0#48 ∧
  ∀ v : Word, s.rst = false → hostWrite 0x018#32 v s = .next { s with done := if v.getLsbD 1 then false else s.done }

/-- What a host write leaves, address by address, of an idle machine out of reset (R23, R26, R30 to R37, R49, R62 to R67):
`CTRL`, `FARG`, `SR`, `MORPH_P` and the descriptor fields take their own bits of the value; an F word of a buffer or of
table memory takes the pattern, as R34 lays it out and R67 orders its bytes, and no other byte changes; read-only registers
and addresses that hold nothing ignore it. Whatever the address, reading it back gives what it keeps. -/
def Obligations.WriteReadsBackWhatTheLocationKeeps : Prop := ∀ (s : State) (v : Word),
  s.rst = false → s.inflight = none → s.slots.length = s.build.tslots →
  (∀ a : Word32, a.toNat % 8 = 0 → a ≠ 0x020#32 → a ≠ 0x018#32 →
    ∃ t, hostWrite a v s = .next t ∧
      t.readLoc (locate s.build a) =
        match locate s.build a with
        | .farg | .sr | .morphP | .fword _ | .slot _ .maxf => layoutF s.build.prec v
        | .ctrl => (v.setWidth 2).setWidth 64
        | .chan _ .setbase => (v.setWidth 8).setWidth 64
        | .chan _ .setcnt => (v.setWidth 9).setWidth 64
        | .slot _ .len => (v.setWidth 18).setWidth 64
        | .slot _ .kern => (v.setWidth 2).setWidth 64
        | l => s.readLoc l) ∧
  (s.build.Legal →
    let w := layoutF s.build.prec v
    let storesWord := fun (a : Nat) => ∃ t, s.WritesAt a v t ∧ t = { s with mem := t.mem } ∧ t.fAt a = w ∧
      (∀ k, k < 8 → t.mem.byteAt (a + k) = w.extractLsb' (8 * k) 8) ∧
      ∀ x, ¬(a ≤ x ∧ x < a + 8) → t.mem.byteAt x = s.mem.byteAt x
    s.WritesAt 0x010 v { s with ctrl := v.extractLsb' 0 2 } ∧ s.WritesAt 0x030 v { s with farg := w } ∧
    s.WritesAt 0x038 v { s with sr := w } ∧ s.WritesAt 0x040 v { s with morphP := w } ∧
    (∀ i, i < s.build.n →
      storesWord (0x10000000 + 16 * i) ∧ storesWord (0x10000000 + 16 * i + 8) ∧
      storesWord (0x20000000 + 16 * i) ∧ storesWord (0x20000000 + 16 * i + 8) ∧
      storesWord (0x30000000 + 16 * i) ∧ storesWord (0x30000000 + 16 * i + 8)) ∧
    (∀ k j, k < s.build.tslots → j < s.build.lmax → storesWord (0x40000000 + k * (8 * s.build.lmax) + 8 * j)) ∧
    (∀ k, k < s.build.tslots →
      s.WritesAt (0x50000000 + 32 * k) v (s.setSlot k { s.slot k with maxf := w }) ∧
      s.WritesAt (0x50000000 + 32 * k + 8) v (s.setSlot k { s.slot k with len := v.extractLsb' 0 18 }) ∧
      s.WritesAt (0x50000000 + 32 * k + 16) v (s.setSlot k { s.slot k with kern := v.extractLsb' 0 2 })) ∧
    ∀ a, ReadOnly a ∨ Absent s.build a → s.WritesAt a v s)

/-- R68: a host write changes only the word written. Every other aligned address reads as before, but for the bounds of
the window that a write of `SETBASE` or `SETCNT` clears (R36, R37). -/
def Obligations.WriteChangesOnlyItsWord : Prop := ∀ (s t : State) (a x : Word32) (v : Word),
  s.inflight = none → a.toNat % 8 = 0 → x.toNat % 8 = 0 → a ≠ 0x020#32 → x ≠ a →
  (∀ c, locate s.build a = .chan c .setbase ∨ locate s.build a = .chan c .setcnt →
    locate s.build x ≠ .chan c .bottom ∧ locate s.build x ≠ .chan c .top) →
  hostWrite a v s = .next t →
  t.build = s.build ∧ t.readLoc (locate s.build x) = s.readLoc (locate s.build x)

/-- R36 and R37: out of reset, a write of `SETBASE` or `SETCNT` sets the field and both bounds of the window to `+0.0`, changes nothing
else, and leaves no frequency inside the window. -/
def Obligations.SetWritesEmptyTheWindow : Prop := ∀ (s : State) (c : Chan) (v : Word),
  s.rst = false → s.inflight = none →
  (hostWrite (match c with | .c0 => 0x100#32 | .c1 => 0x180#32) v s =
    .next (s.setChan c { s.chan c with setbase := v.setWidth 8, bottom := 0#64, top := 0#64 })) ∧
  (hostWrite (match c with | .c0 => 0x108#32 | .c1 => 0x188#32) v s =
    .next (s.setChan c { s.chan c with setcnt := v.setWidth 9, bottom := 0#64, top := 0#64 })) ∧
  ∀ t, (hostWrite (match c with | .c0 => 0x100#32 | .c1 => 0x180#32) v s = .next t ∨
      hostWrite (match c with | .c0 => 0x108#32 | .c1 => 0x188#32) v s = .next t) →
    ∀ f, inWindow t.build.prec (t.chan c) f = false

/-- R61: an access of another width, or at an address that is not a multiple of 8, is refused; every other access is not. -/
def Obligations.OnlyAlignedWordAccessesAreServed : Prop := ∀ (x : Access) (s : State),
  ((x.bits ≠ 64 ∨ x.addr.toNat % 8 ≠ 0) → hostAccess x s = .refused .busError) ∧
  (x.bits = 64 → x.addr.toNat % 8 = 0 → ∀ r, hostAccess x s ≠ .refused r)

/-- R68: no read has a side effect. A read appends its answer to the model's history; only the model's counter of free
values may also move (log 6). What an idle machine answers, address by address (R28 to R49, R62 to R65): every register
but `ID`, `CFG` and `STATUS` (which have statements of their own), every word of the buffers and of table memory, every
descriptor field, and 0 where there is nothing. -/
def Obligations.ReadsHaveNoSideEffect : Prop :=
  (∀ (s : State) (a : Word32),
    ∃ v n, hostRead a s = { s with reads := s.reads ++ [⟨a, v⟩], draws := n } ∧
      (s.inflight = none → v = s.readLoc (locate s.build a) ∧ n = s.draws)) ∧
  ∀ s : State, s.inflight = none → s.build.Legal →
    let p := s.build.prec
    s.ReadsAt 0x010 (0#62 ++ s.ctrl) ∧ s.ReadsAt 0x020 (0#32 ++ s.lastcmd) ∧ s.ReadsAt 0x028 s.finfo ∧
    s.ReadsAt 0x030 (layoutF p s.farg) ∧ s.ReadsAt 0x038 (layoutF p s.sr) ∧ s.ReadsAt 0x040 (layoutF p s.morphP) ∧
    s.ReadsAt 0x048 (layoutF p s.morphOut) ∧
    (∀ c, let r := s.chan c
      s.ReadsAt (chanBase c + 0x00) (0#56 ++ r.setbase) ∧ s.ReadsAt (chanBase c + 0x08) (0#55 ++ r.setcnt) ∧
      s.ReadsAt (chanBase c + 0x10) (layoutF p r.freq) ∧
      s.ReadsAt (chanBase c + 0x18) (0#48 ++ r.sel ++ 0#7 ++ BitVec.ofBool r.valid) ∧
      s.ReadsAt (chanBase c + 0x20) (0#46 ++ r.curlen) ∧
      s.ReadsAt (chanBase c + 0x28) (match r.curkern with | .linear => 0#64 | .hermite => 1#64 | .cubic => 2#64) ∧
      s.ReadsAt (chanBase c + 0x30) r.pos ∧ s.ReadsAt (chanBase c + 0x38) r.inc ∧
      s.ReadsAt (chanBase c + 0x40) (layoutF p r.bottom) ∧ s.ReadsAt (chanBase c + 0x48) (layoutF p r.top) ∧
      s.ReadsAt (chanBase c + 0x50) (layoutF p r.cur)) ∧
    (∀ i, i < s.build.n →
      s.ReadsAt (0x10000000 + 16 * i) (s.bufRead 0#2 i).re ∧ s.ReadsAt (0x10000000 + 16 * i + 8) (s.bufRead 0#2 i).im ∧
      s.ReadsAt (0x20000000 + 16 * i) (s.bufRead 1#2 i).re ∧ s.ReadsAt (0x20000000 + 16 * i + 8) (s.bufRead 1#2 i).im ∧
      s.ReadsAt (0x30000000 + 16 * i) (s.bufRead 2#2 i).re ∧ s.ReadsAt (0x30000000 + 16 * i + 8) (s.bufRead 2#2 i).im) ∧
    (∀ k j, k < s.build.tslots → j < s.build.lmax →
      s.ReadsAt (0x40000000 + k * (8 * s.build.lmax) + 8 * j) (s.tabRead k j)) ∧
    (∀ k, k < s.build.tslots →
      s.ReadsAt (0x50000000 + 32 * k) (layoutF p (s.slot k).maxf) ∧
      s.ReadsAt (0x50000000 + 32 * k + 8) (0#46 ++ (s.slot k).len) ∧
      s.ReadsAt (0x50000000 + 32 * k + 16) (0#62 ++ (s.slot k).kern)) ∧
    ∀ a, Absent s.build a → s.ReadsAt a 0#64

/-! ## Faults, the interrupt, the lifecycle -/


/-- R224: the write of a command word out of reset, in the order of its pseudocode; what was accepted is what the engine completes. -/
def Obligations.CmdWriteChecksAndAccepts : Prop := ∀ (s : State) (v : Word), s.rst = false →
  let w : Word32 := v.extractLsb' 0 32
  (s.fault ≠ none → hostWrite 0x020#32 v s = .next s) ∧
  (s.fault = none → s.inflight ≠ none →
    hostWrite 0x020#32 v s = .next { s with fault := some .cmdBusy, finfo := w.setWidth 64 }) ∧
  (s.fault = none → s.inflight = none → (∃ e, decode w = .error e) →
    hostWrite 0x020#32 v s = .next { s with fault := some .illegalCmd, finfo := w.setWidth 64 }) ∧
  (∀ i c, s.fault = none → s.inflight = none → decode w = .ok i → operandFault i s = some c →
    hostWrite 0x020#32 v s = .next { s with fault := some c, finfo := w.setWidth 64 }) ∧
  (∀ i, s.fault = none → s.inflight = none → decode w = .ok i → operandFault i s = none →
    let t := { s with lastcmd := w, inflight := some w, done := false }
    hostWrite 0x020#32 v s = .next t ∧ engineTurn t = exec i t)

/-- R222 with the causes of R221: the fault a command's checks find is the one of lowest code among those that apply to
it; for `MORPH.SETF` those of both channels count. -/
def Obligations.OperandFaultIsTheLowestThatApplies : Prop := ∀ (i : Instr) (s : State) (c : FaultCode),
  operandFault i s = some c ↔ Applies i s c ∧ ∀ d, Applies i s d → c.code.toNat ≤ d.code.toNat

/-- R227: while `FAULT = 1` every write to `CMD` is ignored, every other access of an idle machine does what it does
without the fault, and only reset clears `FAULT`, `FCODE` and `FINFO`. -/
def Obligations.FaultsAreFinal : Prop := ∀ (s : State) (c : FaultCode), s.fault = some c →
  (∀ v, hostWrite 0x020#32 v s = .next s) ∧
  (∀ a v, a ≠ 0x020#32 → s.inflight = none → ∃ t, hostWrite a v { s with fault := none } = .next t ∧
    hostWrite a v s = .next { t with fault := some c }) ∧
  (∀ a, locate s.build a ≠ .status → hostRead a s = { hostRead a { s with fault := none } with fault := some c }) ∧
  (∀ t, (∀ cells scr rest, s.turns ≠ .rst cells scr :: rest) → step s = .next t → t.fault = some c ∧ t.finfo = s.finfo)

/-- R228: a command in flight completes, clears `BUSY`, sets `DONE` and leaves the fault registers alone; whatever fault
is recorded meanwhile, it completes with the same effects. -/
def Obligations.CommandsInFlightCompleteWhateverFaults : Prop := ∀ (s : State) (w : Word32),
  s.Sound → s.inflight = some w →
  ∃ t, engineTurn s = .next t ∧ t.inflight = none ∧ t.done = true ∧ t.fault = s.fault ∧ t.finfo = s.finfo ∧
    ∀ c info, engineTurn { s with fault := some c, finfo := info } = .next { t with fault := some c, finfo := info }

/-- R272: host accesses while a command is in flight. DEDUCED (log 13): a read-only or unnamed address is one of the
"any other address" whose writes raise `HOST_BUSY`. DESIGN CHOICE (log 6): the any-value reads answer the model's free
value `Config.busyRead` of its counter `draws`, which they advance. -/
def Obligations.HostAccessesWhileBusy : Prop := ∀ (s : State) (w : Word32), s.rst = false → s.inflight = some w →
  (∀ v, hostWrite 0x010#32 v s = .next { s with ctrl := v.extractLsb' 0 2 }) ∧
  (∀ v, hostWrite 0x018#32 v s = .next { s with done := if v.getLsbD 1 then false else s.done }) ∧
  (∀ v, s.fault = none → hostWrite 0x020#32 v s =
    .next { s with fault := some .cmdBusy, finfo := (v.extractLsb' 0 32).setWidth 64 }) ∧
  (∀ a v, a ≠ 0x010#32 → a ≠ 0x018#32 → a ≠ 0x020#32 →
    (s.fault = none → hostWrite a v s = .next { s with fault := some .hostBusy, finfo := a.setWidth 64 }) ∧
    (s.fault ≠ none → hostWrite a v s = .next s)) ∧
  (∀ a, a = 0x000#32 ∨ a = 0x008#32 ∨ a = 0x010#32 ∨ a = 0x018#32 →
    hostRead a s = s.answer a (s.readLoc (locate s.build a))) ∧
  (∀ a, a ≠ 0x000#32 → a ≠ 0x008#32 → a ≠ 0x010#32 → a ≠ 0x018#32 →
    hostRead a s = { s.answer a (Config.busyRead s.draws) with draws := s.draws + 1 })

/-- R230: the interrupt line, and out of reset the three ways the completion source is cleared, and the two ways the fault source is: no
other step clears it. -/
def Obligations.InterruptLineFollowsCtrlAndStatus : Prop := ∀ s : State,
  (s.irq = true ↔ (s.ctrl.getLsbD 0 = true ∧ s.done = true) ∨ (s.ctrl.getLsbD 1 = true ∧ s.fault ≠ none)) ∧
  (s.rst = false → s.fault = none →
    (∀ t v, v.getLsbD 1 = true → hostWrite 0x018#32 v s = .next t → t.irq = false) ∧
    (∀ t v, v.getLsbD 0 = false → hostWrite 0x010#32 v s = .next t → t.irq = false) ∧
    (∀ t v, s.inflight = none → hostWrite 0x020#32 v s = .next t → t.fault = none → t.irq = false)) ∧
  (s.fault ≠ none →
    (∀ t v, s.rst = false → v.getLsbD 1 = false → hostWrite 0x010#32 v s = .next t → (t.irq = true ↔ v.getLsbD 0 = true ∧ s.done = true)) ∧
    (∀ cells scr, (s.resetBy cells scr).irq = false) ∧
    (∀ t, (∀ cells scr rest, s.turns ≠ .rst cells scr :: rest) → step s = .next t → t.ctrl.getLsbD 1 = true →
      t.irq = true))

/-- R260, R262: an assertion of `RST`, idle or busy, faulted or not, gives every register its reset value and abandons the
command in flight; while `RST` stays asserted every step leaves every register at its reset value; the release leaves
them so. The output history stays. That no host write changes anything while `RST` is asserted is log 5's: R260 speaks of
the registers, for which it is DEDUCED; that a write to a memory is dropped then is a DESIGN CHOICE. DESIGN CHOICE (log 5)
too: the assertion and the release are turns of the model, which take effect at once and leave the turns to come. -/
def Obligations.RstGivesEveryRegisterItsResetValue : Prop :=
  (∀ (s : State) (cells : List Host.Cell) (scr : List Cplx) (rest : List Turn), s.turns = .rst cells scr :: rest →
    ∃ t, step s = .next t ∧ t.rst = true ∧ t.AtReset ∧
      t.readLoc .id = 0x57544331#64 ∧ t.readLoc .cfg = s.readLoc .cfg ∧ t.ctrl = 0#2 ∧
      t.statusWord = 0#64 ∧ t.inflight = none ∧ t.done = false ∧ t.fault = none ∧ t.lastcmd = 0#32 ∧ t.finfo = 0#64 ∧
      t.farg = 0#64 ∧ t.sr = 0#64 ∧ t.morphP = 0#64 ∧ t.morphOut = 0#64 ∧
      (∀ c, (t.chan c).setbase = 0#8 ∧ (t.chan c).setcnt = 0#9 ∧ (t.chan c).freq = 0#64 ∧ (t.chan c).selstat = 0#64 ∧
        (t.chan c).curlen = 0#18 ∧ (t.chan c).curkern.code = 0#2 ∧ (t.chan c).pos = 0#64 ∧ (t.chan c).inc = 0#64 ∧
        (t.chan c).bottom = 0#64 ∧ (t.chan c).top = 0#64 ∧ (t.chan c).cur = 0#64) ∧
      t.slots = List.replicate s.build.tslots { maxf := 0#64, len := 0#18, kern := 0#2 } ∧
      t.irq = false ∧ t.out = s.out ∧ t.build = s.build ∧ t.turns = rest) ∧
  (∀ s : State, s.rst = true →
    (∀ a v, hostWrite a v s = .next s) ∧
    (s.AtReset → s.irq = false ∧ ∀ t, step s = .next t → t.AtReset ∧ t.build = s.build ∧ t.out = s.out ∧
      (t.rst = false ↔ ∃ rest, s.turns = .release :: rest))) ∧
  ∀ (s : State) (rest : List Turn), s.turns = .release :: rest → step s = .next { s with rst := false, turns := rest }

/-- R261: the memories can hold anything after reset. Whatever canonical contents the existing bytes are given, the
assertion of `RST` that supplies them leaves exactly those. -/
def Obligations.RstCanLeaveAnyMemory : Prop := ∀ (s : State) (m : Mem) (scr : List Cplx),
  m.wf → (∀ c ∈ m, byteExists s.build c.1 = true) → (s.resetBy m scr).mem = m

/-! ## Invariants -/

/-- The state after reset is sound (R53, R55), for the standard build and for every legal build with any memory. -/
def Obligations.ResetStateIsSound : Prop :=
  State.reset.Sound ∧
  ∀ (b : Build) (m : Mem) (scr : List Cplx), b.Legal → m.wf → scr.length = b.n → (State.afterReset b m scr).Sound

/-- R53 and what goes with it is kept by every step, from every sound state. -/
def Obligations.EveryStepKeepsTheStateSound : Prop := ∀ s t : State, s.Sound → step s = .next t → t.Sound

/-- R228, R61: from a sound state a step never stops with a fault, and is refused only for a host access that is not 64
bits wide or not aligned. -/
def Obligations.SoundStatesStopOnlyOnBusErrors : Prop := ∀ s : State, s.Sound →
  (∀ f, step s ≠ .fault f) ∧
  (∀ r, step s = .refused r → r = .busError ∧ ∃ x rest, s.turns = .host x :: rest ∧ (x.bits ≠ 64 ∨ x.addr.toNat % 8 ≠ 0))

/-- R270 (DESIGN CHOICE, logs 2 and 3): the write of a word that decodes, to `CMD` of an idle, fault-free engine out of
reset, runs that command's meaning on the state with the access taken off the turns; and the engine's turn, the host's poll and the
end of the turns each run the meaning of the command in flight. -/
def Obligations.StepRunsTheDecodedCommand : Prop := ∀ (s : State) (i : Instr),
  (∀ (v : Word) (rest : List Turn), s.turns = .host { bits := 64, addr := 0x020#32, op := .write v } :: rest →
    s.rst = false → s.fault = none → s.inflight = none → decode (v.extractLsb' 0 32) = .ok i → step s = exec i { s with turns := rest }) ∧
  (∀ w, s.inflight = some w → decode w = .ok i →
    (s.turns = [] → step s = exec i s) ∧
    (∀ rest, s.turns = .wait :: rest → step s = exec i s) ∧
    (∀ rest, s.turns = .engine :: rest → step s = exec i { s with turns := rest }))

/-! ## Results, command by command -/

/-- R200: `NOP` goes through the lifecycle and changes nothing else; after a fault it is ignored. -/
def Obligations.NopOnlyGoesThroughTheLifecycle : Prop := ∀ s : State,
  (s.inflight = none → s.fault = none →
    exec .nop s = .next { s with lastcmd := 0#32, inflight := some 0#32, done := false }) ∧
  (s.inflight = none → s.fault ≠ none → exec .nop s = .next s) ∧
  (∀ w, s.inflight = some w → exec .nop s = .next { s with inflight := none, done := true })

/-- R120: `FFT.FWD` checks its buffers; in flight it writes the forward transform of `BS` to all entries of `BD`, and no
other byte, register or descriptor changes. -/
def Obligations.FftFwdWritesTheForwardTransform : Prop := ∀ (s : State) (bs bd : BitVec 2) (w : Word32),
  (operandFault (.fftFwd bs bd) s =
    if bs = 3#2 ∨ bd = 3#2 then some .badBuffer else if bs = bd then some .aliased else none) ∧
  (s.build.Legal → s.inflight = some w → bs ≠ 3#2 → bd ≠ 3#2 → bs ≠ bd →
    ∃ t, exec (.fftFwd bs bd) s = .next t ∧
      t = { s with mem := t.mem, inflight := none, done := true } ∧
      t.bufEntries bd = transform s.build .fwd (s.bufEntries bs) ∧
      ∀ a, ¬InEntries bd 0 s.build.n a → t.mem.byteAt a = s.mem.byteAt a)

/-- R121: `FFT.FWDR` takes the real parts of `BS` with imaginary parts `+0.0`, reads no imaginary part, and writes the
forward transform to all entries of `BD` and nothing else. -/
def Obligations.FftFwdrTransformsTheRealParts : Prop := ∀ (s : State) (bs bd : BitVec 2) (w : Word32),
  (operandFault (.fftFwdr bs bd) s =
    if bs = 3#2 ∨ bd = 3#2 then some .badBuffer else if bs = bd then some .aliased else none) ∧
  (s.build.Legal → s.inflight = some w → bs ≠ 3#2 → bd ≠ 3#2 → bs ≠ bd →
    ∃ t, exec (.fftFwdr bs bd) s = .next t ∧
      t = { s with mem := t.mem, inflight := none, done := true } ∧
      t.bufEntries bd =
        transform s.build .fwd ((List.range s.build.n).map fun i => ⟨s.fAt (bufAddr bs i), 0#64⟩) ∧
      ∀ a, ¬InEntries bd 0 s.build.n a → t.mem.byteAt a = s.mem.byteAt a)

/-- R122: `FFT.INV` writes the inverse transform of `BS` to all entries of `BD` and nothing else. -/
def Obligations.FftInvWritesTheInverseTransform : Prop := ∀ (s : State) (bs bd : BitVec 2) (w : Word32),
  (operandFault (.fftInv bs bd) s =
    if bs = 3#2 ∨ bd = 3#2 then some .badBuffer else if bs = bd then some .aliased else none) ∧
  (s.build.Legal → s.inflight = some w → bs ≠ 3#2 → bd ≠ 3#2 → bs ≠ bd →
    ∃ t, exec (.fftInv bs bd) s = .next t ∧
      t = { s with mem := t.mem, inflight := none, done := true } ∧
      t.bufEntries bd = transform s.build .inv (s.bufEntries bs) ∧
      ∀ a, ¬InEntries bd 0 s.build.n a → t.mem.byteAt a = s.mem.byteAt a)

/-- R123: `FFT.INVR` writes the real parts of the inverse transform of `BS` to samples 0 to `N - 1` of the slot and `N` to
its `LEN`; its `MAXF` and `KERN`, its other samples, every other slot, every buffer and every register are unchanged. -/
def Obligations.FftInvrWritesTheSlot : Prop := ∀ (s : State) (bs : BitVec 2) (slot : BitVec 8) (w : Word32),
  (operandFault (.fftInvr bs slot) s =
    if bs = 3#2 then some .badBuffer else if s.build.tslots ≤ slot.toNat then some .badSlot else none) ∧
  (s.build.Legal → s.slots.length = s.build.tslots → s.inflight = some w → bs ≠ 3#2 → slot.toNat < s.build.tslots →
    ∃ t, exec (.fftInvr bs slot) s = .next t ∧
      t = { s with mem := t.mem, scr := t.scr, slots := t.slots, inflight := none, done := true } ∧
      t.scr = transform s.build .inv (s.bufEntries bs) ∧
      (∀ j, j < s.build.n →
        t.tabRead slot.toNat j = ((transform s.build .inv (s.bufEntries bs)).getD j ⟨0#64, 0#64⟩).re) ∧
      (t.slot slot.toNat).len.toNat = s.build.n ∧ (t.slot slot.toNat).maxf = (s.slot slot.toNat).maxf ∧
      (t.slot slot.toNat).kern = (s.slot slot.toNat).kern ∧
      (∀ k, k ≠ slot.toNat → t.slot k = s.slot k) ∧ t.slots.length = s.slots.length ∧
      ∀ a, ¬InSamples s.build slot.toNat s.build.n a → t.mem.byteAt a = s.mem.byteAt a)

/-- R143: `MASK` checks `BD`, `SR` and `FARG`; in flight it changes nothing when there is no cutoff, and otherwise clears
`BD[0].im` and the bins `C .. N-C` and nothing else. -/
def Obligations.MaskClearsTheBinsAboveTheCutoff : Prop := ∀ (s : State) (bd : BitVec 2) (w : Word32),
  (operandFault (.mask bd) s =
    if bd = 3#2 then some .badBuffer
    else if isFinite s.build.prec s.sr = false ∨ fgt s.build.prec s.sr (toF s.build.prec 0) = false then some .badSr
    else if fgt s.build.prec s.farg (toF s.build.prec 0) = false then some .badFarg else none) ∧
  (s.build.Legal → s.inflight = some w → operandFault (.mask bd) s = none →
    (cutoff s.build s.sr s.farg = none → exec (.mask bd) s = .next { s with inflight := none, done := true }) ∧
    (∀ c, cutoff s.build s.sr s.farg = some c →
      ∃ t, exec (.mask bd) s = .next t ∧
        t = { s with mem := t.mem, inflight := none, done := true } ∧
        (t.bufRead bd 0).im = 0#64 ∧ (∀ k, c ≤ k → k ≤ s.build.n - c → t.bufRead bd k = ⟨0#64, 0#64⟩) ∧
        ∀ a, ¬(bufAddr bd 0 + 8 ≤ a ∧ a < bufAddr bd 1) → ¬InEntries bd c (s.build.n - c + 1) a →
          t.mem.byteAt a = s.mem.byteAt a))

/-- R146: `BUILD` makes its five checks; in flight it writes the truncated spectrum to `BD`, the real parts of its inverse
transform to the slot, `N` to its `LEN` and `FARG` to its `MAXF`; the slot's `KERN` and other samples, `BS` and everything
else are unchanged. -/
def Obligations.BuildWritesOneBand : Prop := ∀ (s : State) (bs bd : BitVec 2) (slot : BitVec 8) (w : Word32),
  (operandFault (.build bs bd slot) s =
    if bs = 3#2 ∨ bd = 3#2 then some .badBuffer else if s.build.tslots ≤ slot.toNat then some .badSlot
    else if bs = bd then some .aliased
    else if isFinite s.build.prec s.sr = false ∨ fgt s.build.prec s.sr (toF s.build.prec 0) = false then some .badSr
    else if fgt s.build.prec s.farg (toF s.build.prec 0) = false then some .badFarg else none) ∧
  (s.build.Legal → s.slots.length = s.build.tslots → s.inflight = some w → operandFault (.build bs bd slot) s = none →
    let spectrum := maskFn s.build.n (cutoff s.build s.sr s.farg) (s.bufEntries bs)
    ∃ t, exec (.build bs bd slot) s = .next t ∧
      t = { s with mem := t.mem, scr := t.scr, slots := t.slots, inflight := none, done := true } ∧
      t.bufEntries bd = spectrum ∧ t.scr = transform s.build .inv spectrum ∧
      (∀ j, j < s.build.n →
        t.tabRead slot.toNat j = ((transform s.build .inv spectrum).getD j ⟨0#64, 0#64⟩).re) ∧
      (t.slot slot.toNat).len.toNat = s.build.n ∧ (t.slot slot.toNat).maxf = s.farg ∧
      (t.slot slot.toNat).kern = (s.slot slot.toNat).kern ∧
      (∀ k, k ≠ slot.toNat → t.slot k = s.slot k) ∧ t.slots.length = s.slots.length ∧
      ∀ a, ¬InEntries bd 0 s.build.n a → ¬InSamples s.build slot.toNat s.build.n a →
        t.mem.byteAt a = s.mem.byteAt a)

/-- R147: `BUILD` leaves the same state as copying `BS` to `BD`, `MASK Bd`, `FFT.INVR Bd, Tt` and a write of `FARG` to the
slot's `MAXF`, in order. -/
def Obligations.BuildEqualsCopyMaskInvrTag : Prop := ∀ (s t : State) (bs bd : BitVec 2) (slot : BitVec 8) (w : Word32),
  s.Sound → s.inflight = some w → operandFault (.build bs bd slot) s = none → exec (.build bs bd slot) s = .next t →
  ∃ m r, exec (.mask bd) (s.bufWrite bd 0 (s.bufEntries bs)) = .next m ∧
    exec (.fftInvr bd slot) { m with inflight := some w } = .next r ∧
    t = r.setSlot slot.toNat { r.slot slot.toNat with maxf := s.farg }

/-- R170: `OSC.SETF` makes its five checks, those of the slot only when the frequency is outside the window; in flight it
records the frequency and the increment, and when it selects it also latches the scanned slot and its window and rescales
the position of a channel that had a table. Nothing else changes. -/
def Obligations.OscSetfSelectsAndRetunes : Prop := ∀ (s : State) (c : Chan) (w : Word32),
  let p := s.build.prec
  let f := s.farg
  let r := s.chan c
  let k := scan p s.slots r f
  let d := s.slot k
  (operandFault (.oscSetf c) s =
    if isFinite p s.sr = false ∨ fgt p s.sr (toF p 0) = false then some .badSr
    else if isNaN p f = true ∨ flt p f (toF p 0) = true ∨ fge p f s.sr = true then some .freqRange
    else if r.setcnt.toNat = 0 ∨ s.build.tslots < r.setbase.toNat + r.setcnt.toNat then some .badSet
    else if inWindow p r f = true then none
    else if d.len.toNat = 0 ∨ s.build.lmax < d.len.toNat then some .badLen
    else if d.kern = 3#2 then some .badKern else none) ∧
  (s.Sound → s.inflight = some w → operandFault (.oscSetf c) s = none →
    ∃ r', exec (.oscSetf c) s = .next { s.setChan c r' with inflight := none, done := true } ∧
      r'.freq = f ∧ r'.cur = r.cur ∧ r'.setbase = r.setbase ∧ r'.setcnt = r.setcnt ∧ r'.valid = true ∧
      r'.inc.toNat = incOf s.build f r'.curlen.toNat s.sr ∧
      (inWindow p r f = true →
        r'.sel = r.sel ∧ r'.curlen = r.curlen ∧ r'.curkern = r.curkern ∧ r'.pos = r.pos ∧
        r'.bottom = r.bottom ∧ r'.top = r.top) ∧
      (inWindow p r f = false →
        r'.sel.toNat = k ∧ r'.curlen = d.len ∧ r'.curkern.code = d.kern ∧ r'.top = d.maxf ∧
        r'.bottom = (if k = r.setbase.toNat then 0#64 else (s.slot (k - 1)).maxf) ∧
        (r.valid = true →
          r'.pos.toNat = min (r.pos.toNat * d.len.toNat / r.curlen.toNat) (d.len.toNat * 2 ^ s.build.fb - 1)) ∧
        (r.valid = false → r'.pos = 0#64)))

/-- R172: `OSC.ADV` moves the position by one increment, interpolates there, writes `POS` and `CUR` and emits one event;
nothing else changes. -/
def Obligations.OscAdvMovesAndEmits : Prop := ∀ (s : State) (c : Chan) (w : Word32),
  (operandFault (.oscAdv c) s = if (s.chan c).valid = false then some .noTable else none) ∧
  (s.Sound → s.inflight = some w → (s.chan c).valid = true →
    let r := s.chan c
    let p := advPos s.build r
    let v := s.interp r.curkern r.sel.toNat r.curlen.toNat p
    ∃ q, q.toNat = p ∧
      exec (.oscAdv c) s = .next { s.setChan c { r with pos := q, cur := v } with
        out := s.out ++ [⟨chanTag c, v⟩], inflight := none, done := true })

/-- R173: `OSC.RETRIG` sets the position to 0 and recomputes the current value there; no event, nothing else changes. -/
def Obligations.OscRetrigRestartsAtZero : Prop := ∀ (s : State) (c : Chan) (w : Word32),
  (operandFault (.oscRetrig c) s = if (s.chan c).valid = false then some .noTable else none) ∧
  (s.inflight = some w → (s.chan c).valid = true →
    let r := s.chan c
    exec (.oscRetrig c) s = .next { s.setChan c { r with
        pos := 0#64, cur := s.interp r.curkern r.sel.toNat r.curlen.toNat 0 } with
      inflight := none, done := true })


/-- R201: `MORPH.SETF` completes whenever no check of either channel fails, and its result is that of `OSC.SETF C0` then
`OSC.SETF C1`. -/
def Obligations.MorphSetfIsSetfOfC0ThenC1 : Prop := ∀ (s : State) (w : Word32),
  s.inflight = some w → (∀ f, ¬Applies .morphSetf s f) →
  ∃ t u, exec (.oscSetf .c0) s = .next t ∧ exec (.oscSetf .c1) { t with inflight := some w } = .next u ∧
    exec .morphSetf s = .next u

/-- R203: `MORPH.ADV` advances both channels, writes the blend of their new values to `MORPH_OUT` and emits it with tag 2;
nothing else changes. -/
def Obligations.MorphAdvAdvancesBothAndEmitsTheBlend : Prop := ∀ (s : State) (w : Word32),
  (operandFault .morphAdv s = if s.ch0.valid = false ∨ s.ch1.valid = false then some .noTable else none) ∧
  (s.Sound → s.inflight = some w → s.ch0.valid = true → s.ch1.valid = true →
    let p0 := advPos s.build s.ch0
    let p1 := advPos s.build s.ch1
    let v0 := s.interp s.ch0.curkern s.ch0.sel.toNat s.ch0.curlen.toNat p0
    let v1 := s.interp s.ch1.curkern s.ch1.sel.toNat s.ch1.curlen.toNat p1
    let p := s.build.prec
    let m := fadd p (fmul p (fsub p (toF p 1) s.morphP) v0) (fmul p s.morphP v1)
    ∃ q0 q1, q0.toNat = p0 ∧ q1.toNat = p1 ∧
      exec .morphAdv s = .next { s with
        ch0 := { s.ch0 with pos := q0, cur := v0 }, ch1 := { s.ch1 with pos := q1, cur := v1 },
        morphOut := m, out := s.out ++ [⟨.morph, m⟩], inflight := none, done := true })

/-! ## Rules over all commands -/

/-- What only the host writes stays as it is under every command, issued or completing: `CTRL`, `FARG`, `SR`, `MORPH_P`
(R26, R30 to R32), each channel's set (R35) and every slot's `KERN` (R49); and so do the build and the model's inputs. -/
def Obligations.CommandsLeaveTheHostsRegisters : Prop := ∀ (i : Instr) (s t : State), exec i s = .next t →
  t.ctrl = s.ctrl ∧ t.farg = s.farg ∧ t.sr = s.sr ∧ t.morphP = s.morphP ∧
  (∀ c, (t.chan c).setbase = (s.chan c).setbase ∧ (t.chan c).setcnt = (s.chan c).setcnt) ∧
  (∀ k, (t.slot k).kern = (s.slot k).kern) ∧ t.slots.length = s.slots.length ∧
  t.build = s.build ∧ t.reads = s.reads ∧ t.draws = s.draws ∧ t.turns = s.turns

/-- R205: `OSC.ADV` emits one event with the channel's tag, `MORPH.ADV` one with tag 2, each its new sample, at completion;
no other command emits; and no step, reset included, takes an event out of the history. -/
def Obligations.OnlyAdvancesEmitOneEvent : Prop :=
  (∀ (i : Instr) (s t : State), exec i s = .next t →
    (s.inflight = none → t.out = s.out) ∧
    (s.inflight ≠ none → match i with
      | .oscAdv c => ∃ e, t.out = s.out ++ [e] ∧ e.sample = (t.chan c).cur ∧
          e.tag.code = (match c with | .c0 => 0#2 | .c1 => 1#2)
      | .morphAdv => ∃ e, t.out = s.out ++ [e] ∧ e.sample = t.morphOut ∧ e.tag.code = 2#2
      | _ => t.out = s.out)) ∧
  (∀ s t : State, step s = .next t → ∃ es, t.out = s.out ++ es)

/-- R75: no oscillator command writes table memory or descriptors, nor any buffer. -/
def Obligations.OscillatorCommandsLeaveTablesAlone : Prop := ∀ (i : Instr) (s t : State),
  ((∃ c, i = .oscSetf c ∨ i = .oscAdv c ∨ i = .oscRetrig c) ∨ i = .morphSetf ∨ i = .morphAdv) →
  exec i s = .next t → t.mem = s.mem ∧ t.slots = s.slots

/-! ## The oscillator -/

/-- R165: the scan picks the first slot of the set whose bound is at least `f`, and the last slot when there is none. -/
def Obligations.ScanPicksTheFirstBoundAtLeastF : Prop := ∀ (p : Prec) (slots : List SlotDesc) (r : Channel) (f : F),
  1 ≤ r.setcnt.toNat →
  let b := r.setbase.toNat
  let n := r.setcnt.toNat
  let t := scan p slots r f
  b ≤ t ∧ t ≤ b + n - 1 ∧ (∀ u, b ≤ u → u < t → fge p (slotOf slots u).maxf f = false) ∧
  ((∃ u, b ≤ u ∧ u ≤ b + n - 1 ∧ fge p (slotOf slots u).maxf f = true) → fge p (slotOf slots t).maxf f = true) ∧
  ((∀ u, b ≤ u → u ≤ b + n - 1 → fge p (slotOf slots u).maxf f = false) → t = b + n - 1)

/-- R166: the window of a selection; after a selection that did not fall back, from a set with ascending bounds, a
frequency above zero is inside the new window; after the fallback it is outside, and every frequency above the last bound
is outside too and scans to the last slot again. -/
def Obligations.SelectedFrequencyIsInsideItsWindow : Prop := ∀ (b : Build) (slots : List SlotDesc) (r : Channel) (f : F),
  let t := scan b.prec slots r f
  let r' := selectSlot b slots r t
  r'.bottom = (if t = r.setbase.toNat then 0#64 else (slotOf slots (t - 1)).maxf) ∧ r'.top = (slotOf slots t).maxf ∧
  (1 ≤ r.setcnt.toNat →
    (∀ u v, r.setbase.toNat ≤ u → u < v → v ≤ r.setbase.toNat + r.setcnt.toNat - 1 →
      flt b.prec (slotOf slots u).maxf (slotOf slots v).maxf = true) →
    flt b.prec (toF b.prec 0) f = true →
    (fge b.prec (slotOf slots t).maxf f = true → inWindow b.prec r' f = true) ∧
    (fge b.prec (slotOf slots t).maxf f = false → inWindow b.prec r' f = false ∧
      ∀ g, flt b.prec (slotOf slots t).maxf g = true → inWindow b.prec r' g = false ∧ scan b.prec slots r' g = t))

/-- R167: of a position below the old length the rescaled position is the exact floor, below the new length, so that the
clamp never binds; for an equal length it is the position itself. -/
def Obligations.RescaleIsTheExactFloor : Prop := ∀ (b : Build) (pos oldLen newLen : Nat),
  pos < oldLen * 2 ^ b.fb → 1 ≤ newLen →
  rescale b pos oldLen newLen = pos * newLen / oldLen ∧ rescale b pos oldLen newLen < newLen * 2 ^ b.fb ∧
  (newLen = oldLen → rescale b pos oldLen newLen = pos)

/-- R169: the increment is the floor of the exact `x * 2^FB` under the clamp `L << FB`, for every finite non-negative
product `x`; it is 0 for `f = ±0` (R170); and whatever the product, free value or not (log 10), the clamp holds. -/
def Obligations.IncrementIsTheClampedFloor : Prop := ∀ (b : Build) (f sr : F) (l : Nat),
  let x := fmul b.prec (fmul b.prec f (toF b.prec l)) (srInverse b.prec sr)
  (isFinite b.prec x = true → 0 ≤ realOf b.prec x →
    (incOf b f l sr : Int) = min ⌊realOf b.prec x * 2 ^ b.fb⌋ ((l * 2 ^ b.fb : Nat) : Int)) ∧
  (fmag b.prec f = 0 → isFinite b.prec sr = true → fgt b.prec sr (toF b.prec 0) = true → incOf b f l sr = 0) ∧
  incOf b f l sr ≤ l * 2 ^ b.fb

/-- R171: from a position below the length and an increment at most the length, one subtraction is enough: the new
position is the sum modulo the length; an increment of the whole length does not move it. -/
def Obligations.AdvanceIsAdditionModuloTheLength : Prop := ∀ (b : Build) (r : Channel),
  r.pos.toNat < lengthFx b r → r.inc.toNat ≤ lengthFx b r →
  advPos b r < lengthFx b r ∧ advPos b r = (r.pos.toNat + r.inc.toNat) % lengthFx b r ∧
  (r.inc.toNat = lengthFx b r → advPos b r = r.pos.toNat)

/-- R174: after `K` advances the position is `(P0 + K * INC) mod Lfx` and the increment is unchanged; the position is back
where it was exactly when `K * INC` is a multiple of `Lfx`. -/
def Obligations.PositionAfterKAdvances : Prop := ∀ (s : State) (c : Chan) (k : Nat),
  s.Sound → (s.chan c).valid = true →
  ∃ t, advanceTimes c k s = .next t ∧
    (t.chan c).pos.toNat = ((s.chan c).pos.toNat + k * (s.chan c).inc.toNat) % lengthFx s.build (s.chan c) ∧
    (t.chan c).inc = (s.chan c).inc ∧
    ((t.chan c).pos = (s.chan c).pos ↔ lengthFx s.build (s.chan c) ∣ k * (s.chan c).inc.toNat)

/-- R176: two frequencies inside the window of the current selection, set one after the other, leave the selected slot
and its window as they were. -/
def Obligations.FrequenciesInTheWindowKeepTheTable : Prop := ∀ (s t u : State) (c : Chan) (w : Word32) (f g : F),
  inWindow s.build.prec (s.chan c) f = true → inWindow s.build.prec (s.chan c) g = true →
  exec (.oscSetf c) { s with farg := f, inflight := some w } = .next t →
  exec (.oscSetf c) { t with farg := g, inflight := some w } = .next u →
  (u.chan c).sel = (s.chan c).sel ∧ (u.chan c).bottom = (s.chan c).bottom ∧ (u.chan c).top = (s.chan c).top ∧
  (u.chan c).curlen = (s.chan c).curlen ∧ (u.chan c).curkern = (s.chan c).curkern ∧ (u.chan c).pos = (s.chan c).pos

/-- R180 to R185: the interpolated value is the kernel's expression, chosen by the kernel's code, of the samples at
`idx - 1` to `idx + 2` modulo the length and of the fraction; the fraction is exactly `(pos mod 2^FB) / 2^FB`. So
interpolation reads only samples `0 .. L-1` of its slot: two states of one build that agree on them agree on the value. -/
def Obligations.InterpolationReadsOnlyTheTable : Prop :=
  (∀ (s : State) (k : Kernel) (slot l pos : Nat), 1 ≤ l →
    let p := s.build.prec
    let y := fun d : Int => s.tabRead slot (((pos / 2 ^ s.build.fb : Nat) + d) % (l : Int)).toNat
    let x := fixedFrac s.build pos
    let half : F := match p with | .binary32 => 0x3F000000#64 | .binary64 => 0x3FE0000000000000#64
    let threeHalves : F := match p with | .binary32 => 0x3FC00000#64 | .binary64 => 0x3FF8000000000000#64
    let two : F := match p with | .binary32 => 0x40000000#64 | .binary64 => 0x4000000000000000#64
    let fiveHalves : F := match p with | .binary32 => 0x40200000#64 | .binary64 => 0x4004000000000000#64
    (k.code = 0#2 → s.interp k slot l pos = fadd p (y 0) (fmul p x (fsub p (y 1) (y 0)))) ∧
    (k.code = 1#2 →
      let c1 := fmul p half (fsub p (y 1) (y (-1)))
      let c2 := fsub p (fadd p (fsub p (y (-1)) (fmul p fiveHalves (y 0))) (fmul p two (y 1))) (fmul p half (y 2))
      let c3 := fadd p (fmul p half (fsub p (y 2) (y (-1)))) (fmul p threeHalves (fsub p (y 0) (y 1)))
      s.interp k slot l pos = fadd p (fmul p (fadd p (fmul p (fadd p (fmul p c3 x) c2) x) c1) x) (y 0)) ∧
    (k.code = 2#2 →
      let a0 := fadd p (fsub p (fsub p (y 2) (y 1)) (y (-1))) (y 0)
      let a1 := fsub p (fsub p (y (-1)) (y 0)) a0
      let a2 := fsub p (y 1) (y (-1))
      s.interp k slot l pos = fadd p (fmul p (fadd p (fmul p (fadd p (fmul p a0 x) a1) x) a2) x) (y 0))) ∧
  (∀ k : Kernel, k.code = 0#2 ∨ k.code = 1#2 ∨ k.code = 2#2) ∧
  (∀ (b : Build) (pos : Nat), b.Legal →
    isFinite b.prec (fixedFrac b pos) = true ∧
    realOf b.prec (fixedFrac b pos) = ((pos % 2 ^ b.fb : ℕ) : ℚ) / 2 ^ b.fb) ∧
  ∀ (s t : State) (k : Kernel) (slot l pos : Nat),
    1 ≤ l → t.build = s.build → (∀ j, j < l → t.tabRead slot j = s.tabRead slot j) →
    t.interp k slot l pos = s.interp k slot l pos

/-! ## The transform and the masker -/


/-- R113: `rev` moves bit `b` of an index to bit `L - 1 - b`, and is its own inverse on the indices of a buffer. -/
def Obligations.BitReversalIsItsOwnInverse : Prop := ∀ l i : Nat,
  rev l i = ((List.range l).map fun b => (if i.testBit b then 1 else 0) * 2 ^ (l - 1 - b)).sum ∧
  (i < 2 ^ l → rev l i < 2 ^ l ∧ rev l (rev l i) = i) ∧
  (List.range 8).map (rev 3) = [0, 4, 2, 6, 1, 5, 3, 7]

/-- R116, R117, with the product, sum and difference of R111, the rotator of R115 and `NORM` of R112 written out: the
transform is the loop nest of the spec, run in place on an array. -/
def Obligations.TransformIsTheLoopNest : Prop := ∀ (b : Build) (dir : Dir) (x : List Cplx) (i : Nat), i < b.n →
  (transform b dir x).getD i ⟨0#64, 0#64⟩ = loopTransform b dir (fun k => x.getD k ⟨0#64, 0#64⟩) i

/-- R112: `NORM`, its values for the sizes of the rule's table, and that it is `2^(-LOG2N/2)` exactly for every even
`LOG2N` in range. And the square root it is made with, of any finite positive value, is the exact root rounded once to
nearest even (R14, R110), so that `NORM` is fixed for every `LOG2N`. -/
def Obligations.NormalisationConstants : Prop :=
  (∀ b : Build, normFactor b = fdiv b.prec (toF b.prec 1) (fsqrt b.prec (toF b.prec b.n))) ∧
  (∀ b : Build, b.prec = .binary64 → (b.log2n = 1 → normFactor b = 0x3FE6A09E667F3BCC#64) ∧
    (b.log2n = 2 → normFactor b = 0x3FE0000000000000#64) ∧ (b.log2n = 3 → normFactor b = 0x3FD6A09E667F3BCC#64)) ∧
  (∀ b : Build, b.prec = .binary32 → (b.log2n = 1 → normFactor b = 0x3F3504F3#64) ∧
    (b.log2n = 2 → normFactor b = 0x3F000000#64) ∧ (b.log2n = 3 → normFactor b = 0x3EB504F3#64)) ∧
  (∀ (b : Build) (h : Nat), b.log2n = 2 * h → h ≤ 8 → realOf b.prec (normFactor b) = (2 : ℚ) ^ (-(h : Int))) ∧
  (∀ (p : Prec) (a : F), isFinite p a = true → fsign p a = false → ¬IsZero p a →
    NearestEvenReal p (Real.sqrt (realOf p a)) (fsqrt p a))

/-- R114: each component of each twiddle is the correctly rounded cosine or sine of the exact angle: no finite value of
the format is nearer; and the first entries are those of the rule's table. (Entries 5 to 16 were evaluated for this model,
log 9.) -/
def Obligations.TwiddlesAreCorrectlyRounded : Prop :=
  (∀ (p : Prec) (s : Nat), s < 17 →
    isFinite p (twrom p s).re = true ∧ isFinite p (twrom p s).im = true ∧
    ∀ y, isFinite p y = true →
      |(realOf p (twrom p s).re : ℝ) - Real.cos (Real.pi / 2 ^ s)| ≤ |(realOf p y : ℝ) - Real.cos (Real.pi / 2 ^ s)| ∧
      |(realOf p (twrom p s).im : ℝ) - Real.sin (Real.pi / 2 ^ s)| ≤ |(realOf p y : ℝ) - Real.sin (Real.pi / 2 ^ s)|) ∧
  (List.range 5).map (twrom .binary64) =
    [⟨0xBFF0000000000000#64, 0x0000000000000000#64⟩, ⟨0x0000000000000000#64, 0x3FF0000000000000#64⟩,
     ⟨0x3FE6A09E667F3BCD#64, 0x3FE6A09E667F3BCD#64⟩, ⟨0x3FED906BCF328D46#64, 0x3FD87DE2A6AEA963#64⟩,
     ⟨0x3FEF6297CFF75CB0#64, 0x3FC8F8B83C69A60B#64⟩] ∧
  (List.range 5).map (twrom .binary32) =
    [⟨0xBF800000#64, 0x00000000#64⟩, ⟨0x00000000#64, 0x3F800000#64⟩, ⟨0x3F3504F3#64, 0x3F3504F3#64⟩,
     ⟨0x3F6C835E#64, 0x3EC3EF15#64⟩, ⟨0x3F7B14BE#64, 0x3E47C5C2#64⟩]

/-- R140 and R141: with legal `SR` and `FARG` the ratio `q` is the two rounded divisions and is never NaN or negative; the
cutoff is `floor(q) + 1` unless that exceeds `N/2`, and an infinite `q` gives none. A cutoff lies in `1 .. N/2`, so the
range `C .. N-C` is never empty (R142). -/
def Obligations.CutoffIsTheFloorPlusOne : Prop := ∀ (b : Build) (sr farg : F),
  b.Legal → isFinite b.prec sr = true → fgt b.prec sr (toF b.prec 0) = true → fgt b.prec farg (toF b.prec 0) = true →
  let q := fdiv b.prec (fdiv b.prec sr (toF b.prec 2)) farg
  isNaN b.prec q = false ∧ fsign b.prec q = false ∧
  (isFinite b.prec q = false → cutoff b sr farg = none) ∧
  (isFinite b.prec q = true → ∃ k : Nat, (k : Int) = ⌊realOf b.prec q⌋ ∧
    cutoff b sr farg = if b.n / 2 < k + 1 then none else some (k + 1)) ∧
  ∀ c, cutoff b sr farg = some c → 1 ≤ c ∧ c ≤ b.n / 2 ∧ c ≤ b.n - c

/-- R142 and R144: nothing changes without a cutoff; with one, bin `k` is zeroed exactly when bin `N - k` is, bin 0
becomes real, the other bins stay, and a spectrum that is Hermitian as real numbers stays so. -/
def Obligations.MaskKeepsHermitianSymmetry : Prop := ∀ (p : Prec) (n c : Nat) (y : List Cplx),
  y.length = n → 1 ≤ c → 2 * c ≤ n →
  let z := maskFn n (some c) y
  let at' := fun (l : List Cplx) k => l.getD k ⟨0#64, 0#64⟩
  maskFn n none y = y ∧
  (∀ k, 1 ≤ k → k < n → ((c ≤ k ∧ k ≤ n - c) ↔ (c ≤ n - k ∧ n - k ≤ n - c))) ∧
  (∀ k, c ≤ k → k ≤ n - c → at' z k = ⟨0#64, 0#64⟩) ∧
  (at' z 0).im = 0#64 ∧ (at' z 0).re = (at' y 0).re ∧
  (∀ k, 1 ≤ k → k < n → ¬(c ≤ k ∧ k ≤ n - c) → at' z k = at' y k) ∧
  ((∀ k, 1 ≤ k → 2 * k < n → realOf p (at' y (n - k)).re = realOf p (at' y k).re ∧
      realOf p (at' y (n - k)).im = -realOf p (at' y k).im) →
    ∀ k, 1 ≤ k → 2 * k < n → realOf p (at' z (n - k)).re = realOf p (at' z k).re ∧
      realOf p (at' z (n - k)).im = -realOf p (at' z k).im)

/-! ## The arithmetic -/

/-- R14: rounding a positive real `m * 2^e`, of either sign, gives a nearest value, ties to even, unless it reaches the
bound from which on the result is an infinity, as IEEE 754 has it (PRESUMED, log 12). -/
def Obligations.RoundingIsNearestTiesToEven : Prop := ∀ (p : Prec) (neg : Bool) (m : Nat) (e : Int), 0 < m →
  let x : ℚ := (if neg then -1 else 1) * ((m : ℚ) * (2 : ℚ) ^ e)
  (|x| < overflowBound p → NearestEven p x (roundF p neg m e false)) ∧
  (overflowBound p ≤ |x| → roundF p neg m e false = infF p neg)

/-- R14, R110: sums, differences and products of finite values are the exact results rounded once to nearest even, below
the overflow bound. -/
def Obligations.SumsAndProductsAreRoundedOnce : Prop := ∀ (p : Prec) (a b : F),
  isFinite p a = true → isFinite p b = true →
  (|realOf p a + realOf p b| < overflowBound p → NearestEven p (realOf p a + realOf p b) (fadd p a b)) ∧
  (|realOf p a - realOf p b| < overflowBound p → NearestEven p (realOf p a - realOf p b) (fsub p a b)) ∧
  (|realOf p a * realOf p b| < overflowBound p → NearestEven p (realOf p a * realOf p b) (fmul p a b))

/-- R14, R110: quotients of finite values by a non-zero one are the exact quotients rounded once to nearest even, below
the overflow bound. -/
def Obligations.QuotientsAreRoundedOnce : Prop := ∀ (p : Prec) (a b : F),
  isFinite p a = true → isFinite p b = true → realOf p b ≠ 0 → |realOf p a / realOf p b| < overflowBound p →
  NearestEven p (realOf p a / realOf p b) (fdiv p a b)

/-- R110: when a sum, difference, product, quotient or square root is a NaN it is the canonical quiet NaN of the format;
it is one exactly when an operand is a NaN or the operation is invalid: infinities that cancel, zero times infinity, zero
over zero, infinity over infinity, the root of a negative value other than `-0.0` (the cases are IEEE 754's: PRESUMED, log
12). Negation flips the sign bit and nothing else. -/
def Obligations.NaNResultsAreCanonical : Prop := ∀ (p : Prec) (a b : F),
  (isNaN p (fadd p a b) = true → fadd p a b = canonNaN p) ∧ (isNaN p (fsub p a b) = true → fsub p a b = canonNaN p) ∧
  (isNaN p (fmul p a b) = true → fmul p a b = canonNaN p) ∧ (isNaN p (fdiv p a b) = true → fdiv p a b = canonNaN p) ∧
  (isNaN p (fsqrt p a) = true → fsqrt p a = canonNaN p) ∧
  (isNaN p (fadd p a b) = true ↔
    isNaN p a = true ∨ isNaN p b = true ∨ (IsInf p a ∧ IsInf p b ∧ fsign p a ≠ fsign p b)) ∧
  (isNaN p (fsub p a b) = true ↔
    isNaN p a = true ∨ isNaN p b = true ∨ (IsInf p a ∧ IsInf p b ∧ fsign p a = fsign p b)) ∧
  (isNaN p (fmul p a b) = true ↔
    isNaN p a = true ∨ isNaN p b = true ∨ (IsInf p a ∧ IsZero p b) ∨ (IsZero p a ∧ IsInf p b)) ∧
  (isNaN p (fdiv p a b) = true ↔
    isNaN p a = true ∨ isNaN p b = true ∨ (IsZero p a ∧ IsZero p b) ∨ (IsInf p a ∧ IsInf p b)) ∧
  (isNaN p (fsqrt p a) = true ↔ isNaN p a = true ∨ (fsign p a = true ∧ ¬IsZero p a)) ∧
  canonNaN p = (match p with | .binary32 => 0x7FC00000#64 | .binary64 => 0x7FF8000000000000#64) ∧
  fsign p (fneg p a) = !fsign p a ∧ fmag p (fneg p a) = fmag p a

/-- R202: the blend at `p = +0.0` is channel 0's sample and at `p = 1.0` channel 1's, when both are finite and the sample
is not a zero. -/
def Obligations.BlendEndsAreTheChannels : Prop := ∀ (p : Prec) (a b : F),
  Laid p a → Laid p b → isFinite p a = true → isFinite p b = true → fmag p a ≠ 0 → fmag p b ≠ 0 →
  blend p 0#64 a b = a ∧ blend p (toF p 1) a b = b

/-- R14: each comparison is false when an operand is NaN; of finite values it is the comparison of the real numbers they
stand for, so that `-0.0` equals `+0.0`; and the infinities lie above and below every other value. -/
def Obligations.ComparisonsOrderTheValues : Prop := ∀ (p : Prec) (a b : F),
  (isNaN p a = true ∨ isNaN p b = true →
    flt p a b = false ∧ fle p a b = false ∧ fgt p a b = false ∧ fge p a b = false) ∧
  (isFinite p a = true → isFinite p b = true →
    (flt p a b = true ↔ realOf p a < realOf p b) ∧ (fle p a b = true ↔ realOf p a ≤ realOf p b) ∧
    (fgt p a b = true ↔ realOf p b < realOf p a) ∧ (fge p a b = true ↔ realOf p b ≤ realOf p a)) ∧
  (IsZero p a → IsZero p b →
    flt p a b = false ∧ fle p a b = true ∧ fgt p a b = false ∧ fge p a b = true) ∧
  (IsInf p a → isNaN p b = false →
    (fsign p a = false → fge p a b = true ∧ flt p a b = false ∧
      (fgt p a b = true ↔ ¬(IsInf p b ∧ fsign p b = false)) ∧ (fle p a b = true ↔ IsInf p b ∧ fsign p b = false)) ∧
    (fsign p a = true → fle p a b = true ∧ fgt p a b = false ∧
      (flt p a b = true ↔ ¬(IsInf p b ∧ fsign p b = true)) ∧ (fge p a b = true ↔ IsInf p b ∧ fsign p b = true))) ∧
  (IsInf p b → isNaN p a = false →
    (fsign p b = false → fle p a b = true ∧ fgt p a b = false ∧
      (flt p a b = true ↔ ¬(IsInf p a ∧ fsign p a = false)) ∧ (fge p a b = true ↔ IsInf p a ∧ fsign p a = false)) ∧
    (fsign p b = true → fge p a b = true ∧ flt p a b = false ∧
      (fgt p a b = true ↔ ¬(IsInf p a ∧ fsign p a = true)) ∧ (fle p a b = true ↔ IsInf p a ∧ fsign p a = true)))
end

