-- ==== Sys2Proof/Laws/State.lean ====
section
/-! SUPPORT. One lemma per field per named update of State: what each leaves alone, and what it sets. -/

namespace Sys2Proof.Machine

/-! ### Fields after the completion of a command -/

@[simp] theorem State.finish_build (s : State) : (s.finish).build = s.build := rfl
@[simp] theorem State.finish_ctrl (s : State) : (s.finish).ctrl = s.ctrl := rfl
@[simp] theorem State.finish_fault (s : State) : (s.finish).fault = s.fault := rfl
@[simp] theorem State.finish_lastcmd (s : State) : (s.finish).lastcmd = s.lastcmd := rfl
@[simp] theorem State.finish_finfo (s : State) : (s.finish).finfo = s.finfo := rfl
@[simp] theorem State.finish_farg (s : State) : (s.finish).farg = s.farg := rfl
@[simp] theorem State.finish_sr (s : State) : (s.finish).sr = s.sr := rfl
@[simp] theorem State.finish_morphP (s : State) : (s.finish).morphP = s.morphP := rfl
@[simp] theorem State.finish_morphOut (s : State) : (s.finish).morphOut = s.morphOut := rfl
@[simp] theorem State.finish_ch0 (s : State) : (s.finish).ch0 = s.ch0 := rfl
@[simp] theorem State.finish_ch1 (s : State) : (s.finish).ch1 = s.ch1 := rfl
@[simp] theorem State.finish_slots (s : State) : (s.finish).slots = s.slots := rfl
@[simp] theorem State.finish_mem (s : State) : (s.finish).mem = s.mem := rfl
@[simp] theorem State.finish_scr (s : State) : (s.finish).scr = s.scr := rfl
@[simp] theorem State.finish_rst (s : State) : (s.finish).rst = s.rst := rfl
@[simp] theorem State.finish_out (s : State) : (s.finish).out = s.out := rfl
@[simp] theorem State.finish_reads (s : State) : (s.finish).reads = s.reads := rfl
@[simp] theorem State.finish_draws (s : State) : (s.finish).draws = s.draws := rfl
@[simp] theorem State.finish_turns (s : State) : (s.finish).turns = s.turns := rfl

/-! ### Fields after an output event -/

@[simp] theorem State.emit_build (s : State) (t : Tag) (v : F) : (s.emit t v).build = s.build := rfl
@[simp] theorem State.emit_ctrl (s : State) (t : Tag) (v : F) : (s.emit t v).ctrl = s.ctrl := rfl
@[simp] theorem State.emit_inflight (s : State) (t : Tag) (v : F) : (s.emit t v).inflight = s.inflight := rfl
@[simp] theorem State.emit_done (s : State) (t : Tag) (v : F) : (s.emit t v).done = s.done := rfl
@[simp] theorem State.emit_fault (s : State) (t : Tag) (v : F) : (s.emit t v).fault = s.fault := rfl
@[simp] theorem State.emit_lastcmd (s : State) (t : Tag) (v : F) : (s.emit t v).lastcmd = s.lastcmd := rfl
@[simp] theorem State.emit_finfo (s : State) (t : Tag) (v : F) : (s.emit t v).finfo = s.finfo := rfl
@[simp] theorem State.emit_farg (s : State) (t : Tag) (v : F) : (s.emit t v).farg = s.farg := rfl
@[simp] theorem State.emit_sr (s : State) (t : Tag) (v : F) : (s.emit t v).sr = s.sr := rfl
@[simp] theorem State.emit_morphP (s : State) (t : Tag) (v : F) : (s.emit t v).morphP = s.morphP := rfl
@[simp] theorem State.emit_morphOut (s : State) (t : Tag) (v : F) : (s.emit t v).morphOut = s.morphOut := rfl
@[simp] theorem State.emit_ch0 (s : State) (t : Tag) (v : F) : (s.emit t v).ch0 = s.ch0 := rfl
@[simp] theorem State.emit_ch1 (s : State) (t : Tag) (v : F) : (s.emit t v).ch1 = s.ch1 := rfl
@[simp] theorem State.emit_slots (s : State) (t : Tag) (v : F) : (s.emit t v).slots = s.slots := rfl
@[simp] theorem State.emit_mem (s : State) (t : Tag) (v : F) : (s.emit t v).mem = s.mem := rfl
@[simp] theorem State.emit_scr (s : State) (t : Tag) (v : F) : (s.emit t v).scr = s.scr := rfl
@[simp] theorem State.emit_rst (s : State) (t : Tag) (v : F) : (s.emit t v).rst = s.rst := rfl
@[simp] theorem State.emit_reads (s : State) (t : Tag) (v : F) : (s.emit t v).reads = s.reads := rfl
@[simp] theorem State.emit_draws (s : State) (t : Tag) (v : F) : (s.emit t v).draws = s.draws := rfl
@[simp] theorem State.emit_turns (s : State) (t : Tag) (v : F) : (s.emit t v).turns = s.turns := rfl

/-! ### Fields after a recorded host read -/

@[simp] theorem State.answer_build (s : State) (a : Word32) (v : Word) : (s.answer a v).build = s.build := rfl
@[simp] theorem State.answer_ctrl (s : State) (a : Word32) (v : Word) : (s.answer a v).ctrl = s.ctrl := rfl
@[simp] theorem State.answer_inflight (s : State) (a : Word32) (v : Word) : (s.answer a v).inflight = s.inflight := rfl
@[simp] theorem State.answer_done (s : State) (a : Word32) (v : Word) : (s.answer a v).done = s.done := rfl
@[simp] theorem State.answer_fault (s : State) (a : Word32) (v : Word) : (s.answer a v).fault = s.fault := rfl
@[simp] theorem State.answer_lastcmd (s : State) (a : Word32) (v : Word) : (s.answer a v).lastcmd = s.lastcmd := rfl
@[simp] theorem State.answer_finfo (s : State) (a : Word32) (v : Word) : (s.answer a v).finfo = s.finfo := rfl
@[simp] theorem State.answer_farg (s : State) (a : Word32) (v : Word) : (s.answer a v).farg = s.farg := rfl
@[simp] theorem State.answer_sr (s : State) (a : Word32) (v : Word) : (s.answer a v).sr = s.sr := rfl
@[simp] theorem State.answer_morphP (s : State) (a : Word32) (v : Word) : (s.answer a v).morphP = s.morphP := rfl
@[simp] theorem State.answer_morphOut (s : State) (a : Word32) (v : Word) : (s.answer a v).morphOut = s.morphOut := rfl
@[simp] theorem State.answer_ch0 (s : State) (a : Word32) (v : Word) : (s.answer a v).ch0 = s.ch0 := rfl
@[simp] theorem State.answer_ch1 (s : State) (a : Word32) (v : Word) : (s.answer a v).ch1 = s.ch1 := rfl
@[simp] theorem State.answer_slots (s : State) (a : Word32) (v : Word) : (s.answer a v).slots = s.slots := rfl
@[simp] theorem State.answer_mem (s : State) (a : Word32) (v : Word) : (s.answer a v).mem = s.mem := rfl
@[simp] theorem State.answer_scr (s : State) (a : Word32) (v : Word) : (s.answer a v).scr = s.scr := rfl
@[simp] theorem State.answer_rst (s : State) (a : Word32) (v : Word) : (s.answer a v).rst = s.rst := rfl
@[simp] theorem State.answer_out (s : State) (a : Word32) (v : Word) : (s.answer a v).out = s.out := rfl
@[simp] theorem State.answer_draws (s : State) (a : Word32) (v : Word) : (s.answer a v).draws = s.draws := rfl
@[simp] theorem State.answer_turns (s : State) (a : Word32) (v : Word) : (s.answer a v).turns = s.turns := rfl

/-! ### Fields after a write of buffer entries -/

@[simp] theorem State.bufWrite_build (s : State) (f : BitVec 2) (i : Nat) (ys : List Cplx) : (s.bufWrite f i ys).build = s.build := rfl
@[simp] theorem State.bufWrite_ctrl (s : State) (f : BitVec 2) (i : Nat) (ys : List Cplx) : (s.bufWrite f i ys).ctrl = s.ctrl := rfl
@[simp] theorem State.bufWrite_inflight (s : State) (f : BitVec 2) (i : Nat) (ys : List Cplx) : (s.bufWrite f i ys).inflight = s.inflight := rfl
@[simp] theorem State.bufWrite_done (s : State) (f : BitVec 2) (i : Nat) (ys : List Cplx) : (s.bufWrite f i ys).done = s.done := rfl
@[simp] theorem State.bufWrite_fault (s : State) (f : BitVec 2) (i : Nat) (ys : List Cplx) : (s.bufWrite f i ys).fault = s.fault := rfl
@[simp] theorem State.bufWrite_lastcmd (s : State) (f : BitVec 2) (i : Nat) (ys : List Cplx) : (s.bufWrite f i ys).lastcmd = s.lastcmd := rfl
@[simp] theorem State.bufWrite_finfo (s : State) (f : BitVec 2) (i : Nat) (ys : List Cplx) : (s.bufWrite f i ys).finfo = s.finfo := rfl
@[simp] theorem State.bufWrite_farg (s : State) (f : BitVec 2) (i : Nat) (ys : List Cplx) : (s.bufWrite f i ys).farg = s.farg := rfl
@[simp] theorem State.bufWrite_sr (s : State) (f : BitVec 2) (i : Nat) (ys : List Cplx) : (s.bufWrite f i ys).sr = s.sr := rfl
@[simp] theorem State.bufWrite_morphP (s : State) (f : BitVec 2) (i : Nat) (ys : List Cplx) : (s.bufWrite f i ys).morphP = s.morphP := rfl
@[simp] theorem State.bufWrite_morphOut (s : State) (f : BitVec 2) (i : Nat) (ys : List Cplx) : (s.bufWrite f i ys).morphOut = s.morphOut := rfl
@[simp] theorem State.bufWrite_ch0 (s : State) (f : BitVec 2) (i : Nat) (ys : List Cplx) : (s.bufWrite f i ys).ch0 = s.ch0 := rfl
@[simp] theorem State.bufWrite_ch1 (s : State) (f : BitVec 2) (i : Nat) (ys : List Cplx) : (s.bufWrite f i ys).ch1 = s.ch1 := rfl
@[simp] theorem State.bufWrite_slots (s : State) (f : BitVec 2) (i : Nat) (ys : List Cplx) : (s.bufWrite f i ys).slots = s.slots := rfl
@[simp] theorem State.bufWrite_scr (s : State) (f : BitVec 2) (i : Nat) (ys : List Cplx) : (s.bufWrite f i ys).scr = s.scr := rfl
@[simp] theorem State.bufWrite_rst (s : State) (f : BitVec 2) (i : Nat) (ys : List Cplx) : (s.bufWrite f i ys).rst = s.rst := rfl
@[simp] theorem State.bufWrite_out (s : State) (f : BitVec 2) (i : Nat) (ys : List Cplx) : (s.bufWrite f i ys).out = s.out := rfl
@[simp] theorem State.bufWrite_reads (s : State) (f : BitVec 2) (i : Nat) (ys : List Cplx) : (s.bufWrite f i ys).reads = s.reads := rfl
@[simp] theorem State.bufWrite_draws (s : State) (f : BitVec 2) (i : Nat) (ys : List Cplx) : (s.bufWrite f i ys).draws = s.draws := rfl
@[simp] theorem State.bufWrite_turns (s : State) (f : BitVec 2) (i : Nat) (ys : List Cplx) : (s.bufWrite f i ys).turns = s.turns := rfl

/-! ### Fields after a write of table samples -/

@[simp] theorem State.tabWrite_build (s : State) (t : Nat) (vs : List F) : (s.tabWrite t vs).build = s.build := rfl
@[simp] theorem State.tabWrite_ctrl (s : State) (t : Nat) (vs : List F) : (s.tabWrite t vs).ctrl = s.ctrl := rfl
@[simp] theorem State.tabWrite_inflight (s : State) (t : Nat) (vs : List F) : (s.tabWrite t vs).inflight = s.inflight := rfl
@[simp] theorem State.tabWrite_done (s : State) (t : Nat) (vs : List F) : (s.tabWrite t vs).done = s.done := rfl
@[simp] theorem State.tabWrite_fault (s : State) (t : Nat) (vs : List F) : (s.tabWrite t vs).fault = s.fault := rfl
@[simp] theorem State.tabWrite_lastcmd (s : State) (t : Nat) (vs : List F) : (s.tabWrite t vs).lastcmd = s.lastcmd := rfl
@[simp] theorem State.tabWrite_finfo (s : State) (t : Nat) (vs : List F) : (s.tabWrite t vs).finfo = s.finfo := rfl
@[simp] theorem State.tabWrite_farg (s : State) (t : Nat) (vs : List F) : (s.tabWrite t vs).farg = s.farg := rfl
@[simp] theorem State.tabWrite_sr (s : State) (t : Nat) (vs : List F) : (s.tabWrite t vs).sr = s.sr := rfl
@[simp] theorem State.tabWrite_morphP (s : State) (t : Nat) (vs : List F) : (s.tabWrite t vs).morphP = s.morphP := rfl
@[simp] theorem State.tabWrite_morphOut (s : State) (t : Nat) (vs : List F) : (s.tabWrite t vs).morphOut = s.morphOut := rfl
@[simp] theorem State.tabWrite_ch0 (s : State) (t : Nat) (vs : List F) : (s.tabWrite t vs).ch0 = s.ch0 := rfl
@[simp] theorem State.tabWrite_ch1 (s : State) (t : Nat) (vs : List F) : (s.tabWrite t vs).ch1 = s.ch1 := rfl
@[simp] theorem State.tabWrite_slots (s : State) (t : Nat) (vs : List F) : (s.tabWrite t vs).slots = s.slots := rfl
@[simp] theorem State.tabWrite_scr (s : State) (t : Nat) (vs : List F) : (s.tabWrite t vs).scr = s.scr := rfl
@[simp] theorem State.tabWrite_rst (s : State) (t : Nat) (vs : List F) : (s.tabWrite t vs).rst = s.rst := rfl
@[simp] theorem State.tabWrite_out (s : State) (t : Nat) (vs : List F) : (s.tabWrite t vs).out = s.out := rfl
@[simp] theorem State.tabWrite_reads (s : State) (t : Nat) (vs : List F) : (s.tabWrite t vs).reads = s.reads := rfl
@[simp] theorem State.tabWrite_draws (s : State) (t : Nat) (vs : List F) : (s.tabWrite t vs).draws = s.draws := rfl
@[simp] theorem State.tabWrite_turns (s : State) (t : Nat) (vs : List F) : (s.tabWrite t vs).turns = s.turns := rfl

/-! ### Fields after a write of a slot descriptor -/

@[simp] theorem State.setSlot_build (s : State) (t : Nat) (d : SlotDesc) : (s.setSlot t d).build = s.build := rfl
@[simp] theorem State.setSlot_ctrl (s : State) (t : Nat) (d : SlotDesc) : (s.setSlot t d).ctrl = s.ctrl := rfl
@[simp] theorem State.setSlot_inflight (s : State) (t : Nat) (d : SlotDesc) : (s.setSlot t d).inflight = s.inflight := rfl
@[simp] theorem State.setSlot_done (s : State) (t : Nat) (d : SlotDesc) : (s.setSlot t d).done = s.done := rfl
@[simp] theorem State.setSlot_fault (s : State) (t : Nat) (d : SlotDesc) : (s.setSlot t d).fault = s.fault := rfl
@[simp] theorem State.setSlot_lastcmd (s : State) (t : Nat) (d : SlotDesc) : (s.setSlot t d).lastcmd = s.lastcmd := rfl
@[simp] theorem State.setSlot_finfo (s : State) (t : Nat) (d : SlotDesc) : (s.setSlot t d).finfo = s.finfo := rfl
@[simp] theorem State.setSlot_farg (s : State) (t : Nat) (d : SlotDesc) : (s.setSlot t d).farg = s.farg := rfl
@[simp] theorem State.setSlot_sr (s : State) (t : Nat) (d : SlotDesc) : (s.setSlot t d).sr = s.sr := rfl
@[simp] theorem State.setSlot_morphP (s : State) (t : Nat) (d : SlotDesc) : (s.setSlot t d).morphP = s.morphP := rfl
@[simp] theorem State.setSlot_morphOut (s : State) (t : Nat) (d : SlotDesc) : (s.setSlot t d).morphOut = s.morphOut := rfl
@[simp] theorem State.setSlot_ch0 (s : State) (t : Nat) (d : SlotDesc) : (s.setSlot t d).ch0 = s.ch0 := rfl
@[simp] theorem State.setSlot_ch1 (s : State) (t : Nat) (d : SlotDesc) : (s.setSlot t d).ch1 = s.ch1 := rfl
@[simp] theorem State.setSlot_mem (s : State) (t : Nat) (d : SlotDesc) : (s.setSlot t d).mem = s.mem := rfl
@[simp] theorem State.setSlot_scr (s : State) (t : Nat) (d : SlotDesc) : (s.setSlot t d).scr = s.scr := rfl
@[simp] theorem State.setSlot_rst (s : State) (t : Nat) (d : SlotDesc) : (s.setSlot t d).rst = s.rst := rfl
@[simp] theorem State.setSlot_out (s : State) (t : Nat) (d : SlotDesc) : (s.setSlot t d).out = s.out := rfl
@[simp] theorem State.setSlot_reads (s : State) (t : Nat) (d : SlotDesc) : (s.setSlot t d).reads = s.reads := rfl
@[simp] theorem State.setSlot_draws (s : State) (t : Nat) (d : SlotDesc) : (s.setSlot t d).draws = s.draws := rfl
@[simp] theorem State.setSlot_turns (s : State) (t : Nat) (d : SlotDesc) : (s.setSlot t d).turns = s.turns := rfl

/-! ### Fields after a write of a channel's registers -/

@[simp] theorem State.setChan_build (s : State) (c : Chan) (r : Channel) : (s.setChan c r).build = s.build := by cases c <;> rfl
@[simp] theorem State.setChan_ctrl (s : State) (c : Chan) (r : Channel) : (s.setChan c r).ctrl = s.ctrl := by cases c <;> rfl
@[simp] theorem State.setChan_inflight (s : State) (c : Chan) (r : Channel) : (s.setChan c r).inflight = s.inflight := by cases c <;> rfl
@[simp] theorem State.setChan_done (s : State) (c : Chan) (r : Channel) : (s.setChan c r).done = s.done := by cases c <;> rfl
@[simp] theorem State.setChan_fault (s : State) (c : Chan) (r : Channel) : (s.setChan c r).fault = s.fault := by cases c <;> rfl
@[simp] theorem State.setChan_lastcmd (s : State) (c : Chan) (r : Channel) : (s.setChan c r).lastcmd = s.lastcmd := by cases c <;> rfl
@[simp] theorem State.setChan_finfo (s : State) (c : Chan) (r : Channel) : (s.setChan c r).finfo = s.finfo := by cases c <;> rfl
@[simp] theorem State.setChan_farg (s : State) (c : Chan) (r : Channel) : (s.setChan c r).farg = s.farg := by cases c <;> rfl
@[simp] theorem State.setChan_sr (s : State) (c : Chan) (r : Channel) : (s.setChan c r).sr = s.sr := by cases c <;> rfl
@[simp] theorem State.setChan_morphP (s : State) (c : Chan) (r : Channel) : (s.setChan c r).morphP = s.morphP := by cases c <;> rfl
@[simp] theorem State.setChan_morphOut (s : State) (c : Chan) (r : Channel) : (s.setChan c r).morphOut = s.morphOut := by cases c <;> rfl
@[simp] theorem State.setChan_slots (s : State) (c : Chan) (r : Channel) : (s.setChan c r).slots = s.slots := by cases c <;> rfl
@[simp] theorem State.setChan_mem (s : State) (c : Chan) (r : Channel) : (s.setChan c r).mem = s.mem := by cases c <;> rfl
@[simp] theorem State.setChan_scr (s : State) (c : Chan) (r : Channel) : (s.setChan c r).scr = s.scr := by cases c <;> rfl
@[simp] theorem State.setChan_rst (s : State) (c : Chan) (r : Channel) : (s.setChan c r).rst = s.rst := by cases c <;> rfl
@[simp] theorem State.setChan_out (s : State) (c : Chan) (r : Channel) : (s.setChan c r).out = s.out := by cases c <;> rfl
@[simp] theorem State.setChan_reads (s : State) (c : Chan) (r : Channel) : (s.setChan c r).reads = s.reads := by cases c <;> rfl
@[simp] theorem State.setChan_draws (s : State) (c : Chan) (r : Channel) : (s.setChan c r).draws = s.draws := by cases c <;> rfl
@[simp] theorem State.setChan_turns (s : State) (c : Chan) (r : Channel) : (s.setChan c r).turns = s.turns := by cases c <;> rfl

/-! ### Fields after a move of a channel's position -/

@[simp] theorem State.moveTo_build (s : State) (c : Chan) (p : Nat) : (s.moveTo c p).build = s.build := by cases c <;> rfl
@[simp] theorem State.moveTo_ctrl (s : State) (c : Chan) (p : Nat) : (s.moveTo c p).ctrl = s.ctrl := by cases c <;> rfl
@[simp] theorem State.moveTo_inflight (s : State) (c : Chan) (p : Nat) : (s.moveTo c p).inflight = s.inflight := by cases c <;> rfl
@[simp] theorem State.moveTo_done (s : State) (c : Chan) (p : Nat) : (s.moveTo c p).done = s.done := by cases c <;> rfl
@[simp] theorem State.moveTo_fault (s : State) (c : Chan) (p : Nat) : (s.moveTo c p).fault = s.fault := by cases c <;> rfl
@[simp] theorem State.moveTo_lastcmd (s : State) (c : Chan) (p : Nat) : (s.moveTo c p).lastcmd = s.lastcmd := by cases c <;> rfl
@[simp] theorem State.moveTo_finfo (s : State) (c : Chan) (p : Nat) : (s.moveTo c p).finfo = s.finfo := by cases c <;> rfl
@[simp] theorem State.moveTo_farg (s : State) (c : Chan) (p : Nat) : (s.moveTo c p).farg = s.farg := by cases c <;> rfl
@[simp] theorem State.moveTo_sr (s : State) (c : Chan) (p : Nat) : (s.moveTo c p).sr = s.sr := by cases c <;> rfl
@[simp] theorem State.moveTo_morphP (s : State) (c : Chan) (p : Nat) : (s.moveTo c p).morphP = s.morphP := by cases c <;> rfl
@[simp] theorem State.moveTo_morphOut (s : State) (c : Chan) (p : Nat) : (s.moveTo c p).morphOut = s.morphOut := by cases c <;> rfl
@[simp] theorem State.moveTo_slots (s : State) (c : Chan) (p : Nat) : (s.moveTo c p).slots = s.slots := by cases c <;> rfl
@[simp] theorem State.moveTo_mem (s : State) (c : Chan) (p : Nat) : (s.moveTo c p).mem = s.mem := by cases c <;> rfl
@[simp] theorem State.moveTo_scr (s : State) (c : Chan) (p : Nat) : (s.moveTo c p).scr = s.scr := by cases c <;> rfl
@[simp] theorem State.moveTo_out (s : State) (c : Chan) (p : Nat) : (s.moveTo c p).out = s.out := by cases c <;> rfl
@[simp] theorem State.moveTo_reads (s : State) (c : Chan) (p : Nat) : (s.moveTo c p).reads = s.reads := by cases c <;> rfl
@[simp] theorem State.moveTo_draws (s : State) (c : Chan) (p : Nat) : (s.moveTo c p).draws = s.draws := by cases c <;> rfl
@[simp] theorem State.moveTo_turns (s : State) (c : Chan) (p : Nat) : (s.moveTo c p).turns = s.turns := by cases c <;> rfl

/-! ### Fields after taking a fault -/

@[simp] theorem State.raise_build (s : State) (c : FaultCode) (v : Word) : (s.raise c v).build = s.build := by unfold State.raise; split <;> rfl
@[simp] theorem State.raise_ctrl (s : State) (c : FaultCode) (v : Word) : (s.raise c v).ctrl = s.ctrl := by unfold State.raise; split <;> rfl
@[simp] theorem State.raise_inflight (s : State) (c : FaultCode) (v : Word) : (s.raise c v).inflight = s.inflight := by unfold State.raise; split <;> rfl
@[simp] theorem State.raise_done (s : State) (c : FaultCode) (v : Word) : (s.raise c v).done = s.done := by unfold State.raise; split <;> rfl
@[simp] theorem State.raise_lastcmd (s : State) (c : FaultCode) (v : Word) : (s.raise c v).lastcmd = s.lastcmd := by unfold State.raise; split <;> rfl
@[simp] theorem State.raise_farg (s : State) (c : FaultCode) (v : Word) : (s.raise c v).farg = s.farg := by unfold State.raise; split <;> rfl
@[simp] theorem State.raise_sr (s : State) (c : FaultCode) (v : Word) : (s.raise c v).sr = s.sr := by unfold State.raise; split <;> rfl
@[simp] theorem State.raise_morphP (s : State) (c : FaultCode) (v : Word) : (s.raise c v).morphP = s.morphP := by unfold State.raise; split <;> rfl
@[simp] theorem State.raise_morphOut (s : State) (c : FaultCode) (v : Word) : (s.raise c v).morphOut = s.morphOut := by unfold State.raise; split <;> rfl
@[simp] theorem State.raise_ch0 (s : State) (c : FaultCode) (v : Word) : (s.raise c v).ch0 = s.ch0 := by unfold State.raise; split <;> rfl
@[simp] theorem State.raise_ch1 (s : State) (c : FaultCode) (v : Word) : (s.raise c v).ch1 = s.ch1 := by unfold State.raise; split <;> rfl
@[simp] theorem State.raise_slots (s : State) (c : FaultCode) (v : Word) : (s.raise c v).slots = s.slots := by unfold State.raise; split <;> rfl
@[simp] theorem State.raise_mem (s : State) (c : FaultCode) (v : Word) : (s.raise c v).mem = s.mem := by unfold State.raise; split <;> rfl
@[simp] theorem State.raise_scr (s : State) (c : FaultCode) (v : Word) : (s.raise c v).scr = s.scr := by unfold State.raise; split <;> rfl
@[simp] theorem State.raise_rst (s : State) (c : FaultCode) (v : Word) : (s.raise c v).rst = s.rst := by unfold State.raise; split <;> rfl
@[simp] theorem State.raise_out (s : State) (c : FaultCode) (v : Word) : (s.raise c v).out = s.out := by unfold State.raise; split <;> rfl
@[simp] theorem State.raise_reads (s : State) (c : FaultCode) (v : Word) : (s.raise c v).reads = s.reads := by unfold State.raise; split <;> rfl
@[simp] theorem State.raise_draws (s : State) (c : FaultCode) (v : Word) : (s.raise c v).draws = s.draws := by unfold State.raise; split <;> rfl
@[simp] theorem State.raise_turns (s : State) (c : FaultCode) (v : Word) : (s.raise c v).turns = s.turns := by unfold State.raise; split <;> rfl

/-! ### Fields after the issue of a command -/

@[simp] theorem State.issue_build (s : State) (w : Word32) (o : Option FaultCode) : (s.issue w o).build = s.build := by
  unfold State.issue; split
  · rfl
  · split
    · exact State.raise_build ..
    · rfl
@[simp] theorem State.issue_ctrl (s : State) (w : Word32) (o : Option FaultCode) : (s.issue w o).ctrl = s.ctrl := by
  unfold State.issue; split
  · rfl
  · split
    · exact State.raise_ctrl ..
    · rfl
@[simp] theorem State.issue_farg (s : State) (w : Word32) (o : Option FaultCode) : (s.issue w o).farg = s.farg := by
  unfold State.issue; split
  · rfl
  · split
    · exact State.raise_farg ..
    · rfl
@[simp] theorem State.issue_sr (s : State) (w : Word32) (o : Option FaultCode) : (s.issue w o).sr = s.sr := by
  unfold State.issue; split
  · rfl
  · split
    · exact State.raise_sr ..
    · rfl
@[simp] theorem State.issue_morphP (s : State) (w : Word32) (o : Option FaultCode) : (s.issue w o).morphP = s.morphP := by
  unfold State.issue; split
  · rfl
  · split
    · exact State.raise_morphP ..
    · rfl
@[simp] theorem State.issue_morphOut (s : State) (w : Word32) (o : Option FaultCode) : (s.issue w o).morphOut = s.morphOut := by
  unfold State.issue; split
  · rfl
  · split
    · exact State.raise_morphOut ..
    · rfl
@[simp] theorem State.issue_ch0 (s : State) (w : Word32) (o : Option FaultCode) : (s.issue w o).ch0 = s.ch0 := by
  unfold State.issue; split
  · rfl
  · split
    · exact State.raise_ch0 ..
    · rfl
@[simp] theorem State.issue_ch1 (s : State) (w : Word32) (o : Option FaultCode) : (s.issue w o).ch1 = s.ch1 := by
  unfold State.issue; split
  · rfl
  · split
    · exact State.raise_ch1 ..
    · rfl
@[simp] theorem State.issue_slots (s : State) (w : Word32) (o : Option FaultCode) : (s.issue w o).slots = s.slots := by
  unfold State.issue; split
  · rfl
  · split
    · exact State.raise_slots ..
    · rfl
@[simp] theorem State.issue_mem (s : State) (w : Word32) (o : Option FaultCode) : (s.issue w o).mem = s.mem := by
  unfold State.issue; split
  · rfl
  · split
    · exact State.raise_mem ..
    · rfl
@[simp] theorem State.issue_scr (s : State) (w : Word32) (o : Option FaultCode) : (s.issue w o).scr = s.scr := by
  unfold State.issue; split
  · rfl
  · split
    · exact State.raise_scr ..
    · rfl
@[simp] theorem State.issue_rst (s : State) (w : Word32) (o : Option FaultCode) : (s.issue w o).rst = s.rst := by
  unfold State.issue; split
  · rfl
  · split
    · exact State.raise_rst ..
    · rfl
@[simp] theorem State.issue_out (s : State) (w : Word32) (o : Option FaultCode) : (s.issue w o).out = s.out := by
  unfold State.issue; split
  · rfl
  · split
    · exact State.raise_out ..
    · rfl
@[simp] theorem State.issue_reads (s : State) (w : Word32) (o : Option FaultCode) : (s.issue w o).reads = s.reads := by
  unfold State.issue; split
  · rfl
  · split
    · exact State.raise_reads ..
    · rfl
@[simp] theorem State.issue_draws (s : State) (w : Word32) (o : Option FaultCode) : (s.issue w o).draws = s.draws := by
  unfold State.issue; split
  · rfl
  · split
    · exact State.raise_draws ..
    · rfl
@[simp] theorem State.issue_turns (s : State) (w : Word32) (o : Option FaultCode) : (s.issue w o).turns = s.turns := by
  unfold State.issue; split
  · rfl
  · split
    · exact State.raise_turns ..
    · rfl

/-! ### What each update sets -/

@[simp] theorem State.finish_inflight (s : State) : s.finish.inflight = none := rfl
@[simp] theorem State.finish_done (s : State) : s.finish.done = true := rfl
@[simp] theorem State.emit_out (s : State) (t : Tag) (v : F) : (s.emit t v).out = s.out ++ [⟨t, v⟩] := rfl
@[simp] theorem State.answer_reads (s : State) (a : Word32) (v : Word) : (s.answer a v).reads = s.reads ++ [⟨a, v⟩] := rfl
@[simp] theorem State.bufWrite_mem (s : State) (f : BitVec 2) (i : Nat) (ys : List Cplx) :
    (s.bufWrite f i ys).mem = s.mem.storeWords (bufAddr f i) (ys.flatMap fun y => [y.re, y.im]) := rfl
@[simp] theorem State.tabWrite_mem (s : State) (t : Nat) (vs : List F) :
    (s.tabWrite t vs).mem = s.mem.storeWords (tabAddr s.build t 0) vs := rfl
@[simp] theorem State.setSlot_slots (s : State) (t : Nat) (d : SlotDesc) : (s.setSlot t d).slots = s.slots.set t d := rfl
@[simp] theorem State.setChan_chan (s : State) (c : Chan) (r : Channel) : (s.setChan c r).chan c = r := by
  cases c <;> rfl
theorem State.setChan_chan_ne (s : State) {c d : Chan} (h : d ≠ c) (r : Channel) : (s.setChan c r).chan d = s.chan d := by
  cases c <;> cases d <;> first | rfl | exact absurd rfl h
theorem State.raise_of_none {s : State} (h : s.fault = none) (c : FaultCode) (v : Word) :
    s.raise c v = { s with fault := some c, finfo := v } := by simp [State.raise, h]
theorem State.raise_of_fault {s : State} (h : s.faulted = true) (c : FaultCode) (v : Word) : s.raise c v = s := by
  cases hf : s.fault <;> simp_all [State.raise, State.faulted]
theorem State.issue_of_fault {s : State} (h : s.faulted = true) (w : Word32) (o : Option FaultCode) : s.issue w o = s := by
  simp [State.issue, h]
theorem State.issue_accepts {s : State} (h : s.fault = none) (w : Word32) :
    s.issue w none = { s with lastcmd := w, inflight := some w, done := false } := by
  simp [State.issue, State.faulted, h]
theorem State.issue_faults {s : State} (h : s.fault = none) (w : Word32) (c : FaultCode) :
    s.issue w (some c) = { s with fault := some c, finfo := w.setWidth 64 } := by
  simp [State.issue, State.faulted, h, State.raise]

/-! ### Views that depend on few fields -/

@[simp] theorem State.finish_fAt (s : State) (a : Nat) : s.finish.fAt a = s.fAt a := rfl
@[simp] theorem State.finish_bufRead (s : State) (f : BitVec 2) (i : Nat) : s.finish.bufRead f i = s.bufRead f i := rfl
@[simp] theorem State.finish_bufEntries (s : State) (f : BitVec 2) : s.finish.bufEntries f = s.bufEntries f := rfl
@[simp] theorem State.finish_tabRead (s : State) (t j : Nat) : s.finish.tabRead t j = s.tabRead t j := rfl
@[simp] theorem State.finish_chan (s : State) (c : Chan) : s.finish.chan c = s.chan c := by cases c <;> rfl
@[simp] theorem State.finish_slot (s : State) (t : Nat) : s.finish.slot t = s.slot t := rfl
@[simp] theorem State.setSlot_fAt (s : State) (t : Nat) (d : SlotDesc) (a : Nat) : (s.setSlot t d).fAt a = s.fAt a := rfl
@[simp] theorem State.setSlot_bufEntries (s : State) (t : Nat) (d : SlotDesc) (f : BitVec 2) :
    (s.setSlot t d).bufEntries f = s.bufEntries f := rfl
@[simp] theorem State.setSlot_tabRead (s : State) (t : Nat) (d : SlotDesc) (u j : Nat) :
    (s.setSlot t d).tabRead u j = s.tabRead u j := rfl

theorem State.busy_eq (s : State) : s.busy = s.inflight.isSome := rfl
@[simp] theorem State.chan_c0 (s : State) : s.chan .c0 = s.ch0 := rfl
@[simp] theorem State.chan_c1 (s : State) : s.chan .c1 = s.ch1 := rfl

/-- Reading an F word looks at the build and the memory only. -/
theorem State.fAt_congr {s t : State} (hb : t.build = s.build) {a : Nat} (hm : t.mem.wordAt a = s.mem.wordAt a) :
    t.fAt a = s.fAt a := by simp [State.fAt, hb, hm]

end Sys2Proof.Machine
end

