-- ==== Sys2Proof/Laws/Command.lean ====
section
/-! SUPPORT. What the shared operations of the lifecycle can do: a command's step, the host port, the engine's turn and the step, each said once. -/

namespace Sys2Proof.Machine

/-- What a command writes at its completion, before the lifecycle bits (R270): the effect each meaning passes to
`command`. -/
def effectOf (i : Instr) (s : State) : State :=
  match i with
  | .nop => s
  | .fftFwd bs bd => s.bufWrite bd 0 (transform s.build .fwd (s.bufEntries bs))
  | .fftFwdr bs bd => s.bufWrite bd 0 (transform s.build .fwd (realInput (s.bufEntries bs)))
  | .fftInv bs bd => s.bufWrite bd 0 (transform s.build .inv (s.bufEntries bs))
  | .fftInvr bs slot => inverseReal (s.bufEntries bs) slot s
  | .mask bd => maskBuffer bd s
  | .build bs bd slot => buildBand bs bd slot s
  | .oscSetf c => s.setChan c (setf s.build s.slots s.sr s.farg (s.chan c))
  | .oscAdv c =>
    (s.moveTo c (advPos s.build (s.chan c))).emit (chanTag c) (s.sampleAt c (advPos s.build (s.chan c)))
  | .oscRetrig c => s.moveTo c 0
  | .morphSetf => { s with
      ch0 := setf s.build s.slots s.sr s.farg s.ch0, ch1 := setf s.build s.slots s.sr s.farg s.ch1 }
  | .morphAdv => morphAdvance s

/-- Every meaning is `command` with the instruction's own word, check and effect. -/
theorem exec_eq_command (i : Instr) (s : State) :
    exec i s = command (encode i) (operandFault i) (effectOf i) s := by cases i <;> rfl

/-! ## A command's step -/

theorem command_idle {w : Word32} {chk : State → Option FaultCode} {eff : State → State} {s : State}
    (h : s.inflight = none) : command w chk eff s = .next (s.issue w (chk s)) := by simp [command, h]

theorem command_completes {w w' : Word32} {chk : State → Option FaultCode} {eff : State → State} {s : State}
    (h : s.inflight = some w') (hc : chk s = none) : command w chk eff s = .next (eff s).finish := by
  simp [command, h, hc]

/-- The inversion of `command`: a next state is that of the issue or that of the completion. -/
theorem command_next_cases {w : Word32} {chk : State → Option FaultCode} {eff : State → State} {s t : State}
    (h : command w chk eff s = .next t) :
    (s.inflight = none ∧ t = s.issue w (chk s)) ∨
      (∃ w', s.inflight = some w' ∧ chk s = none ∧ t = (eff s).finish) := by
  unfold command at h
  split at h
  · next hi => exact .inl ⟨hi, by injection h with h; exact h.symm⟩
  · next w' hi =>
    split at h
    · next hc => exact .inr ⟨w', hi, hc, by injection h with h; exact h.symm⟩
    · cases h

/-- A command with none in flight is issued (R224). -/
theorem exec_idle {i : Instr} {s : State} (h : s.inflight = none) :
    exec i s = .next (s.issue (encode i) (operandFault i s)) := by
  rw [exec_eq_command]; exact command_idle h

/-- A command in flight whose checks pass completes (R270). -/
theorem exec_completes {i : Instr} {s : State} {w : Word32} (h : s.inflight = some w) (hc : operandFault i s = none) :
    exec i s = .next (effectOf i s).finish := by
  rw [exec_eq_command]; exact command_completes h hc

/-- The inversion of `exec`. -/
theorem exec_next_cases {i : Instr} {s t : State} (h : exec i s = .next t) :
    (s.inflight = none ∧ t = s.issue (encode i) (operandFault i s)) ∨
      (∃ w, s.inflight = some w ∧ operandFault i s = none ∧ t = (effectOf i s).finish) := by
  rw [exec_eq_command] at h; exact command_next_cases h

theorem exec_not_refused (i : Instr) (s : State) (r : Refusal) : exec i s ≠ .refused r := by
  rw [exec_eq_command]
  unfold command
  split
  · simp
  · split <;> simp

/-! ## The host port -/

theorem onCmdWrite_faulted {v : Word} {s : State} (h : s.faulted = true) : onCmdWrite v s = .next s := by
  simp [onCmdWrite, h]

theorem onCmdWrite_busy {v : Word} {s : State} (hf : s.faulted = false) (hb : s.busy = true) :
    onCmdWrite v s = .next (s.raise .cmdBusy ((v.setWidth 32).setWidth 64)) := by simp [onCmdWrite, hf, hb]

theorem onCmdWrite_illegal {v : Word} {s : State} {e : DecodeError} (hf : s.faulted = false) (hb : s.busy = false)
    (hd : decode (v.setWidth 32) = .error e) :
    onCmdWrite v s = .next (s.raise .illegalCmd ((v.setWidth 32).setWidth 64)) := by simp [onCmdWrite, hf, hb, hd]

theorem onCmdWrite_decoded {v : Word} {s : State} {i : Instr} (hf : s.faulted = false) (hb : s.busy = false)
    (hd : decode (v.setWidth 32) = .ok i) : onCmdWrite v s = exec i s := by simp [onCmdWrite, hf, hb, hd]

/-- What the write of a command word can do (R224), in full. -/
theorem onCmdWrite_cases (v : Word) (s : State) :
    (s.faulted = true ∧ onCmdWrite v s = .next s) ∨
    (s.faulted = false ∧ s.busy = true ∧ onCmdWrite v s = .next (s.raise .cmdBusy ((v.setWidth 32).setWidth 64))) ∨
    (s.faulted = false ∧ s.busy = false ∧ (∃ e, decode (v.setWidth 32) = .error e) ∧
      onCmdWrite v s = .next (s.raise .illegalCmd ((v.setWidth 32).setWidth 64))) ∨
    (s.faulted = false ∧ s.busy = false ∧ ∃ i, decode (v.setWidth 32) = .ok i ∧
      onCmdWrite v s = .next (s.issue (encode i) (operandFault i s))) := by
  cases hf : s.faulted with
  | true => exact .inl ⟨rfl, onCmdWrite_faulted hf⟩
  | false =>
    cases hb : s.busy with
    | true => exact .inr (.inl ⟨rfl, rfl, onCmdWrite_busy hf hb⟩)
    | false =>
      cases hd : decode (v.setWidth 32) with
      | error e => exact .inr (.inr (.inl ⟨rfl, rfl, ⟨e, rfl⟩, onCmdWrite_illegal hf hb hd⟩))
      | ok i =>
        refine .inr (.inr (.inr ⟨rfl, rfl, i, rfl, ?_⟩))
        rw [onCmdWrite_decoded hf hb hd]
        exact exec_idle (by simpa [State.busy] using hb)

/-- While `RST` is asserted no host write changes anything (R260 for the registers; log 5). -/
theorem hostWrite_inReset {a : Word32} {v : Word} {s : State} (h : s.rst = true) : hostWrite a v s = .next s := by
  simp [hostWrite, h]

/-- What a host write can do with `RST` released (R224, R272), in full: it always answers a next state. -/
theorem hostWrite_cases (a : Word32) (v : Word) {s : State} (hr : s.rst = false) :
    (locate s.build a = .cmd ∧ hostWrite a v s = onCmdWrite v s) ∨
    ((locate s.build a = .ctrl ∨ locate s.build a = .status) ∧
      hostWrite a v s = .next (s.writeLoc (locate s.build a) v)) ∨
    (locate s.build a ≠ .cmd ∧ locate s.build a ≠ .ctrl ∧ locate s.build a ≠ .status ∧ s.busy = true ∧
      hostWrite a v s = .next (s.raise .hostBusy (a.setWidth 64))) ∨
    (locate s.build a ≠ .cmd ∧ locate s.build a ≠ .ctrl ∧ locate s.build a ≠ .status ∧ s.busy = false ∧
      hostWrite a v s = .next (s.writeLoc (locate s.build a) v)) := by
  unfold hostWrite
  rw [if_neg (by simp [hr])]
  split
  · next h => exact .inl ⟨h, rfl⟩
  · next h => exact .inr (.inl ⟨.inl h, by rw [h]⟩)
  · next h => exact .inr (.inl ⟨.inr h, by rw [h]⟩)
  · next l h1 h2 h3 =>
    cases hb : s.busy with
    | true => exact .inr (.inr (.inl ⟨h1, h2, h3, rfl, by simp⟩))
    | false => exact .inr (.inr (.inr ⟨h1, h2, h3, rfl, by simp⟩))

/-- What a host read can do (R65, R72), in full: it records one answer and changes nothing else, but for the
counter of free values. -/
theorem hostRead_cases (a : Word32) (s : State) :
    (hostRead a s = s.answer a (s.readLoc (locate s.build a)) ∧
      (s.busy = false ∨ (locate s.build a).stableWhileBusy = true)) ∨
    (hostRead a s = { s.answer a (Config.busyRead s.draws) with draws := s.draws + 1 } ∧
      s.busy = true ∧ (locate s.build a).stableWhileBusy = false) := by
  unfold hostRead
  simp only
  split
  · next h => exact .inr ⟨rfl, by simpa using h⟩
  · next h =>
    refine .inl ⟨rfl, ?_⟩
    cases hb : s.busy <;> simp_all

/-- A host access answers a next state, or is refused for its width or alignment (R61). -/
theorem hostAccess_cases (x : Access) (s : State) :
    (x.served = false ∧ hostAccess x s = .refused .busError) ∨
    (x.served = true ∧ x.op = .read ∧ hostAccess x s = .next (hostRead x.addr s)) ∨
    (x.served = true ∧ ∃ v, x.op = .write v ∧ hostAccess x s = hostWrite x.addr v s) := by
  unfold hostAccess
  cases hs : x.served with
  | false => exact .inl ⟨rfl, by simp⟩
  | true =>
    cases ho : x.op with
    | read => exact .inr (.inl ⟨rfl, rfl, by simp⟩)
    | write v => exact .inr (.inr ⟨rfl, v, rfl, by simp⟩)

/-! ## Reset (R260) -/

/-- An assertion of `RST` leaves every register at its reset value. -/
theorem State.resetBy_atReset (s : State) (cells : List Host.Cell) (scr : List Cplx) : (s.resetBy cells scr).AtReset := rfl

/-- A machine at its reset values is idle. -/
theorem State.AtReset.inflight {s : State} (h : s.AtReset) : s.inflight = none := by rw [h]; rfl

/-- The release of `RST` leaves the registers as they are. -/
theorem State.AtReset.releaseRst {s : State} (h : s.AtReset) : s.releaseRst.AtReset := by
  unfold State.AtReset at *; rw [h]; rfl

/-- A host read leaves the registers at their reset values. -/
theorem State.AtReset.hostRead {s : State} (h : s.AtReset) (a : Word32) : (hostRead a s).AtReset := by
  rcases hostRead_cases a s with ⟨h1, _⟩ | ⟨_, h2, _⟩
  · rw [h1]; unfold State.AtReset State.answer at *; rw [h]; rfl
  · simp [State.busy, h.inflight] at h2

@[simp] theorem State.releaseRst_rst (s : State) : s.releaseRst.rst = false := rfl
@[simp] theorem State.resetBy_rst (s : State) (cells : List Host.Cell) (scr : List Cplx) :
    (s.resetBy cells scr).rst = true := rfl

/-! ## The engine -/

theorem engineTurn_idle {s : State} (h : s.inflight = none) : engineTurn s = .next s := by simp [engineTurn, h]

theorem engineTurn_decoded {s : State} {w : Word32} {i : Instr} (h : s.inflight = some w) (hd : decode w = .ok i) :
    engineTurn s = exec i s := by simp [engineTurn, h, hd]

/-- The inversion of the engine's turn: nothing, or the completion of the command in flight. -/
theorem engineTurn_next_cases {s t : State} (h : engineTurn s = .next t) :
    (s.inflight = none ∧ t = s) ∨
      (∃ w i, s.inflight = some w ∧ decode w = .ok i ∧ operandFault i s = none ∧ t = (effectOf i s).finish) := by
  cases hi : s.inflight with
  | none =>
    rw [engineTurn_idle hi] at h
    exact .inl ⟨rfl, by injection h with h; exact h.symm⟩
  | some w =>
    cases hd : decode w with
    | error e => simp [engineTurn, hi, hd] at h
    | ok i =>
      rw [engineTurn_decoded hi hd] at h
      rcases exec_next_cases h with ⟨h0, _⟩ | ⟨w', _, hc, ht⟩
      · simp [hi] at h0
      · exact .inr ⟨w, i, rfl, hd, hc, ht⟩

/-! ## The step -/

/-- The inversion of `step`: which of the moves of R270 a next state comes from. -/
theorem step_next_cases {s t : State} (h : step s = .next t) :
    (s.turns = [] ∧ engineTurn s = .next t) ∨
    (∃ x rest, s.turns = .host x :: rest ∧ hostAccess x { s with turns := rest } = .next t) ∨
    (∃ rest, s.turns = .wait :: rest ∧ s.busy = true ∧ engineTurn s = .next t) ∨
    (∃ rest, s.turns = .wait :: rest ∧ s.busy = false ∧ t = hostRead 0x018#32 { s with turns := rest }) ∨
    (∃ rest, s.turns = .engine :: rest ∧ engineTurn { s with turns := rest } = .next t) ∨
    (∃ cells scr rest, s.turns = .rst cells scr :: rest ∧ t = State.resetBy { s with turns := rest } cells scr) ∨
    (∃ rest, s.turns = .release :: rest ∧ t = State.releaseRst { s with turns := rest }) := by
  unfold step at h
  split at h
  · next ht => exact .inl ⟨ht, h⟩
  · next x rest ht => exact .inr (.inl ⟨x, rest, ht, h⟩)
  · next rest ht =>
    unfold waitTurn at h
    cases hb : s.busy with
    | true => exact .inr (.inr (.inl ⟨rest, ht, rfl, by simpa [hb] using h⟩))
    | false =>
      refine .inr (.inr (.inr (.inl ⟨rest, ht, rfl, ?_⟩)))
      simp [hb] at h
      exact h.symm
  · next rest ht => exact .inr (.inr (.inr (.inr (.inl ⟨rest, ht, h⟩))))
  · next cells scr rest ht =>
    refine .inr (.inr (.inr (.inr (.inr (.inl ⟨cells, scr, rest, ht, ?_⟩)))))
    injection h with h
    exact h.symm
  · next rest ht =>
    refine .inr (.inr (.inr (.inr (.inr (.inr ⟨rest, ht, ?_⟩)))))
    injection h with h
    exact h.symm

end Sys2Proof.Machine
end

