-- ==== Sys2Proof/Laws/Address.lean ====
section
/-! SUPPORT. The address map of R62 to R65 is one-to-one on aligned addresses, and what that says of host writes. -/

namespace Sys2Proof.Machine

/-- The offset of a channel register in its block (R36 to R46). -/
def ChanReg.offset : ChanReg → Nat
  | .setbase => 0x00
  | .setcnt => 0x08
  | .freq => 0x10
  | .selstat => 0x18
  | .curlen => 0x20
  | .curkern => 0x28
  | .pos => 0x30
  | .inc => 0x38
  | .bottom => 0x40
  | .top => 0x48
  | .cur => 0x50

/-- The address a location stands at (R99); 0 for RAZ/WI, which has no one address. -/
def Loc.address : Loc → Nat
  | .id => 0x000
  | .cfg => 0x008
  | .ctrl => 0x010
  | .status => 0x018
  | .cmd => 0x020
  | .finfo => 0x028
  | .farg => 0x030
  | .sr => 0x038
  | .morphP => 0x040
  | .morphOut => 0x048
  | .chan .c0 r => 0x100 + r.offset
  | .chan .c1 r => 0x180 + r.offset
  | .fword a => a
  | .slot t .maxf => 5 * 2 ^ 28 + 32 * t
  | .slot t .len => 5 * 2 ^ 28 + 32 * t + 8
  | .slot t .kern => 5 * 2 ^ 28 + 32 * t + 16
  | .raz => 0

theorem globalRegAt_address {o : Nat} {l : Loc} (h : globalRegAt o = some l) : o = l.address := by
  unfold globalRegAt at h
  split at h <;> simp at h <;> subst h <;> rfl

theorem chanRegAt_offset {o : Nat} {r : ChanReg} (h : chanRegAt o = some r) : o = r.offset := by
  unfold chanRegAt at h
  split at h <;> simp at h <;> subst h <;> rfl

/-- What region 0 holds at an offset stands at that offset. -/
theorem registerAt_address {o : Nat} (h : registerAt o ≠ .raz) : o = (registerAt o).address := by
  unfold registerAt at h ⊢
  split at h
  · next h1 =>
    simp only [h1, if_true]
    cases hg : globalRegAt o with
    | none => simp [hg] at h
    | some l => simpa using globalRegAt_address hg
  · next h1 =>
    simp only [h1, if_false]
    split at h
    · next h2 =>
      simp only [h2, if_true]
      cases hg : chanRegAt (o - 0x100) with
      | none => simp [hg] at h
      | some r => have := chanRegAt_offset hg; simp [Loc.address]; omega
    · next h2 =>
      simp only [h2, if_false]
      split at h
      · next h3 =>
        simp only [h3, if_true]
        cases hg : chanRegAt (o - 0x180) with
        | none => simp [hg] at h
        | some r => have := chanRegAt_offset hg; simp [Loc.address]; omega
      · exact absurd rfl h

/-- A descriptor word stands at its address, and belongs to a slot that exists. -/
theorem descriptorAt_address {b : Build} {o : Nat} (ho : o % 8 = 0) (h : descriptorAt b o ≠ .raz) :
    5 * 2 ^ 28 + o = (descriptorAt b o).address ∧ ∃ t k, descriptorAt b o = .slot t k ∧ t < b.tslots := by
  unfold descriptorAt at h ⊢
  simp only at h ⊢
  split at h
  · exact absurd rfl h
  · next ht =>
    rw [if_neg ht]
    split at h
    · next hk => exact ⟨by simp only [Loc.address]; omega, _, _, rfl, by omega⟩
    · next hk => exact ⟨by simp only [Loc.address]; omega, _, _, rfl, by omega⟩
    · next hk => exact ⟨by simp only [Loc.address]; omega, _, _, rfl, by omega⟩
    · exact absurd rfl h

/-- Every aligned address that holds something is the address of what it holds. -/
theorem locate_address {b : Build} {a : Word32} (ha : a.toNat % 8 = 0) (h : locate b a ≠ .raz) :
    a.toNat = (locate b a).address := by
  have hlt := a.isLt
  unfold locate at h ⊢
  simp only at h ⊢
  split at h
  · next hr =>
    rw [if_pos hr]
    have hmod : a.toNat % 2 ^ 28 = a.toNat := by omega
    rw [hmod] at h ⊢
    exact registerAt_address h
  · next hr =>
    rw [if_neg hr]
    split at h
    · next h1 =>
      rw [if_pos h1]
      split at h
      · next h2 => rw [if_pos h2]; rfl
      · exact absurd rfl h
    · next h1 =>
      rw [if_neg h1]
      split at h
      · next h2 =>
        rw [if_pos h2]
        split at h
        · next h3 => rw [if_pos h3]; rfl
        · exact absurd rfl h
      · next h2 =>
        rw [if_neg h2]
        split at h
        · next h3 =>
          rw [if_pos h3]
          have := (descriptorAt_address (by omega) h).1
          omega
        · exact absurd rfl h

/-- Two aligned addresses of one location are the same address. -/
theorem locate_injective {b : Build} {a x : Word32} (ha : a.toNat % 8 = 0) (hx : x.toNat % 8 = 0)
    (h : locate b a ≠ .raz) (he : locate b x = locate b a) : x = a := by
  have h1 := locate_address ha h
  have h2 := locate_address hx (he ▸ h)
  rw [he, ← h1] at h2
  exact BitVec.eq_of_toNat_eq h2

/-- Of the aligned addresses only `0x020` is `CMD` (R28). -/
theorem locate_cmd_iff (b : Build) (a : Word32) (ha : a.toNat % 8 = 0) : locate b a = .cmd ↔ a = 0x020#32 := by
  refine ⟨fun h => ?_, fun h => h ▸ rfl⟩
  have := locate_address (b := b) ha (by rw [h]; simp)
  rw [h] at this
  exact BitVec.eq_of_toNat_eq this

theorem locate_ctrl_iff (b : Build) (a : Word32) (ha : a.toNat % 8 = 0) : locate b a = .ctrl ↔ a = 0x010#32 := by
  refine ⟨fun h => ?_, fun h => h ▸ rfl⟩
  have := locate_address (b := b) ha (by rw [h]; simp)
  rw [h] at this
  exact BitVec.eq_of_toNat_eq this

theorem locate_status_iff (b : Build) (a : Word32) (ha : a.toNat % 8 = 0) : locate b a = .status ↔ a = 0x018#32 := by
  refine ⟨fun h => ?_, fun h => h ▸ rfl⟩
  have := locate_address (b := b) ha (by rw [h]; simp)
  rw [h] at this
  exact BitVec.eq_of_toNat_eq this

@[simp] theorem locate_id (b : Build) : locate b 0x000#32 = .id := rfl
@[simp] theorem locate_cfg (b : Build) : locate b 0x008#32 = .cfg := rfl
@[simp] theorem locate_ctrl (b : Build) : locate b 0x010#32 = .ctrl := rfl
@[simp] theorem locate_status (b : Build) : locate b 0x018#32 = .status := rfl
@[simp] theorem locate_cmd (b : Build) : locate b 0x020#32 = .cmd := rfl

/-- A write of an idle machine out of reset, other than of `CMD`, is made as its location allows (R65). -/
theorem hostWrite_idle {a : Word32} {v : Word} {s : State} (hr : s.rst = false) (hi : s.inflight = none)
    (h : locate s.build a ≠ .cmd) :
    hostWrite a v s = .next (s.writeLoc (locate s.build a) v) := by
  rcases hostWrite_cases a v hr with ⟨h1, _⟩ | ⟨_, h1⟩ | ⟨_, _, _, h1, _⟩ | ⟨_, _, _, _, h1⟩
  · exact absurd h1 h
  · exact h1
  · simp [State.busy, hi] at h1
  · exact h1

/-- What a write leaves alone whatever it writes: the lifecycle, the fault registers and the model's own fields. -/
theorem State.writeLoc_keeps (s : State) (l : Loc) (v : Word) :
    (s.writeLoc l v).build = s.build ∧ (s.writeLoc l v).inflight = s.inflight ∧ (s.writeLoc l v).fault = s.fault ∧
      (s.writeLoc l v).finfo = s.finfo ∧ (s.writeLoc l v).lastcmd = s.lastcmd ∧ (s.writeLoc l v).out = s.out ∧
      (s.writeLoc l v).turns = s.turns ∧ (s.writeLoc l v).rst = s.rst := by
  cases l <;> simp [State.writeLoc]

/-! ## The windows (R62 to R65) -/

/-- The sizes of a legal build (R9). -/
theorem legal_sizes {b : Build} (h : b.Legal) :
    2 ≤ b.n ∧ b.n ≤ 2 ^ 17 ∧ 2 ≤ b.lmax ∧ b.lmax ≤ 2 ^ 17 ∧ 1 ≤ b.tslots ∧ b.tslots ≤ 256 := by
  have h1 := Nat.pow_le_pow_right (n := 2) (by decide) h.log2n_pos
  have h2 := Nat.pow_le_pow_right (n := 2) (by decide) h.log2n_le
  have h3 := Nat.pow_le_pow_right (n := 2) (by decide) h.log2lmax_le
  have h4 := Nat.pow_le_pow_right (n := 2) (by decide) h.log2lmax_ge
  have h5 := h.tslots_le
  have h6 := h.tslots_pos
  unfold Build.n Build.lmax
  generalize 2 ^ b.log2n = x at *
  generalize 2 ^ b.log2lmax = y at *
  omega

/-- Table memory fills at most its region. -/
theorem legal_tables_le {b : Build} (h : b.Legal) : b.tslots * (8 * b.lmax) ≤ 2 ^ 28 := by
  have hs := legal_sizes h
  calc b.tslots * (8 * b.lmax) ≤ 256 * (8 * 2 ^ 17) := Nat.mul_le_mul (by omega) (by omega)
    _ = 2 ^ 28 := by decide

/-- The register at offset `r.offset` of a channel's block (R35). -/
theorem locate_channel (b : Build) {x : Word32} (c : Chan) (r : ChanReg) (hx : x.toNat = chanBase c + r.offset) :
    locate b x = .chan c r := by
  cases c <;> cases r <;> simp [locate, registerAt, chanRegAt, hx, chanBase, ChanReg.offset]

/-- Component `h` of entry `i` of buffer `f` (R63). -/
theorem locate_buffer {b : Build} (hb : b.Legal) {x : Word32} {f i h : Nat} (hf : f < 3) (hi : i < b.n) (hh : h < 2)
    (hx : x.toNat = (1 + f) * 2 ^ 28 + 16 * i + 8 * h) : locate b x = .fword x.toNat := by
  have hs := legal_sizes hb
  unfold locate
  simp only
  rw [if_neg (by omega), if_pos (by omega), if_pos (by omega)]

/-- Sample `j` of slot `t` (R64). -/
theorem locate_table {b : Build} (hb : b.Legal) {x : Word32} {t j : Nat} (ht : t < b.tslots) (hj : j < b.lmax)
    (hx : x.toNat = 4 * 2 ^ 28 + t * (8 * b.lmax) + 8 * j) : locate b x = .fword x.toNat := by
  have hs := legal_sizes hb
  have hT := legal_tables_le hb
  have hin : t * (8 * b.lmax) + 8 * j < b.tslots * (8 * b.lmax) := by
    calc t * (8 * b.lmax) + 8 * j < (t + 1) * (8 * b.lmax) := by rw [Nat.add_mul t 1]; omega
      _ ≤ b.tslots * (8 * b.lmax) := Nat.mul_le_mul_right _ ht
  unfold locate
  simp only
  rw [if_neg (by omega), if_neg (by omega), if_pos (by omega), if_pos]
  rw [Nat.div_lt_iff_lt_mul (by omega)]
  omega

/-- The three fields of the descriptor of slot `t` (R65). -/
theorem locate_descriptor {b : Build} (hb : b.Legal) {x : Word32} {t : Nat} (ht : t < b.tslots) :
    (x.toNat = 5 * 2 ^ 28 + 32 * t → locate b x = .slot t .maxf) ∧
    (x.toNat = 5 * 2 ^ 28 + 32 * t + 8 → locate b x = .slot t .len) ∧
    (x.toNat = 5 * 2 ^ 28 + 32 * t + 16 → locate b x = .slot t .kern) := by
  have hs := legal_sizes hb
  refine ⟨fun hx => ?_, fun hx => ?_, fun hx => ?_⟩ <;>
    (unfold locate descriptorAt
     simp only
     rw [if_neg (by omega), if_neg (by omega), if_neg (by omega), if_pos (by omega), if_neg (by omega),
       show x.toNat % 2 ^ 28 / 32 = t by omega])
  · simp only [show x.toNat % 2 ^ 28 / 8 % 4 = 0 by omega]
  · simp only [show x.toNat % 2 ^ 28 / 8 % 4 = 1 by omega]
  · simp only [show x.toNat % 2 ^ 28 / 8 % 4 = 2 by omega]

/-- Where R62 to R65 put nothing there is nothing. -/
theorem locate_absent {b : Build} (hb : b.Legal) {x : Word32} (h : Absent b x.toNat) : locate b x = .raz := by
  have hs := legal_sizes hb
  have hlt := x.isLt
  have hT := legal_tables_le hb
  unfold locate
  simp only
  generalize x.toNat = a at *
  rcases h with h | h | h | h | h | h | h | h | h | h
  · rw [if_pos (by omega), show a % 2 ^ 28 = a by omega]
    unfold registerAt
    rw [if_pos (by omega)]
    unfold globalRegAt
    split <;> first | omega | rfl
  · rw [if_pos (by omega), show a % 2 ^ 28 = a by omega]
    unfold registerAt
    rw [if_neg (by omega), if_pos (by omega)]
    unfold chanRegAt
    split <;> first | omega | rfl
  · rw [if_pos (by omega), show a % 2 ^ 28 = a by omega]
    unfold registerAt
    rw [if_neg (by omega), if_neg (by omega)]
    split
    · unfold chanRegAt
      split <;> first | omega | rfl
    · rfl
  · rw [if_neg (by omega), if_pos (by omega), if_neg (by omega)]
  · rw [if_neg (by omega), if_pos (by omega), if_neg (by omega)]
  · rw [if_neg (by omega), if_pos (by omega), if_neg (by omega)]
  · rw [if_neg (by omega), if_neg (by omega), if_pos (by omega), if_neg]
    rw [Nat.not_lt, Nat.le_div_iff_mul_le (by omega)]
    omega
  · obtain ⟨t, ht, rfl⟩ := h
    rw [if_neg (by omega), if_neg (by omega), if_neg (by omega), if_pos (by omega)]
    unfold descriptorAt
    simp only [show (0x50000000 + 32 * t + 24) % 2 ^ 28 / 8 % 4 = 3 by omega]
    split <;> rfl
  · rw [if_neg (by omega), if_neg (by omega), if_neg (by omega), if_pos (by omega)]
    unfold descriptorAt
    rw [if_pos (by omega)]
  · rw [if_neg (by omega), if_neg (by omega), if_neg (by omega), if_neg (by omega)]

/-- The word a host reads of an idle machine is that of the location at the address (R65). -/
theorem State.readsAt_iff {s : State} (hi : s.inflight = none) {a : Nat} (ha : a < 2 ^ 32) {v : Word} :
    s.ReadsAt a v ↔ s.readLoc (locate s.build (BitVec.ofNat 32 a)) = v := by
  have hx : ∀ x : Word32, hostRead x s = s.answer x (s.readLoc (locate s.build x)) := fun x => by
    simp [hostRead, State.busy, hi]
  refine ⟨fun h => ?_, fun h x hxa => ?_⟩
  · have := h (BitVec.ofNat 32 a) (by simp; omega)
    rw [hx] at this
    simpa [State.answer] using congrArg State.reads this
  · rw [hx, show x = BitVec.ofNat 32 a from BitVec.eq_of_toNat_eq (by simp [hxa]; omega), h]

end Sys2Proof.Machine
end

