-- ==== Sys2Proof/Laws/Checks.lean ====
section
/-! SUPPORT. What the operand checks answer (spec/60_exceptions.md R221, R222, R229). -/

namespace Sys2Proof.Machine

/-- Two faults have different codes (R221). -/
theorem FaultCode.code_injective {a b : FaultCode} (h : a.code = b.code) : a = b := by
  cases a <;> cases b <;> first | rfl | (revert h; decide)

theorem firstFault_eq_none {l : List (Bool × FaultCode)} : firstFault l = none ↔ ∀ x ∈ l, x.1 = false := by
  induction l with
  | nil => simp [firstFault]
  | cons x l ih =>
    obtain ⟨b, c⟩ := x
    cases b <;> simp [firstFault, ih]

/-- A list of checks in ascending code order answers the lowest code that fails (R222). -/
theorem firstFault_eq_some {l : List (Bool × FaultCode)}
    (hl : l.Pairwise fun x y => x.2.code.toNat ≤ y.2.code.toNat) {c : FaultCode} :
    firstFault l = some c ↔ (true, c) ∈ l ∧ ∀ d, (true, d) ∈ l → c.code.toNat ≤ d.code.toNat := by
  induction l with
  | nil => simp [firstFault]
  | cons x l ih =>
    obtain ⟨b, e⟩ := x
    rw [List.pairwise_cons] at hl
    cases b with
    | false => simp [firstFault, ih hl.2]
    | true =>
      simp only [firstFault, if_true, Option.some.injEq, List.mem_cons, Prod.mk.injEq, true_and]
      constructor
      · rintro rfl
        exact ⟨.inl rfl, fun d hd => hd.elim (fun h => h ▸ Nat.le_refl _) fun h => hl.1 _ h⟩
      · rintro ⟨h1 | h1, h2⟩
        · exact h1.symm
        · exact FaultCode.code_injective (BitVec.eq_of_toNat_eq (Nat.le_antisymm (hl.1 _ h1) (h2 e (.inl rfl))))

theorem lowerFault_eq_none {x y : Option FaultCode} : lowerFault x y = none ↔ x = none ∧ y = none := by
  cases x <;> cases y <;> simp [lowerFault]
  split <;> simp

/-- The checks of a command look at the build, `SR`, `FARG`, the channels and the descriptors only. -/
theorem operandFault_congr {s t : State} (hb : t.build = s.build) (hr : t.sr = s.sr) (hf : t.farg = s.farg)
    (h0 : t.ch0 = s.ch0) (h1 : t.ch1 = s.ch1) (hs : t.slots = s.slots) (i : Instr) :
    operandFault i t = operandFault i s := by
  have hc : ∀ c, t.chan c = s.chan c := by intro c; cases c <;> simp [h0, h1]
  cases i <;> simp [operandFault, checkMask, checkBuild, checkTable, checkMorphSetf, checkMorphAdv, hb, hr, hf, h0, h1, hs, hc]

theorem checkTable_eq_none {c : Chan} {s : State} : checkTable c s = none ↔ (s.chan c).valid = true := by
  cases hv : (s.chan c).valid <;> simp [checkTable, firstFault, hv]

theorem checkMorphAdv_eq_none {s : State} : checkMorphAdv s = none ↔ s.ch0.valid = true ∧ s.ch1.valid = true := by
  cases h0 : s.ch0.valid <;> cases h1 : s.ch1.valid <;> simp [checkMorphAdv, firstFault, h0, h1]

end Sys2Proof.Machine
end

