-- ==== Sys2Proof/Laws/Float.lean ====
section
/-! SUPPORT. The patterns the arithmetic yields are laid out as R34 says, and what the comparisons of R14 mean. -/

namespace Sys2Proof.Machine

/-! ## Layout -/

theorem fbits_lt (p : Prec) (v : F) : fbits p v < 2 ^ fmtWidth p := Nat.mod_lt _ (Nat.two_pow_pos _)

theorem fmtWidth_le (p : Prec) : fmtWidth p ≤ 64 := by cases p <;> decide

theorem two_pow_fmtWidth_le (p : Prec) : 2 ^ fmtWidth p ≤ 2 ^ 64 := Nat.pow_le_pow_right (by decide) (fmtWidth_le p)

/-- A word below the format's width is laid out. -/
theorem laid_ofNat {p : Prec} {n : Nat} (h : n < 2 ^ fmtWidth p) : Laid p (BitVec.ofNat 64 n) := by
  have h64 := Nat.lt_of_lt_of_le h (two_pow_fmtWidth_le p)
  unfold Laid layoutF fbits
  rw [BitVec.toNat_ofNat, Nat.mod_eq_of_lt h64, Nat.mod_eq_of_lt h]

/-- What `layoutF` yields is laid out. -/
@[simp] theorem layoutF_laid (p : Prec) (v : Word) : Laid p (layoutF p v) := laid_ofNat (fbits_lt p v)

@[simp] theorem layoutF_layoutF (p : Prec) (v : Word) : layoutF p (layoutF p v) = layoutF p v := layoutF_laid p v

@[simp] theorem laid_zero (p : Prec) : Laid p 0#64 := by cases p <;> rfl

@[simp] theorem layoutF_zero (p : Prec) : layoutF p 0#64 = 0#64 := laid_zero p

/-- Every word is laid out for binary64 (R34). -/
theorem layoutF_binary64 (v : Word) : layoutF .binary64 v = v := by
  unfold layoutF fbits
  rw [show fmtWidth .binary64 = 64 from rfl, Nat.mod_eq_of_lt v.isLt, BitVec.ofNat_toNat, BitVec.setWidth_eq]

theorem fbits_layoutF (p : Prec) (v : Word) : fbits p (layoutF p v) = fbits p v := by
  have h := fbits_lt p v
  have h64 := Nat.lt_of_lt_of_le h (two_pow_fmtWidth_le p)
  unfold layoutF
  rw [fbits, BitVec.toNat_ofNat, Nat.mod_eq_of_lt h64, Nat.mod_eq_of_lt h]

/-- Only the laid-out bits of an operand matter. -/
theorem unpack_layoutF (p : Prec) (v : Word) : unpack p (layoutF p v) = unpack p v := by
  have hs : fsign p (layoutF p v) = fsign p v := by unfold fsign; rw [fbits_layoutF]
  have hm : fmag p (layoutF p v) = fmag p v := by unfold fmag; rw [fbits_layoutF]
  unfold unpack
  rw [hs, hm]

theorem fmtSign_add_fmtInf_lt (p : Prec) : fmtSign p + fmtInf p < 2 ^ fmtWidth p := by cases p <;> decide

theorem packBits_laid {p : Prec} {neg : Bool} {mag : Nat} (h : mag ≤ fmtInf p) : Laid p (packBits p neg mag) := by
  have := fmtSign_add_fmtInf_lt p
  unfold packBits
  refine laid_ofNat ?_
  split <;> omega

@[simp] theorem canonNaN_laid (p : Prec) : Laid p (canonNaN p) := by cases p <;> rfl
@[simp] theorem infF_laid (p : Prec) (neg : Bool) : Laid p (infF p neg) := packBits_laid (Nat.le_refl _)
@[simp] theorem zeroF_laid (p : Prec) (neg : Bool) : Laid p (zeroF p neg) := packBits_laid (Nat.zero_le _)

theorem roundMag_le (p : Prec) (m : Nat) (e : Int) (sticky : Bool) : roundMag p m e sticky ≤ fmtInf p :=
  Nat.min_le_right _ _

@[simp] theorem roundF_laid (p : Prec) (neg : Bool) (m : Nat) (e : Int) (sticky : Bool) :
    Laid p (roundF p neg m e sticky) := by
  unfold roundF
  split
  · exact zeroF_laid p neg
  · exact packBits_laid (roundMag_le p m e sticky)

@[simp] theorem toF_laid (p : Prec) (n : Nat) : Laid p (toF p n) := roundF_laid ..

@[simp] theorem fadd_laid (p : Prec) (a b : F) : Laid p (fadd p a b) := by
  unfold fadd addFinite
  split
  · simp
  · simp
  · split <;> simp
  · simp
  · simp
  · simp only; split <;> simp

@[simp] theorem fsub_laid (p : Prec) (a b : F) : Laid p (fsub p a b) := fadd_laid ..

@[simp] theorem fmul_laid (p : Prec) (a b : F) : Laid p (fmul p a b) := by
  unfold fmul
  split
  · simp
  · simp
  · simp
  · split <;> simp
  · split <;> simp
  · simp

@[simp] theorem fdiv_laid (p : Prec) (a b : F) : Laid p (fdiv p a b) := by
  unfold fdiv divFinite
  split
  · simp
  · simp
  · simp
  · simp
  · simp
  · split
    · split <;> simp
    · simp

/-! ## Sign and magnitude -/

theorem two_mul_fmtSign (p : Prec) : 2 * fmtSign p = 2 ^ fmtWidth p := by cases p <;> decide

theorem fmag_lt (p : Prec) (v : F) : fmag p v < fmtSign p := Nat.mod_lt _ (by cases p <;> decide)

/-- A pattern is its sign bit and its magnitude bits. -/
theorem fbits_eq (p : Prec) (v : F) : fbits p v = (if fsign p v then fmtSign p else 0) + fmag p v := by
  have h1 := fbits_lt p v
  have h2 := two_mul_fmtSign p
  have h3 := fmag_lt p v
  unfold fmag at h3 ⊢
  unfold fsign
  by_cases h : fmtSign p ≤ fbits p v
  · rw [Nat.mod_eq_sub_mod h, Nat.mod_eq_of_lt (by omega)]
    simp [h]
  · rw [Nat.mod_eq_of_lt (by omega)]
    simp [h]

/-- Sign and magnitude of a packed pattern. -/
theorem fbits_packBits {p : Prec} {neg : Bool} {mag : Nat} (h : mag < fmtSign p) :
    fbits p (packBits p neg mag) = (if neg then fmtSign p else 0) + mag := by
  have h2 := two_mul_fmtSign p
  have h3 := two_pow_fmtWidth_le p
  unfold packBits fbits
  rw [BitVec.toNat_ofNat]
  cases neg <;> simp <;> rw [Nat.mod_eq_of_lt (by omega), Nat.mod_eq_of_lt (by omega)]

theorem fsign_packBits {p : Prec} {neg : Bool} {mag : Nat} (h : mag < fmtSign p) :
    fsign p (packBits p neg mag) = neg := by
  unfold fsign
  rw [fbits_packBits h]
  cases neg <;> simp
  omega

theorem fmag_packBits {p : Prec} {neg : Bool} {mag : Nat} (h : mag < fmtSign p) :
    fmag p (packBits p neg mag) = mag := by
  unfold fmag
  rw [fbits_packBits h]
  cases neg <;> simp <;> exact Nat.mod_eq_of_lt h

/-- A laid-out pattern is packed from its own sign and magnitude. -/
theorem packBits_fsign_fmag {p : Prec} {v : F} (h : Laid p v) : packBits p (fsign p v) (fmag p v) = v := by
  have hb := fbits_eq p v
  have hv : BitVec.ofNat 64 (fbits p v) = v := h
  conv_rhs => rw [← hv, hb]
  unfold packBits
  cases fsign p v <;> simp

/-! ## Comparisons (R14) -/

/-- Each comparison is false when an operand is NaN. -/
theorem flt_of_nan {p : Prec} {a b : F} (h : isNaN p a = true ∨ isNaN p b = true) : flt p a b = false := by
  rcases h with h | h <;> simp [flt, h]

theorem fle_of_nan {p : Prec} {a b : F} (h : isNaN p a = true ∨ isNaN p b = true) : fle p a b = false := by
  rcases h with h | h <;> simp [fle, h]

theorem flt_iff {p : Prec} {a b : F} :
    flt p a b = true ↔ isNaN p a = false ∧ isNaN p b = false ∧ orderKey p a < orderKey p b := by
  simp [flt, and_assoc]

theorem fle_iff {p : Prec} {a b : F} :
    fle p a b = true ↔ isNaN p a = false ∧ isNaN p b = false ∧ orderKey p a ≤ orderKey p b := by
  simp [fle, and_assoc]

/-- The empty window of R45: no frequency lies in `(+0.0, +0.0]`. -/
theorem inWindow_empty {p : Prec} {r : Channel} (hb : r.bottom = 0#64) (ht : r.top = 0#64) (f : F) :
    inWindow p r f = false := by
  cases h : inWindow p r f with
  | false => rfl
  | true =>
    simp only [inWindow, hb, ht, Bool.and_eq_true, flt_iff, fle_iff] at h
    omega

end Sys2Proof.Machine
end

