-- ==== Sys2Proof/Laws/Memory.lean ====
section
/-! SUPPORT. What a store does to every byte and every word, and that every memory operation keeps the canonical form. -/

namespace Sys2Proof.Machine

/-! ## Bytes -/

@[simp] theorem Mem.byteAt_nil (x : Nat) : Mem.byteAt [] x = 0#8 := rfl

theorem Mem.byteAt_cons (c : Host.Cell) (m : List Host.Cell) (x : Nat) :
    Mem.byteAt (c :: m) x = if c.1 = x then c.2 else Mem.byteAt m x := rfl

/-- An address no cell of the first part names is read from the second. -/
theorem Mem.byteAt_append_of_absent {m n : Mem} {x : Nat} (h : ∀ c ∈ m, c.1 ≠ x) :
    Mem.byteAt (m ++ n) x = Mem.byteAt n x := by
  induction m with
  | nil => rfl
  | cons c m ih =>
    have h1 : c.1 ≠ x := h c (by simp)
    have h2 := ih fun d hd => h d (by simp [hd])
    simpa [Mem.byteAt_cons, h1] using h2

/-- An address no cell of the second part names is read from the first. -/
theorem Mem.byteAt_append_left {m n : Mem} {x : Nat} (h : ∀ c ∈ n, c.1 ≠ x) :
    Mem.byteAt (m ++ n) x = Mem.byteAt m x := by
  induction m with
  | nil => simpa using Mem.byteAt_append_of_absent (n := []) h
  | cons c m ih => by_cases hx : c.1 = x <;> simp [Mem.byteAt_cons, hx, ih]

theorem Mem.byteAt_of_absent {m : Mem} {x : Nat} (h : ∀ c ∈ m, c.1 ≠ x) : m.byteAt x = 0#8 := by
  simpa using Mem.byteAt_append_of_absent (n := []) h

/-- Filtering on addresses keeps what stands at the addresses kept. -/
theorem Mem.byteAt_filter {m : Mem} {p : Nat → Bool} {x : Nat} (hx : p x = true) :
    Mem.byteAt (m.filter fun c => p c.1) x = m.byteAt x := by
  induction m with
  | nil => rfl
  | cons c m ih =>
    by_cases hc : p c.1 = true
    · simp [hc, Mem.byteAt_cons, ih]
    · have : c.1 ≠ x := fun e => hc (e ▸ hx)
      simp [hc, Mem.byteAt_cons, this, ih]

/-- The addresses of stored cells. -/
theorem cellsFrom_range {a : Nat} {bs : List Byte} : ∀ c ∈ cellsFrom a bs, a ≤ c.1 ∧ c.1 < a + bs.length := by
  induction bs generalizing a with
  | nil => simp [cellsFrom]
  | cons v bs ih =>
    intro c hc
    have tail : c ∈ cellsFrom (a + 1) bs → a ≤ c.1 ∧ c.1 < a + (v :: bs).length := fun h => by
      have := ih c h
      simp only [List.length_cons]
      omega
    simp only [cellsFrom] at hc
    split at hc
    · exact tail hc
    · rcases List.mem_cons.mp hc with rfl | h
      · simp
      · exact tail h

theorem byteAt_cellsFrom {a : Nat} {bs : List Byte} {x : Nat} (h : a ≤ x) :
    Mem.byteAt (cellsFrom a bs) x = bs.getD (x - a) 0#8 := by
  induction bs generalizing a with
  | nil => simp [cellsFrom]
  | cons v bs ih =>
    rcases Nat.eq_or_lt_of_le h with rfl | hlt
    · by_cases hv : v = 0#8
      · have : Mem.byteAt (cellsFrom (a + 1) bs) a = 0#8 :=
          Mem.byteAt_of_absent fun c hc e => by have := (cellsFrom_range c hc).1; omega
        simp [cellsFrom, hv, this]
      · simp [cellsFrom, hv, Mem.byteAt_cons]
    · have e : x - a = (x - (a + 1)) + 1 := by omega
      have tail : Mem.byteAt (cellsFrom (a + 1) bs) x = (v :: bs).getD (x - a) 0#8 := by
        rw [ih (by omega), e, List.getD_cons_succ]
      by_cases hv : v = 0#8
      · simpa [cellsFrom, hv] using tail
      · have : a ≠ x := by omega
        simpa [cellsFrom, hv, Mem.byteAt_cons, this] using tail

/-- The spec lemma of `store`: the stored bytes read back, every other byte is unchanged. -/
theorem Mem.byteAt_store (m : Mem) (a : Nat) (bs : List Byte) (x : Nat) :
    (m.store a bs).byteAt x = if a ≤ x ∧ x < a + bs.length then bs.getD (x - a) 0#8 else m.byteAt x := by
  unfold Mem.store
  have high : ∀ c ∈ m.filter (fun c => decide (a + bs.length ≤ c.1)), x < a + bs.length → c.1 ≠ x := by
    intro c hc hx e
    have := of_decide_eq_true (List.mem_filter.mp hc).2
    omega
  have low : ∀ c ∈ m.filter (fun c => decide (c.1 < a)), a ≤ x → c.1 ≠ x := by
    intro c hc hx e
    have := of_decide_eq_true (List.mem_filter.mp hc).2
    omega
  have mid : ∀ c ∈ cellsFrom a bs, ¬(a ≤ x ∧ x < a + bs.length) → c.1 ≠ x := by
    intro c hc hx e
    have := cellsFrom_range c hc
    omega
  by_cases hlo : x < a
  · have hn : ¬(a ≤ x ∧ x < a + bs.length) := by omega
    rw [if_neg hn, Mem.byteAt_append_left (fun c hc => high c hc (by omega)),
      Mem.byteAt_append_left (fun c hc => mid c hc hn)]
    exact Mem.byteAt_filter (p := fun k => decide (k < a)) (by simpa using hlo)
  · by_cases hhi : x < a + bs.length
    · rw [if_pos ⟨by omega, hhi⟩, Mem.byteAt_append_left (fun c hc => high c hc hhi),
        Mem.byteAt_append_of_absent (fun c hc => low c hc (by omega)), byteAt_cellsFrom (by omega)]
    · have hn : ¬(a ≤ x ∧ x < a + bs.length) := by omega
      rw [if_neg hn, List.append_assoc, Mem.byteAt_append_of_absent (fun c hc => low c hc (by omega)),
        Mem.byteAt_append_of_absent (fun c hc => mid c hc hn)]
      exact Mem.byteAt_filter (p := fun k => decide (a + bs.length ≤ k)) (by simpa using hhi)

/-! ## The canonical form -/

theorem Mem.wf_nil : Mem.wf [] := by simp [Mem.wf]

theorem cellsFrom_wf (a : Nat) (bs : List Byte) : Mem.wf (cellsFrom a bs) := by
  induction bs generalizing a with
  | nil => simp [cellsFrom, Mem.wf]
  | cons v bs ih =>
    simp only [cellsFrom]
    split
    · exact ih (a + 1)
    · rename_i hv
      refine ⟨List.pairwise_cons.mpr ⟨fun c hc => ?_, (ih (a + 1)).1⟩, ?_⟩
      · have := (cellsFrom_range c hc).1
        simp only
        omega
      · intro c hc
        rcases List.mem_cons.mp hc with rfl | h
        · exact hv
        · exact (ih (a + 1)).2 c h

/-- A store keeps the canonical form. -/
theorem Mem.store_wf {m : Mem} (h : m.wf) (a : Nat) (bs : List Byte) : (m.store a bs).wf := by
  have hc := cellsFrom_wf a bs
  unfold Mem.store
  refine ⟨List.pairwise_append.mpr ⟨List.pairwise_append.mpr ⟨h.1.filter _, hc.1, ?_⟩, h.1.filter _, ?_⟩, ?_⟩
  · intro x hx y hy
    have h1 := of_decide_eq_true (List.mem_filter.mp hx).2
    have h2 := (cellsFrom_range y hy).1
    omega
  · intro x hx y hy
    have h2 := of_decide_eq_true (List.mem_filter.mp hy).2
    rcases List.mem_append.mp hx with hx | hx
    · have h1 := of_decide_eq_true (List.mem_filter.mp hx).2
      omega
    · have h1 := (cellsFrom_range x hx).2
      omega
  · intro c hm
    rcases List.mem_append.mp hm with hm | hm
    · rcases List.mem_append.mp hm with hm | hm
      · exact h.2 c (List.mem_filter.mp hm).1
      · exact hc.2 c hm
    · exact h.2 c (List.mem_filter.mp hm).1

theorem Mem.storeWords_wf {m : Mem} (h : m.wf) (a : Nat) (ws : List Word) : (m.storeWords a ws).wf :=
  Mem.store_wf h a _

/-- A memory made from cells is canonical, whatever the cells are. -/
theorem Mem.ofCells_wf (cells : List Host.Cell) : (Mem.ofCells cells).wf := by
  have go : ∀ (cs : List Host.Cell) (m : Mem), m.wf → (cs.foldl (fun m c => m.store c.1 [c.2]) m).wf := by
    intro cs
    induction cs with
    | nil => exact fun m h => h
    | cons c cs ih => exact fun m h => ih _ (Mem.store_wf h _ _)
  exact go cells [] Mem.wf_nil

/-- In canonical form equal bytes mean equal memories. -/
theorem Mem.eq_of_bytes {m n : Mem} (hm : m.wf) (hn : n.wf) (h : ∀ x, m.byteAt x = n.byteAt x) : m = n := by
  induction m generalizing n with
  | nil =>
    cases n with
    | nil => rfl
    | cons c n =>
      have := h c.1
      simp [Mem.byteAt_cons] at this
      exact absurd this.symm (hn.2 c (by simp))
  | cons c m ih =>
    cases n with
    | nil =>
      have := h c.1
      simp [Mem.byteAt_cons] at this
      exact absurd this (hm.2 c (by simp))
    | cons d n =>
      have hm1 := List.pairwise_cons.mp hm.1
      have hn1 := List.pairwise_cons.mp hn.1
      have hc0 : c.2 ≠ 0#8 := hm.2 c (by simp)
      have hd0 : d.2 ≠ 0#8 := hn.2 d (by simp)
      have hk : c.1 = d.1 := by
        rcases Nat.lt_trichotomy c.1 d.1 with hlt | heq | hgt
        · have hz : Mem.byteAt n c.1 = 0#8 := Mem.byteAt_of_absent fun e he hx => by have := hn1.1 e he; omega
          have := h c.1
          simp [Mem.byteAt_cons, Nat.ne_of_gt hlt, hz] at this
          exact absurd this hc0
        · exact heq
        · have hz : Mem.byteAt m d.1 = 0#8 := Mem.byteAt_of_absent fun e he hx => by have := hm1.1 e he; omega
          have := h d.1
          simp [Mem.byteAt_cons, Nat.ne_of_gt hgt, hz] at this
          exact absurd this.symm hd0
      have hv : c.2 = d.2 := by simpa [Mem.byteAt_cons, hk] using h c.1
      have hcd : c = d := Prod.ext hk hv
      subst hcd
      congr 1
      refine ih ⟨hm1.2, fun e he => hm.2 e (by simp [he])⟩ ⟨hn1.2, fun e he => hn.2 e (by simp [he])⟩ fun x => ?_
      by_cases hx : c.1 = x
      · subst hx
        rw [Mem.byteAt_of_absent (m := m) fun e he hx => by have := hm1.1 e he; omega,
          Mem.byteAt_of_absent (m := n) fun e he hx => by have := hn1.1 e he; omega]
      · simpa [Mem.byteAt_cons, hx] using h x

/-! ## Words -/

@[simp] theorem wordBytes_length (v : Word) : (wordBytes v).length = 8 := rfl

/-- The eight bytes of a word make up the word (R67). -/
theorem word_of_bytes (v : Word) :
    v.extractLsb' 56 8 ++ v.extractLsb' 48 8 ++ v.extractLsb' 40 8 ++ v.extractLsb' 32 8 ++ v.extractLsb' 24 8 ++
      v.extractLsb' 16 8 ++ v.extractLsb' 8 8 ++ v.extractLsb' 0 8 = v := by
  ext i hi
  simp only [BitVec.getElem_append, BitVec.getElem_extractLsb']
  split <;> [skip; split <;> [skip; split <;> [skip; split <;> [skip; split <;> [skip; split <;> [skip; split]]]]]] <;>
    (rw [← BitVec.getLsbD_eq_getElem]; congr 1; omega)

/-- A word is determined by its eight bytes. -/
theorem Mem.wordAt_congr {m n : Mem} {a : Nat} (h : ∀ k < 8, m.byteAt (a + k) = n.byteAt (a + k)) :
    m.wordAt a = n.wordAt a := by
  unfold Mem.wordAt
  have h0 := h 0 (by omega)
  simp only [Nat.add_zero] at h0
  rw [h 7 (by omega), h 6 (by omega), h 5 (by omega), h 4 (by omega), h 3 (by omega), h 2 (by omega), h 1 (by omega), h0]

theorem flatMap_wordBytes_length (ws : List Word) : (ws.flatMap wordBytes).length = 8 * ws.length := by
  induction ws with
  | nil => rfl
  | cons v ws ih => simp [ih]; omega

theorem flatMap_wordBytes_getD (ws : List Word) (k j : Nat) (hj : j < 8) :
    (ws.flatMap wordBytes).getD (8 * k + j) 0#8 = (wordBytes (ws.getD k 0#64)).getD j 0#8 := by
  induction ws generalizing k with
  | nil =>
    have : ∀ i < 8, (wordBytes 0#64).getD i 0#8 = 0#8 := by decide
    simpa using (this j hj).symm
  | cons v ws ih =>
    rw [List.flatMap_cons]
    cases k with
    | zero => rw [List.getD_append _ _ _ _ (by simpa using hj)]; simp
    | succ k =>
      rw [List.getD_append_right _ _ _ _ (by simp; omega)]
      have : 8 * (k + 1) + j - (wordBytes v).length = 8 * k + j := by simp; omega
      rw [this, ih k]
      simp

/-- The spec lemma of `storeWords` on bytes: outside the words stored nothing changes. -/
theorem Mem.byteAt_storeWords_outside (m : Mem) (a : Nat) (ws : List Word) {x : Nat}
    (h : x < a ∨ a + 8 * ws.length ≤ x) : (m.storeWords a ws).byteAt x = m.byteAt x := by
  unfold Mem.storeWords
  rw [Mem.byteAt_store, if_neg]
  rw [flatMap_wordBytes_length]
  omega

/-- A byte inside the words stored. -/
theorem Mem.byteAt_storeWords_inside (m : Mem) (a : Nat) (ws : List Word) {k j : Nat} (hk : k < ws.length) (hj : j < 8) :
    (m.storeWords a ws).byteAt (a + 8 * k + j) = (wordBytes (ws.getD k 0#64)).getD j 0#8 := by
  unfold Mem.storeWords
  rw [Mem.byteAt_store, if_pos (by rw [flatMap_wordBytes_length]; omega)]
  have : a + 8 * k + j - a = 8 * k + j := by omega
  rw [this, flatMap_wordBytes_getD ws k j hj]

/-- Read after write: the `k`-th word stored reads back. -/
theorem Mem.wordAt_storeWords_inside (m : Mem) (a : Nat) (ws : List Word) {k : Nat} (hk : k < ws.length) :
    (m.storeWords a ws).wordAt (a + 8 * k) = ws.getD k 0#64 := by
  have h := fun j hj => Mem.byteAt_storeWords_inside m a ws (j := j) hk hj
  have h0 := h 0 (by omega)
  simp only [Nat.add_zero] at h0
  unfold Mem.wordAt
  rw [h 7 (by omega), h 6 (by omega), h 5 (by omega), h 4 (by omega), h 3 (by omega), h 2 (by omega), h 1 (by omega), h0]
  exact word_of_bytes _

/-- A word outside the words stored is unchanged. -/
theorem Mem.wordAt_storeWords_outside (m : Mem) (a : Nat) (ws : List Word) {x : Nat}
    (h : x + 8 ≤ a ∨ a + 8 * ws.length ≤ x) : (m.storeWords a ws).wordAt x = m.wordAt x :=
  Mem.wordAt_congr fun k hk => Mem.byteAt_storeWords_outside m a ws (by omega)

/-! ## Buffers and tables -/

theorem flatMap_pair_length (ys : List Cplx) : (ys.flatMap fun y => [y.re, y.im]).length = 2 * ys.length := by
  induction ys with
  | nil => rfl
  | cons y ys ih => simp [ih]; omega

theorem flatMap_pair_getD (ys : List Cplx) (k : Nat) :
    (ys.flatMap fun y => [y.re, y.im]).getD (2 * k) 0#64 = (ys.getD k ⟨0#64, 0#64⟩).re ∧
      (ys.flatMap fun y => [y.re, y.im]).getD (2 * k + 1) 0#64 = (ys.getD k ⟨0#64, 0#64⟩).im := by
  induction ys generalizing k with
  | nil => simp
  | cons y ys ih =>
    cases k with
    | zero => simp
    | succ k =>
      have h := ih k
      have e1 : 2 * (k + 1) = 2 * k + 1 + 1 := by omega
      rw [List.flatMap_cons, e1]
      simpa using h

/-- Entries written from `i` on read back (as R34 lays them out). -/
theorem State.bufRead_bufWrite_inside (s : State) (f : BitVec 2) (i : Nat) (ys : List Cplx) {k : Nat}
    (hk : k < ys.length) :
    (s.bufWrite f i ys).bufRead f (i + k) =
      ⟨layoutF s.build.prec (ys.getD k ⟨0#64, 0#64⟩).re, layoutF s.build.prec (ys.getD k ⟨0#64, 0#64⟩).im⟩ := by
  have hl := flatMap_pair_length ys
  have hg := flatMap_pair_getD ys k
  have a0 : bufAddr f (i + k) = bufAddr f i + 8 * (2 * k) := by unfold bufAddr; omega
  have a1 : bufAddr f (i + k) + 8 = bufAddr f i + 8 * (2 * k + 1) := by unfold bufAddr; omega
  simp only [State.bufRead, State.fAt, State.bufWrite_build, State.bufWrite_mem]
  rw [a1, a0, Mem.wordAt_storeWords_inside _ _ _ (by omega), Mem.wordAt_storeWords_inside _ _ _ (by omega), hg.1, hg.2]

/-- An F word outside the entries written is unchanged. -/
theorem State.fAt_bufWrite_outside (s : State) (f : BitVec 2) (i : Nat) (ys : List Cplx) {x : Nat}
    (h : x + 8 ≤ bufAddr f i ∨ bufAddr f i + 16 * ys.length ≤ x) : (s.bufWrite f i ys).fAt x = s.fAt x := by
  have hl := flatMap_pair_length ys
  refine State.fAt_congr (State.bufWrite_build ..) ?_
  rw [State.bufWrite_mem, Mem.wordAt_storeWords_outside]
  rw [hl]
  omega

/-- A byte outside the entries written is unchanged. -/
theorem State.byteAt_bufWrite_outside (s : State) (f : BitVec 2) (i : Nat) (ys : List Cplx) {x : Nat}
    (h : x < bufAddr f i ∨ bufAddr f i + 16 * ys.length ≤ x) : (s.bufWrite f i ys).mem.byteAt x = s.mem.byteAt x := by
  have hl := flatMap_pair_length ys
  rw [State.bufWrite_mem, Mem.byteAt_storeWords_outside]
  rw [hl]
  omega

/-- Samples written read back (as R34 lays them out). -/
theorem State.tabRead_tabWrite_inside (s : State) (t : Nat) (vs : List F) {j : Nat} (hj : j < vs.length) :
    (s.tabWrite t vs).tabRead t j = layoutF s.build.prec (vs.getD j 0#64) := by
  have a0 : tabAddr s.build t j = tabAddr s.build t 0 + 8 * j := by unfold tabAddr; omega
  simp only [State.tabRead, State.fAt, State.tabWrite_build, State.tabWrite_mem]
  rw [a0, Mem.wordAt_storeWords_inside _ _ _ hj]

/-- A byte outside the samples written is unchanged. -/
theorem State.byteAt_tabWrite_outside (s : State) (t : Nat) (vs : List F) {x : Nat}
    (h : x < tabAddr s.build t 0 ∨ tabAddr s.build t 0 + 8 * vs.length ≤ x) :
    (s.tabWrite t vs).mem.byteAt x = s.mem.byteAt x := by
  rw [State.tabWrite_mem, Mem.byteAt_storeWords_outside _ _ _ h]

theorem State.bufWrite_wf {s : State} (h : s.mem.wf) (f : BitVec 2) (i : Nat) (ys : List Cplx) :
    (s.bufWrite f i ys).mem.wf := Mem.storeWords_wf h _ _

theorem State.tabWrite_wf {s : State} (h : s.mem.wf) (t : Nat) (vs : List F) : (s.tabWrite t vs).mem.wf :=
  Mem.storeWords_wf h _ _

theorem reset_mem_wf : State.reset.mem.wf := Mem.wf_nil

end Sys2Proof.Machine
end

