-- ==== Sys2Proof/Laws/Fft.lean ====
section
/-! SUPPORT. Lengths and layout of what the FFT engine and the masker yield. -/

namespace Sys2Proof.Machine

/-- A complex value is laid out when both its parts are (R34). -/
def Cplx.Laid (p : Prec) (z : Cplx) : Prop := Machine.Laid p z.re ∧ Machine.Laid p z.im

theorem cadd_laid (p : Prec) (a b : Cplx) : (cadd p a b).Laid p := ⟨fadd_laid .., fadd_laid ..⟩
theorem csub_laid (p : Prec) (a b : Cplx) : (csub p a b).Laid p := ⟨fsub_laid .., fsub_laid ..⟩
theorem cmul_laid (p : Prec) (a b : Cplx) : (cmul p a b).Laid p := ⟨fsub_laid .., fadd_laid ..⟩

/-! ## Lengths -/

theorem butterflies_length (p : Prec) (ws w : Cplx) (as bs : List Cplx) :
    (butterflies p ws w as bs).1.length = min as.length bs.length ∧
      (butterflies p ws w as bs).2.length = min as.length bs.length := by
  induction as generalizing w bs with
  | nil => simp [butterflies]
  | cons a as ih =>
    cases bs with
    | nil => simp [butterflies]
    | cons b bs =>
      have h := ih (cmul p w ws) bs
      simp [butterflies, h.1, h.2]

/-- A stage over `g` groups of `2m` entries yields as many entries. -/
theorem stage_length (p : Prec) (ws : Cplx) (m g : Nat) (y : List Cplx) (h : y.length = g * (2 * m)) :
    (stage p ws m g y).length = y.length := by
  induction g generalizing y with
  | zero => simp at h; simp [stage, h]
  | succ g ih =>
    have h' : y.length = g * (2 * m) + 2 * m := by rw [h]; ring
    have hd : (y.drop (2 * m)).length = g * (2 * m) := by rw [List.length_drop]; omega
    have hb := butterflies_length p ws ⟨toF p 1, 0#64⟩ (y.take m) ((y.drop m).take m)
    simp only [List.length_take, List.length_drop] at hb
    have e : min (min m y.length) (min m (y.length - m)) = m := by omega
    rw [e] at hb
    simp only [stage, List.length_append, hb.1, hb.2, ih _ hd, hd]
    omega

@[simp] theorem permute_length (b : Build) (x : List Cplx) : (permute b x).length = b.n := by simp [permute]

/-- The groups of stage `s` cover the buffer. -/
theorem groups_cover {l s : Nat} (h : s < l) : 2 ^ l = 2 ^ (l - 1 - s) * (2 * 2 ^ s) := by
  rw [← pow_succ', ← pow_add]
  congr 1
  omega

theorem stagesFrom_length (b : Build) (dir : Dir) (k s : Nat) (y : List Cplx) (hy : y.length = b.n)
    (hk : s + k ≤ b.log2n) : (stagesFrom b dir k s y).length = b.n := by
  induction k generalizing s y with
  | zero => simpa [stagesFrom] using hy
  | succ k ih =>
    have hs : y.length = 2 ^ (b.log2n - 1 - s) * (2 * 2 ^ s) := by rw [hy]; exact groups_cover (by omega)
    exact ih (s + 1) _ ((stage_length _ _ _ _ _ hs).trans hy) (by omega)

/-- The transform of anything has `N` entries. -/
@[simp] theorem transform_length (b : Build) (dir : Dir) (x : List Cplx) : (transform b dir x).length = b.n :=
  stagesFrom_length b dir _ _ _ (permute_length b x) (by omega)

@[simp] theorem bufEntries_length (s : State) (f : BitVec 2) : (s.bufEntries f).length = s.build.n := by
  simp [State.bufEntries]

@[simp] theorem realInput_length (x : List Cplx) : (realInput x).length = x.length := by simp [realInput]

@[simp] theorem maskFn_length (n : Nat) (c : Option Nat) (y : List Cplx) : (maskFn n c y).length = y.length := by
  cases c <;> simp [maskFn]

/-! ## Layout -/

theorem butterflies_laid (p : Prec) (ws w : Cplx) (as bs : List Cplx) :
    (∀ z ∈ (butterflies p ws w as bs).1, z.Laid p) ∧ (∀ z ∈ (butterflies p ws w as bs).2, z.Laid p) := by
  induction as generalizing w bs with
  | nil => simp [butterflies]
  | cons a as ih =>
    cases bs with
    | nil => simp [butterflies]
    | cons b bs =>
      have h := ih (cmul p w ws) bs
      simp only [butterflies, List.mem_cons]
      refine ⟨fun z hz => ?_, fun z hz => ?_⟩
      · rcases hz with rfl | hz
        · exact cadd_laid ..
        · exact h.1 z hz
      · rcases hz with rfl | hz
        · exact csub_laid ..
        · exact h.2 z hz

theorem stage_laid (p : Prec) (ws : Cplx) (m g : Nat) (y : List Cplx) : ∀ z ∈ stage p ws m g y, z.Laid p := by
  induction g generalizing y with
  | zero => simp [stage]
  | succ g ih =>
    intro z hz
    have hb := butterflies_laid p ws ⟨toF p 1, 0#64⟩ (y.take m) ((y.drop m).take m)
    simp only [stage, List.mem_append] at hz
    rcases hz with (hz | hz) | hz
    · exact hb.1 z hz
    · exact hb.2 z hz
    · exact ih _ z hz

theorem permute_laid (b : Build) (x : List Cplx) : ∀ z ∈ permute b x, z.Laid b.prec := by
  intro z hz
  simp only [permute, List.mem_map] at hz
  obtain ⟨i, -, rfl⟩ := hz
  exact ⟨fmul_laid .., fmul_laid ..⟩

/-- Every entry of a transform is laid out as R34 says. -/
theorem transform_laid (b : Build) (dir : Dir) (x : List Cplx) : ∀ z ∈ transform b dir x, z.Laid b.prec := by
  have go : ∀ k s y, (∀ z ∈ y, Cplx.Laid b.prec z) → ∀ z ∈ stagesFrom b dir k s y, z.Laid b.prec := by
    intro k
    induction k with
    | zero => exact fun s y h => h
    | succ k ih => exact fun s y _ => ih (s + 1) _ (stage_laid _ _ _ _ _)
  exact go _ _ _ (permute_laid b x)

/-- Every entry of a buffer reads laid out. -/
theorem bufEntries_laid (s : State) (f : BitVec 2) : ∀ z ∈ s.bufEntries f, z.Laid s.build.prec := by
  intro z hz
  simp only [State.bufEntries, List.mem_map] at hz
  obtain ⟨i, -, rfl⟩ := hz
  exact ⟨layoutF_laid .., layoutF_laid ..⟩

/-! ## A whole buffer written, read back -/

/-- A buffer written with `N` laid-out entries reads as those entries. -/
theorem bufEntries_bufWrite (s : State) (f : BitVec 2) (ys : List Cplx) (hn : ys.length = s.build.n)
    (hl : ∀ z ∈ ys, z.Laid s.build.prec) : (s.bufWrite f 0 ys).bufEntries f = ys := by
  refine List.ext_getElem (by simp [State.bufEntries, hn]) fun k h1 h2 => ?_
  have hr := State.bufRead_bufWrite_inside s f 0 ys h2
  have hz := hl _ (List.getElem_mem h2)
  have hg : ys.getD k ⟨0#64, 0#64⟩ = ys[k] := by simp [h2]
  simp only [State.bufEntries, List.getElem_map, List.getElem_range]
  rw [Nat.zero_add] at hr
  rw [hr, hg, hz.1, hz.2]

/-- A buffer other than the one written reads as before (R63: the windows do not overlap). -/
theorem bufEntries_bufWrite_other (s : State) {f g : BitVec 2} (hfg : g ≠ f) (i : Nat) (ys : List Cplx)
    (hn : i + ys.length ≤ s.build.n) (hN : s.build.n ≤ 2 ^ 17) : (s.bufWrite f i ys).bufEntries g = s.bufEntries g := by
  unfold State.bufEntries
  refine List.map_congr_left fun k hk => ?_
  have hk' := List.mem_range.mp hk
  rw [State.bufWrite_build] at hk'
  have hne : g.toNat ≠ f.toNat := fun h => hfg (BitVec.eq_of_toNat_eq h)
  have hg := g.isLt
  have hf := f.isLt
  unfold State.bufRead
  rw [State.fAt_bufWrite_outside, State.fAt_bufWrite_outside] <;> unfold bufAddr <;> omega

end Sys2Proof.Machine
end

