-- ==== Sys2Proof/Laws/Osc.lean ====
section
/-! SUPPORT. What the oscillator's operations can do: ranges of the scan, the rescale, the increment and the phase step, and the layout of samples. -/

namespace Sys2Proof.Machine

/-! ## Ranges -/

/-- The scan over `n` slots from `t` picks one of them. -/
theorem scanFrom_range (p : Prec) (slots : List SlotDesc) (f : F) (n t : Nat) (hn : 1 ≤ n) :
    t ≤ scanFrom p slots f n t ∧ scanFrom p slots f n t < t + n := by
  induction n generalizing t with
  | zero => omega
  | succ n ih =>
    unfold scanFrom
    split
    · omega
    · cases n with
      | zero => simp [scanFrom]
      | succ n => have := ih (t + 1) (by omega); omega

/-- The increment never exceeds the clamp of R169, whatever the free value of log 10 is. -/
theorem incOf_le (b : Build) (f : F) (l : Nat) (sr : F) : incOf b f l sr ≤ l * 2 ^ b.fb := by
  unfold incOf
  split <;> simp

/-- The rescaled position lies below the new length (R167). -/
theorem rescale_lt {b : Build} {pos oldLen newLen : Nat} (h : 1 ≤ newLen) :
    rescale b pos oldLen newLen < newLen * 2 ^ b.fb := by
  have : 0 < newLen * 2 ^ b.fb := Nat.mul_pos h (Nat.two_pow_pos _)
  unfold rescale
  omega

/-- One subtraction brings the position below the length (R171). -/
theorem advPos_lt {b : Build} {r : Channel} (h : r.pos.toNat < lengthFx b r) (hi : r.inc.toNat ≤ lengthFx b r) :
    advPos b r < lengthFx b r := by
  unfold advPos
  simp only
  split <;> omega

/-- A length of at most `LMAX` fits the phase width (R177). -/
theorem length_le_phase {b : Build} {l : Nat} (h : l ≤ b.lmax) : l * 2 ^ b.fb ≤ 2 ^ b.pw := by
  unfold Build.pw
  unfold Build.lmax at h
  rw [pow_add]
  exact Nat.mul_le_mul_right _ h

theorem phase_lt {b : Build} (hb : b.Legal) : 2 ^ (b.pw + 1) < 2 ^ 64 := by
  have := hb.log2lmax_le
  have := hb.fb_le
  refine Nat.pow_lt_pow_right (by decide) ?_
  unfold Build.pw
  omega

/-- `POS` holds every position below `2^PW` (R42). -/
theorem posWord_toNat {b : Build} (hb : b.Legal) {p : Nat} (h : p < 2 ^ b.pw) : (posWord b p).toNat = p := by
  have := phase_lt hb
  have : 2 ^ b.pw ≤ 2 ^ (b.pw + 1) := Nat.pow_le_pow_right (by decide) (by omega)
  simp only [posWord, BitVec.toNat_ofNat]
  rw [Nat.mod_eq_of_lt h]
  omega

/-- `INC` holds every increment up to `2^PW` (R43). -/
theorem incWord_toNat {b : Build} (hb : b.Legal) {p : Nat} (h : p ≤ 2 ^ b.pw) : (incWord b p).toNat = p := by
  have := phase_lt hb
  have : 2 ^ b.pw < 2 ^ (b.pw + 1) := Nat.pow_lt_pow_right (by decide) (by omega)
  have : p % 2 ^ (b.pw + 1) = p := Nat.mod_eq_of_lt (by omega)
  simp only [incWord, BitVec.toNat_ofNat]
  omega

/-- The increment as `INC` holds it, for a length of at most `LMAX`. -/
theorem incWord_incOf {b : Build} (hb : b.Legal) {f sr : F} {l : Nat} (h : l ≤ b.lmax) :
    (incWord b (incOf b f l sr)).toNat = incOf b f l sr :=
  incWord_toNat hb (Nat.le_trans (incOf_le ..) (length_le_phase h))

/-! ## The checks of `OSC.SETF` -/

/-- What passing the checks says of the set (R163), and of the selected slot when the channel selects (R168). -/
theorem checkSetf_none {b : Build} {slots : List SlotDesc} {sr f : F} {r : Channel}
    (h : checkSetf b slots sr f r = none) :
    1 ≤ r.setcnt.toNat ∧ r.setbase.toNat + r.setcnt.toNat ≤ b.tslots ∧
      (inWindow b.prec r f = false →
        let d := slotOf slots (scan b.prec slots r f)
        1 ≤ d.len.toNat ∧ d.len.toNat ≤ b.lmax ∧ d.kern ≠ 3#2) := by
  rw [checkSetf, firstFault_eq_none] at h
  simp only [List.mem_cons, List.not_mem_nil, or_false, forall_eq_or_imp, forall_eq, badSet, badLen, badKern,
    Bool.or_eq_false_iff, decide_eq_false_iff_not, Bool.and_eq_false_iff, Bool.not_eq_false', beq_eq_false_iff_ne] at h
  obtain ⟨-, -, ⟨h1, h2⟩, h3, h4⟩ := h
  refine ⟨by omega, by omega, fun hw => ?_⟩
  simp only [hw, Bool.false_eq_true, false_or] at h3 h4
  exact ⟨by omega, by omega, h4⟩

/-! ## Layout -/

theorem kernelOn_laid (p : Prec) (k : Kernel) (a b c d x : F) : Laid p (kernelOn p k a b c d x) := by
  cases k <;> simp [kernelOn, kernelLinear, kernelHermite, kernelCubic]

theorem State.interp_laid (s : State) (k : Kernel) (t l pos : Nat) : Laid s.build.prec (s.interp k t l pos) :=
  kernelOn_laid ..

theorem State.sampleAt_laid (s : State) (c : Chan) (pos : Nat) : Laid s.build.prec (s.sampleAt c pos) :=
  kernelOn_laid ..

theorem blend_laid (p : Prec) (x a b : F) : Laid p (blend p x a b) := fadd_laid ..

/-- A descriptor read from a list of laid-out ones is laid out; one that does not exist reads as after reset. -/
theorem slotOf_laid {p : Prec} {slots : List SlotDesc} (h : ∀ d ∈ slots, Laid p d.maxf) (t : Nat) :
    Laid p (slotOf slots t).maxf := by
  unfold slotOf
  by_cases ht : t < slots.length
  · simpa [ht] using h _ (List.getElem_mem ht)
  · rw [List.getD_eq_default _ _ (Nat.le_of_not_lt ht)]
    exact laid_zero p

/-! ## A channel's own invariants (R53) -/

/-- A frequency in the window means that a table is selected (R53.1). -/
theorem Channel.Sound.valid_of_inWindow {b : Build} {r : Channel} (h : r.Sound b) {f : F}
    (hw : inWindow b.prec r f = true) : r.valid = true := by
  cases hv : r.valid with
  | true => rfl
  | false =>
    have := h.unselected hv
    rw [inWindow_empty this.2.2.2.1 this.2.2.2.2] at hw
    exact absurd hw (by simp)

/-- Moving a channel to a position below its length keeps it sound. -/
theorem Channel.Sound.moved {b : Build} (hb : b.Legal) {r : Channel} (hr : r.Sound b) (hv : r.valid = true) {p : Nat}
    (hp : p < lengthFx b r) {v : F} (hl : Laid b.prec v) :
    ({ r with pos := posWord b p, cur := v } : Channel).Sound b := by
  have h := hr.selected hv
  refine ⟨by simp [hv], fun _ => ⟨h.1, h.2.1, h.2.2.1, ?_⟩, hr.inc_le, hr.laid.1, hr.laid.2.1, hr.laid.2.2.1, hl⟩
  show (posWord b p).toNat < _
  rw [posWord_toNat hb (Nat.lt_of_lt_of_le hp (length_le_phase h.2.1))]
  exact hp

end Sys2Proof.Machine
end

