-- ==== Sys2Proof/Laws/PerInstr.lean ====
section
/-! SUPPORT. Lemmas about the command words, and one lemma per constructor of Instr: its word has its opcode and no reserved bit set (spec/30_encoding.md R91, R93). -/

namespace Sys2Proof

/-! ## The fields of a packed word -/

@[simp] theorem opField_packFields (op : BitVec 8) (bs bd : BitVec 2) (ch : BitVec 1) (slot : BitVec 8) :
    opField (packFields op bs bd ch slot) = op := by
  unfold opField packFields
  ext i hi
  simp only [BitVec.getElem_extractLsb', BitVec.getLsbD_append]
  simp [hi]

@[simp] theorem bsField_packFields (op : BitVec 8) (bs bd : BitVec 2) (ch : BitVec 1) (slot : BitVec 8) :
    bsField (packFields op bs bd ch slot) = bs := by
  unfold bsField packFields
  ext i hi
  simp only [BitVec.getElem_extractLsb', BitVec.getLsbD_append]
  simp [hi]

@[simp] theorem bdField_packFields (op : BitVec 8) (bs bd : BitVec 2) (ch : BitVec 1) (slot : BitVec 8) :
    bdField (packFields op bs bd ch slot) = bd := by
  unfold bdField packFields
  ext i hi
  have h : i = 0 ∨ i = 1 := by omega
  simp only [BitVec.getElem_extractLsb', BitVec.getLsbD_append]
  rcases h with rfl | rfl <;> simp

@[simp] theorem slotField_packFields (op : BitVec 8) (bs bd : BitVec 2) (ch : BitVec 1) (slot : BitVec 8) :
    slotField (packFields op bs bd ch slot) = slot := by
  unfold slotField packFields
  ext i hi
  have h1 : ¬16 + i < 8 := by omega
  have h2 : ¬16 + i - 8 < 2 := by omega
  have h3 : ¬16 + i - 8 - 2 < 2 := by omega
  have h4 : ¬16 + i - 8 - 2 - 2 < 1 := by omega
  have h5 : ¬16 + i - 8 - 2 - 2 - 1 < 3 := by omega
  have h6 : 16 + i - 8 - 2 - 2 - 1 - 3 = i := by omega
  simp only [BitVec.getElem_extractLsb', BitVec.getLsbD_append, h1, h2, h3, h4, h5, h6]
  simp [hi]

@[simp] theorem chField_packFields (op : BitVec 8) (bs bd : BitVec 2) (c : Chan) (slot : BitVec 8) :
    chField (packFields op bs bd c.bit slot) = c := by
  unfold chField packFields
  simp only [BitVec.getLsbD_append]
  cases c <;> simp [Chan.bit]

/-- The reserved bits 15:13 and 31:24 of a packed word are 0. -/
theorem reserved_packFields (op : BitVec 8) (bs bd : BitVec 2) (ch : BitVec 1) (slot : BitVec 8) :
    (packFields op bs bd ch slot).extractLsb' 13 3 = 0#3 ∧ (packFields op bs bd ch slot).extractLsb' 24 8 = 0#8 := by
  unfold packFields
  constructor
  · ext i hi
    simp only [BitVec.getElem_extractLsb', BitVec.getLsbD_append]
    have : i = 0 ∨ i = 1 ∨ i = 2 := by omega
    rcases this with rfl | rfl | rfl <;> simp
  · ext i hi
    simp only [BitVec.getElem_extractLsb', BitVec.getLsbD_append]
    have h1 : ¬24 + i < 8 := by omega
    have h2 : ¬24 + i - 8 < 2 := by omega
    have h3 : ¬24 + i - 8 - 2 < 2 := by omega
    have h4 : ¬24 + i - 8 - 2 - 2 < 1 := by omega
    have h5 : ¬24 + i - 8 - 2 - 2 - 1 < 3 := by omega
    have h6 : ¬24 + i - 8 - 2 - 2 - 1 - 3 < 8 := by omega
    simp only [h1, h2, h3, h4, h5, h6]
    simp

/-- The opcode of a command, from the first column of R93. -/
def opcodeOf : Instr → BitVec 8
  | .nop => 0x00#8
  | .fftFwd _ _ => 0x01#8
  | .fftFwdr _ _ => 0x02#8
  | .fftInv _ _ => 0x03#8
  | .fftInvr _ _ => 0x04#8
  | .mask _ => 0x05#8
  | .build _ _ _ => 0x06#8
  | .oscSetf _ => 0x10#8
  | .oscAdv _ => 0x11#8
  | .oscRetrig _ => 0x12#8
  | .morphSetf => 0x13#8
  | .morphAdv => 0x14#8

/-- The word of the instruction has its opcode in bits 7:0 and zeros in the reserved bits (R91, R93). -/
def Laws.EncodedWord.Statement (i : Instr) : Prop :=
  opField (encode i) = opcodeOf i ∧ (encode i).extractLsb' 13 3 = 0#3 ∧ (encode i).extractLsb' 24 8 = 0#8

theorem Laws.EncodedWord.nop : Laws.EncodedWord.Statement .nop :=
  ⟨opField_packFields .., reserved_packFields ..⟩
theorem Laws.EncodedWord.fftFwd (bs bd : BitVec 2) : Laws.EncodedWord.Statement (.fftFwd bs bd) :=
  ⟨opField_packFields .., reserved_packFields ..⟩
theorem Laws.EncodedWord.fftFwdr (bs bd : BitVec 2) : Laws.EncodedWord.Statement (.fftFwdr bs bd) :=
  ⟨opField_packFields .., reserved_packFields ..⟩
theorem Laws.EncodedWord.fftInv (bs bd : BitVec 2) : Laws.EncodedWord.Statement (.fftInv bs bd) :=
  ⟨opField_packFields .., reserved_packFields ..⟩
theorem Laws.EncodedWord.fftInvr (bs : BitVec 2) (slot : BitVec 8) : Laws.EncodedWord.Statement (.fftInvr bs slot) :=
  ⟨opField_packFields .., reserved_packFields ..⟩
theorem Laws.EncodedWord.mask (bd : BitVec 2) : Laws.EncodedWord.Statement (.mask bd) :=
  ⟨opField_packFields .., reserved_packFields ..⟩
theorem Laws.EncodedWord.build (bs bd : BitVec 2) (slot : BitVec 8) : Laws.EncodedWord.Statement (.build bs bd slot) :=
  ⟨opField_packFields .., reserved_packFields ..⟩
theorem Laws.EncodedWord.oscSetf (ch : Chan) : Laws.EncodedWord.Statement (.oscSetf ch) :=
  ⟨opField_packFields .., reserved_packFields ..⟩
theorem Laws.EncodedWord.oscAdv (ch : Chan) : Laws.EncodedWord.Statement (.oscAdv ch) :=
  ⟨opField_packFields .., reserved_packFields ..⟩
theorem Laws.EncodedWord.oscRetrig (ch : Chan) : Laws.EncodedWord.Statement (.oscRetrig ch) :=
  ⟨opField_packFields .., reserved_packFields ..⟩
theorem Laws.EncodedWord.morphSetf : Laws.EncodedWord.Statement .morphSetf :=
  ⟨opField_packFields .., reserved_packFields ..⟩
theorem Laws.EncodedWord.morphAdv : Laws.EncodedWord.Statement .morphAdv :=
  ⟨opField_packFields .., reserved_packFields ..⟩

end Sys2Proof
end

