-- ==== Sys2Proof/Tests/Slice0.lean ====
section
/-! SUPPORT. Small tests: the well-formedness smoke, words written out from R93, effects with results from spec/95_test_vectors.md, and a witness for the hypotheses of every statement. -/

namespace Sys2Proof.Machine.Tests

open Sys2Proof Sys2Proof.Machine

-- One theorem at a time: kernel evaluations that wait for each other would each hold a thread and its stack.
set_option Elab.async false

/-! ## Small states -/

/-- The state with the command in flight. -/
def busyWith (i : Instr) (s : State) : State := { s with inflight := some (encode i) }

/-- The property holds of the next state, and there is one. -/
def onNext (r : Result) (p : State → Bool) : Bool :=
  match r with
  | .next t => p t
  | .fault _ => false
  | .refused _ => false

/-- `SR = 8`, `FARG = 1`, slot 0 the table `[0, 1, 0, -1]` of 95_test_vectors.md P3 with `MAXF = 4`, slot 1 its negation
with the hermite kernel (P4); channel 0 has the set of slot 0, channel 1 that of slot 1; no table selected. -/
def loaded : State :=
  let s := (State.reset.tabWrite 0 [0x0#64, 0x3FF0000000000000#64, 0x0#64, 0xBFF0000000000000#64]).tabWrite 1
    [0x0#64, 0xBFF0000000000000#64, 0x0#64, 0x3FF0000000000000#64]
  { s with
    sr := 0x4020000000000000#64
    farg := 0x3FF0000000000000#64
    morphP := 0x3FD0000000000000#64
    slots := [⟨0x4010000000000000#64, 4#18, 0#2⟩, ⟨0x4010000000000000#64, 4#18, 1#2⟩, .reset, .reset]
    ch0 := { Channel.reset with setcnt := 1#9 }
    ch1 := { Channel.reset with setbase := 1#8, setcnt := 1#9 } }

/-- `loaded` after `MORPH.SETF` at 1 (P4): both channels play with `INC = 0x8000` from position 0. -/
def playing : State :=
  { loaded with
    ch0 := { loaded.ch0 with freq := 0x3FF0000000000000#64, valid := true, sel := 0#8, curlen := 4#18, curkern := .linear,
                             inc := 0x8000#64, top := 0x4010000000000000#64 }
    ch1 := { loaded.ch1 with freq := 0x3FF0000000000000#64, valid := true, sel := 1#8, curlen := 4#18, curkern := .hermite,
                             inc := 0x8000#64, top := 0x4010000000000000#64 } }

/-- A machine with `N = 8`. -/
def eight : State :=
  State.afterReset { Build.standard with log2n := 3, log2lmax := 3 } [] (List.replicate 8 ⟨0#64, 0#64⟩)

/-- The spectrum of V-FFT-9 in `B1`, `SR = 8`, `FARG = 4`. -/
def square : State :=
  { eight.bufWrite 1#2 0
      [⟨0x0#64, 0x0#64⟩, ⟨0x3FE6A09E667F3BCC#64, 0xBFFB504F333F9DE6#64⟩, ⟨0x0#64, 0x0#64⟩,
       ⟨0x3FE6A09E667F3BCC#64, 0xBFD2BEC33301886C#64⟩, ⟨0x0#64, 0x0#64⟩, ⟨0x3FE6A09E667F3BCC#64, 0x3FD2BEC333018868#64⟩,
       ⟨0x0#64, 0x0#64⟩, ⟨0x3FE6A09E667F3BCC#64, 0x3FFB504F333F9DE7#64⟩] with
    sr := 0x4020000000000000#64, farg := 0x4010000000000000#64 }

/-! ## Well-formedness: one ill-formed command for each check -/

theorem test_wellFormed_fftFwd_bs : (Instr.fftFwd 3#2 0#2).wellFormed = false := by decide
theorem test_wellFormed_fftFwd_bd : (Instr.fftFwd 0#2 3#2).wellFormed = false := by decide
theorem test_wellFormed_fftFwdr_bs : (Instr.fftFwdr 3#2 0#2).wellFormed = false := by decide
theorem test_wellFormed_fftFwdr_bd : (Instr.fftFwdr 0#2 3#2).wellFormed = false := by decide
theorem test_wellFormed_fftInv_bs : (Instr.fftInv 3#2 0#2).wellFormed = false := by decide
theorem test_wellFormed_fftInv_bd : (Instr.fftInv 0#2 3#2).wellFormed = false := by decide
theorem test_wellFormed_fftInvr_bs : (Instr.fftInvr 3#2 0#8).wellFormed = false := by decide
theorem test_wellFormed_mask_bd : (Instr.mask 3#2).wellFormed = false := by decide
theorem test_wellFormed_build_bs : (Instr.build 3#2 0#2 0#8).wellFormed = false := by decide
theorem test_wellFormed_build_bd : (Instr.build 0#2 3#2 0#8).wellFormed = false := by decide
theorem test_wellFormed_build_good : (Instr.build 1#2 2#2 255#8).wellFormed = true := by decide

/-! ## Decoding: words written out from the encoding strings of R93 -/

theorem test_decode_nop : decode 0b00000000000000000000000000000000#32 = .ok .nop := by rfl
theorem test_decode_fftFwd : decode 0b00000000000000000000011000000001#32 = .ok (.fftFwd 2#2 1#2) := by rfl
theorem test_decode_fftFwdr : decode 0b00000000000000000000010000000010#32 = .ok (.fftFwdr 0#2 1#2) := by rfl
theorem test_decode_fftInv : decode 0b00000000000000000000100100000011#32 = .ok (.fftInv 1#2 2#2) := by rfl
theorem test_decode_fftInvr : decode 0b00000000100000010000000100000100#32 = .ok (.fftInvr 1#2 0x81#8) := by rfl
theorem test_decode_mask : decode 0b00000000000000000000100000000101#32 = .ok (.mask 2#2) := by rfl
theorem test_decode_build : decode 0b00000000000000110000100100000110#32 = .ok (.build 1#2 2#2 3#8) := by rfl
theorem test_decode_oscSetf : decode 0b00000000000000000001000000010000#32 = .ok (.oscSetf .c1) := by rfl
theorem test_decode_oscAdv : decode 0b00000000000000000000000000010001#32 = .ok (.oscAdv .c0) := by rfl
theorem test_decode_oscRetrig : decode 0b00000000000000000001000000010010#32 = .ok (.oscRetrig .c1) := by rfl
theorem test_decode_morphSetf : decode 0b00000000000000000000000000010011#32 = .ok .morphSetf := by rfl
theorem test_decode_morphAdv : decode 0b00000000000000000000000000010100#32 = .ok .morphAdv := by rfl

/-- The example of R96: `BUILD B1, B2, T3` is `0x00030906`. -/
theorem test_encode_build : encode (.build 1#2 2#2 3#8) = 0x00030906#32 := by rfl

/-- The words of V-OSC-10 and V-FLT-1: `OSC.ADV C1` is `0x00001011`, `FFT.INVR B0, T4` is `0x00040004`. -/
theorem test_encode_operands : encode (.oscAdv .c1) = 0x00001011#32 ∧ encode (.fftInvr 0#2 4#8) = 0x00040004#32 := by
  decide

/-- The word of a table row is decoded, and the very next step issues it (log 3). -/
theorem test_fetch_word : decodeTableWord 32 0x402 = some (.fftFwdr 0#2 1#2) ∧
    step (State.reset.withFetchWord 32 0x402) = exec (.fftFwdr 0#2 1#2) State.reset := ⟨by rfl, by rfl⟩

/-! ## Effects, with the results of 95_test_vectors.md -/

/-- V-NOP-1: `STATUS` reads `0x1` until completion and `0x2` after it. -/
theorem test_nop_status : onNext (exec .nop State.reset) (fun t => t.statusWord == 0x1#64 &&
    onNext (exec .nop t) (fun u => u.statusWord == 0x2#64)) = true := by decide +kernel

/-- V-FFT-8: `[(0, 1), 0, 0, 0]` gives `(+0, 0.5)` in all four bins. -/
theorem test_fftFwd_imaginary_impulse :
    onNext (exec (.fftFwd 0#2 1#2) (busyWith (.fftFwd 0#2 1#2)
      (State.reset.bufWrite 0#2 0 [⟨0x0#64, 0x3FF0000000000000#64⟩])))
      (fun t => t.bufEntries 1#2 == List.replicate 4 ⟨0x0#64, 0x3FE0000000000000#64⟩) = true := by decide +kernel

/-- V-FFT-13: an infinity in bin 1 gives NaNs, canonical ones. -/
theorem test_fftFwd_infinity :
    onNext (exec (.fftFwd 0#2 1#2) (busyWith (.fftFwd 0#2 1#2)
      (State.reset.bufWrite 0#2 1 [⟨0x7FF0000000000000#64, 0x0#64⟩])))
      (fun t => t.bufEntries 1#2 ==
        [⟨0x7FF0000000000000#64, 0x7FF8000000000000#64⟩, ⟨0x7FF8000000000000#64, 0xFFF0000000000000#64⟩,
         ⟨0xFFF0000000000000#64, 0x7FF8000000000000#64⟩, ⟨0x7FF8000000000000#64, 0x7FF0000000000000#64⟩]) = true := by
  decide +kernel

/-- V-FFT-3: `[1, 2, 3, 4]`; the imaginary parts of the source are not read. -/
theorem test_fftFwdr_ramp :
    onNext (exec (.fftFwdr 0#2 1#2) (busyWith (.fftFwdr 0#2 1#2)
      (State.reset.bufWrite 0#2 0 [⟨0x3FF0000000000000#64, 0x7FF8000000000001#64⟩, ⟨0x4000000000000000#64, 0x1#64⟩,
        ⟨0x4008000000000000#64, 0x0#64⟩, ⟨0x4010000000000000#64, 0x0#64⟩])))
      (fun t => t.bufEntries 1#2 ==
        [⟨0x4014000000000000#64, 0x0#64⟩, ⟨0xBFF0000000000000#64, 0x3FF0000000000000#64⟩,
         ⟨0xBFF0000000000000#64, 0x0#64⟩, ⟨0xBFF0000000000000#64, 0xBFF0000000000000#64⟩]) = true := by decide +kernel

/-- V-FFT-7: the inverse has the opposite sign. -/
theorem test_fftInv_impulse :
    onNext (exec (.fftInv 0#2 2#2) (busyWith (.fftInv 0#2 2#2)
      (State.reset.bufWrite 0#2 1 [⟨0x3FF0000000000000#64, 0x0#64⟩])))
      (fun t => t.bufEntries 2#2 ==
        [⟨0x3FE0000000000000#64, 0x0#64⟩, ⟨0x0#64, 0x3FE0000000000000#64⟩,
         ⟨0xBFE0000000000000#64, 0x0#64⟩, ⟨0x0#64, 0xBFE0000000000000#64⟩]) = true := by decide +kernel

/-- V-FFT-14: the spectrum of the ramp gives the slot `[1, 2, 3, 4]` and `LEN = 4`. -/
theorem test_fftInvr_ramp :
    onNext (exec (.fftInvr 1#2 3#8) (busyWith (.fftInvr 1#2 3#8)
      (State.reset.bufWrite 1#2 0 [⟨0x4014000000000000#64, 0x0#64⟩, ⟨0xBFF0000000000000#64, 0x3FF0000000000000#64⟩,
         ⟨0xBFF0000000000000#64, 0x0#64⟩, ⟨0xBFF0000000000000#64, 0xBFF0000000000000#64⟩])))
      (fun t => (List.range 4).map (t.tabRead 3) ==
        [0x3FF0000000000000#64, 0x4000000000000000#64, 0x4008000000000000#64, 0x4010000000000000#64] &&
        (t.slot 3).len == 4#18) = true := by decide +kernel

/-- V-MSK-7: `C = 2`, bins 2 to 6 become zero and bins 1 and 7 keep their values. -/
theorem test_mask_bins :
    onNext (exec (.mask 1#2) (busyWith (.mask 1#2) square))
      (fun t => t.bufEntries 1#2 ==
        [⟨0x0#64, 0x0#64⟩, ⟨0x3FE6A09E667F3BCC#64, 0xBFFB504F333F9DE6#64⟩, ⟨0x0#64, 0x0#64⟩, ⟨0x0#64, 0x0#64⟩,
         ⟨0x0#64, 0x0#64⟩, ⟨0x0#64, 0x0#64⟩, ⟨0x0#64, 0x0#64⟩, ⟨0x3FE6A09E667F3BCC#64, 0x3FFB504F333F9DE7#64⟩]) = true := by
  decide +kernel

/-- V-MSK-2, V-MSK-3, V-MSK-9 and V-MSK-10: the cutoff at `q = N/2`, just below it, at `q = 0` and for a huge `q`. -/
theorem test_mask_cutoff :
    [0x3FF0000000000000#64, 0x3FF0000000000001#64, 0x7FF0000000000000#64, 0x01A56E1FC2F8F359#64].map
      (cutoff eight.build 0x4020000000000000#64) = [none, some 4, some 1, none] := by decide +kernel

/-- V-BLD-1: the slot of the band at 4, its `LEN` and `MAXF`. -/
theorem test_build_band :
    onNext (exec (.build 1#2 2#2 0#8) (busyWith (.build 1#2 2#2 0#8) square))
      (fun t => (List.range 8).map (t.tabRead 0) ==
        [0x3FDFFFFFFFFFFFFE#64, 0x3FF3504F333F9DE6#64, 0x3FF3504F333F9DE7#64, 0x3FE0000000000001#64,
         0xBFDFFFFFFFFFFFFE#64, 0xBFF3504F333F9DE6#64, 0xBFF3504F333F9DE7#64, 0xBFE0000000000001#64] &&
        t.slot 0 == ⟨0x4010000000000000#64, 8#18, 0#2⟩) = true := by decide +kernel

/-- V-BLD-4: `BAD_SLOT` comes before `ALIAS`, `ALIAS` before `BAD_SR`. -/
theorem test_build_faults :
    operandFault (.build 0#2 0#2 9#8) State.reset = some .badSlot ∧
      operandFault (.build 0#2 0#2 0#8) State.reset = some .aliased ∧
      operandFault (.build 1#2 2#2 0#8) State.reset = some .badSr := by decide +kernel

/-- P3: `FARG = 1` selects slot 0 with window `(0, 4]` and `INC = 0x8000`. -/
theorem test_oscSetf_selects :
    onNext (exec (.oscSetf .c0) (busyWith (.oscSetf .c0) loaded)) (fun t => t.ch0 == playing.ch0) = true := by
  decide +kernel

/-- V-OSC-1 (`L = 1024`, `SR = 44100`, `f = 440`) and V-OSC-3 (the clamp binds: `INC = L << FB`). -/
theorem test_oscSetf_increment :
    incOf .standard 0x407B800000000000#64 1024 0x40E5888000000000#64 = 0xA377E ∧
      incOf .standard 0x40DDA0630DEC3D36#64 1024 0x40DDA0630DEC3D37#64 = 0x4000000 := by decide +kernel

/-- V-OSC-2: the first advance. -/
theorem test_oscAdv_first :
    onNext (exec (.oscAdv .c0) (busyWith (.oscAdv .c0) playing))
      (fun t => t.ch0.pos == 0x8000#64 && t.ch0.cur == 0x3FE0000000000000#64 &&
        t.out == [⟨.chan0, 0x3FE0000000000000#64⟩]) = true := by decide +kernel

/-- V-OSC-2: the eighth advance wraps to 0. -/
theorem test_oscAdv_wraps :
    onNext (exec (.oscAdv .c0) (busyWith (.oscAdv .c0) { playing with ch0 := { playing.ch0 with pos := 0x38000#64 } }))
      (fun t => t.ch0.pos == 0x0#64 && t.ch0.cur == 0x0#64) = true := by decide +kernel

/-- V-OSC-6: a table `[-0, 1]` of length 2 gives `+0` at position 0, and no event. -/
theorem test_oscRetrig_negative_zero :
    onNext (exec (.oscRetrig .c0) (busyWith (.oscRetrig .c0)
      { playing.tabWrite 0 [0x8000000000000000#64, 0x3FF0000000000000#64] with
        ch0 := { playing.ch0 with curlen := 2#18, pos := 0x8000#64 } }))
      (fun t => t.ch0.pos == 0x0#64 && t.ch0.cur == 0x0#64 && t.out == []) = true := by decide +kernel

/-- P4: `MORPH.SETF` sets both channels. -/
theorem test_morphSetf_both :
    onNext (exec .morphSetf (busyWith .morphSetf loaded)) (fun t => t.ch0 == playing.ch0 && t.ch1 == playing.ch1) = true := by
  decide +kernel

/-- V-MOR-3, first row: channel 1 would select a slot with `LEN = 0` and `KERN = 3`; the fault is `BAD_LEN`, and neither
channel changes. -/
theorem test_morphSetf_bad_len :
    let s := { loaded with slots := loaded.slots.set 1 ⟨0x4010000000000000#64, 0#18, 3#2⟩ }
    onNext (exec .morphSetf s) (fun t => t == { s with fault := some .badLen, finfo := 0x13#64 }) = true := by
  decide +kernel

/-- P4: the first `MORPH.ADV` emits `0.21875` with tag 2. -/
theorem test_morphAdv_first :
    onNext (exec .morphAdv (busyWith .morphAdv playing))
      (fun t => t.morphOut == 0x3FCC000000000000#64 && t.out == [⟨.morph, 0x3FCC000000000000#64⟩] &&
        t.ch0.cur == 0x3FE0000000000000#64 && t.ch1.cur == 0xBFE4000000000000#64) = true := by decide +kernel

/-- V-MOR-1: `blend(0.1, 1, 0)`, and an infinite channel at `p = 0`. -/
theorem test_morphAdv_blend :
    blend .binary64 0x3FB999999999999A#64 0x3FF0000000000000#64 0x0#64 = 0x3FECCCCCCCCCCCCD#64 ∧
      blend .binary64 0x0#64 0x3FF0000000000000#64 0x7FF0000000000000#64 = 0x7FF8000000000000#64 := by decide +kernel

/-- V-KRN-2, samples `[1, 2, 4, 8]` at `0x4000`: hermite `0.6640625`, cubic `0.171875`. -/
theorem test_kernels :
    let s := State.reset.tabWrite 0 [0x3FF0000000000000#64, 0x4000000000000000#64, 0x4010000000000000#64, 0x4020000000000000#64]
    s.interp .hermite 0 4 0x4000 = 0x3FE5400000000000#64 ∧ s.interp .cubic 0 4 0x4000 = 0x3FC6000000000000#64 := by
  decide +kernel

/-- V-OSC-4: the three rescales. -/
theorem test_rescale : rescale .standard 0x18000 4 8 = 0x30000 ∧ rescale .standard 0x3FFFF 4 3 = 0x2FFFF ∧
    rescale .standard 0x2AAAA 3 4 = 0x38E38 := by decide

/-- P5 and P6: `CMD_BUSY` records the second word, `HOST_BUSY` the address. -/
theorem test_busy_faults :
    onNext (hostWrite 0x020#32 0x1#64 (busyWith .nop State.reset))
        (fun t => t == { busyWith .nop State.reset with fault := some .cmdBusy, finfo := 0x1#64 }) = true ∧
      onNext (hostWrite 0x038#32 0x4020000000000000#64 (busyWith .nop State.reset))
        (fun t => t == { busyWith .nop State.reset with fault := some .hostBusy, finfo := 0x38#64 }) = true := by
  decide +kernel

/-- R260: while `RST` is asserted a write of `FARG` changes nothing, and after the release it takes effect. -/
theorem test_rst_holds_farg :
    let held := { playing.resetBy [] [] with turns := [] }
    onNext (hostWrite 0x030#32 0x3FF0000000000000#64 held) (fun t => t.farg == 0#64) = true ∧
      onNext (hostWrite 0x030#32 0x3FF0000000000000#64 held.releaseRst) (fun t => t.farg == 0x3FF0000000000000#64) = true := by
  decide +kernel

/-- P5: after the fault and the completion `STATUS` reads `0x106`. -/
theorem test_status_after_fault :
    ({ State.reset with fault := some .cmdBusy, done := true } : State).statusWord = 0x106#64 := by decide

/-- R67 and R99: `B1[2].im` stands at `0x20000028`, its bytes little-endian. -/
theorem test_little_endian :
    ((State.reset.bufWrite 1#2 2 [⟨0x0#64, 0x0807060504030201#64⟩]).mem.byteAt 0x20000028 = 1#8) ∧
      (State.reset.bufWrite 1#2 2 [⟨0x0#64, 0x0807060504030201#64⟩]).mem.byteAt 0x2000002F = 8#8 := by decide +kernel

/-- V-FFT-6, binary32: `fmul` and `fsqrt` of the format, `NORM = 0x3F3504F3` for `N = 2` (R112's table). -/
theorem test_binary32 : fdiv .binary32 0x3F800000#64 (fsqrt .binary32 0x40000000#64) = 0x3F3504F3#64 := by decide +kernel

/-! ## Witnesses: concrete inputs that meet the hypotheses of the statements, clause by clause -/

/-- The standard build is legal. -/
theorem standard_legal : Build.standard.Legal := by constructor <;> decide

/-- The greatest legal build is legal. -/
theorem greatest_legal : (Build.mk 17 .binary64 256 17 32).Legal := by constructor <;> decide

/-- Both channels of `playing` meet R53. -/
theorem playing_channels : playing.ch0.Sound playing.build ∧ playing.ch1.Sound playing.build :=
  ⟨⟨by decide, by decide, by decide, ⟨layoutF_binary64 _, layoutF_binary64 _, layoutF_binary64 _, layoutF_binary64 _⟩⟩,
    ⟨by decide, by decide, by decide, ⟨layoutF_binary64 _, layoutF_binary64 _, layoutF_binary64 _, layoutF_binary64 _⟩⟩⟩

/-- `playing`, with a command in flight that passes its checks and with any turns to come, is sound. -/
theorem playing_sound (i : Instr) (h : operandFault i playing = none) (hd : decode (encode i) = .ok i) (turns : List Turn) :
    ({ busyWith i playing with turns := turns } : State).Sound where
  legal := standard_legal
  mem_wf := show playing.mem.wf by decide +kernel
  slots_length := show playing.slots.length = playing.build.tslots by decide
  slots_laid := fun _ _ => layoutF_binary64 _
  chan0 := playing_channels.1
  chan1 := playing_channels.2
  regs_laid := ⟨layoutF_binary64 _, layoutF_binary64 _, layoutF_binary64 _, layoutF_binary64 _⟩
  scr_length := show playing.scr.length = playing.build.n by decide
  busy_not_done := fun _ => rfl
  info_of_fault := fun _ => rfl
  inflight_checked := fun w hw =>
    ⟨i, by rw [← Option.some.inj hw]; exact hd,
      (operandFault_congr (s := playing) (t := { busyWith i playing with turns := turns }) rfl rfl rfl rfl rfl rfl i).trans h⟩
  held := fun h => Bool.noConfusion (show false = true from h)

theorem witness_EncodeOfDecodeIsTheWord : decode 0x00FF0F06#32 = .ok (.build 3#2 3#2 255#8) := by rfl

/-- Each row of R93 is matched with its fields at their greatest values; the word `0x07` matches none. -/
theorem witness_DecodeFollowsTheTable :
    0x00000000#32 &&& 0xFFFFFFFF#32 = 0x00000000#32 ∧ 0x00000F01#32 &&& 0xFFFFF0FF#32 = 0x00000001#32 ∧
    0x00000F02#32 &&& 0xFFFFF0FF#32 = 0x00000002#32 ∧ 0x00000F03#32 &&& 0xFFFFF0FF#32 = 0x00000003#32 ∧
    0x00FF0304#32 &&& 0xFF00FCFF#32 = 0x00000004#32 ∧ 0x00000C05#32 &&& 0xFFFFF3FF#32 = 0x00000005#32 ∧
    0x00FF0F06#32 &&& 0xFF00F0FF#32 = 0x00000006#32 ∧ 0x00001010#32 &&& 0xFFFFEFFF#32 = 0x00000010#32 ∧
    0x00001011#32 &&& 0xFFFFEFFF#32 = 0x00000011#32 ∧ 0x00001012#32 &&& 0xFFFFEFFF#32 = 0x00000012#32 ∧
    0x00000013#32 &&& 0xFFFFFFFF#32 = 0x00000013#32 ∧ 0x00000014#32 &&& 0xFFFFFFFF#32 = 0x00000014#32 ∧
    ∀ r ∈ rows, 0x00000007#32 &&& r.mask ≠ r.value := by decide

/-- An unused bit beside each opcode, and the ends of the two ranges of unassigned opcodes; reset is idle and fault-free. -/
theorem witness_IllegalWordRaisesIllegalCmd :
    (0x00000100#32 &&& 0xFFFFFF00#32 ≠ 0#32 ∧ 0x80000013#32 &&& 0xFFFFFF00#32 ≠ 0#32 ∧
      0x00001001#32 &&& 0xFFFFF000#32 ≠ 0#32 ∧ 0x00000404#32 &&& 0xFF00FC00#32 ≠ 0#32 ∧
      0x00000105#32 &&& 0xFFFFF300#32 ≠ 0#32 ∧ 0x01000006#32 &&& 0xFF00F000#32 ≠ 0#32 ∧
      0x00010010#32 &&& 0xFFFFEF00#32 ≠ 0#32) ∧
    (0x07 ≤ (0x00000007#32).toNat ∧ (0x0000000F#32).toNat ≤ 0x0F ∧ 0x15 ≤ (0x00000015#32).toNat ∧ (0x000000FF#32).toNat ≤ 0xFF) ∧
    State.reset.rst = false ∧ State.reset.fault = none ∧ State.reset.inflight = none := by decide

/-- `STATUS` may be written: reset is released. -/
theorem witness_StatusBitsAndWriteOneToClear : State.reset.rst = false := rfl

theorem witness_ConstantRegistersReadTheirConstants :
    State.reset.build.Legal ∧ (Build.mk 17 .binary64 256 17 32).Legal ∧ State.reset.inflight = none :=
  ⟨standard_legal, greatest_legal, rfl⟩

/-- One address of each kind of location, the first and the last of each window, and the first and the last of each gap,
in the standard build (`N = 4`, four slots of four samples). -/
theorem witness_WriteReadsBackWhatTheLocationKeeps :
    State.reset.rst = false ∧ State.reset.inflight = none ∧ State.reset.slots.length = State.reset.build.tslots ∧
    [0x010#32, 0x030#32, 0x038#32, 0x040#32, 0x100#32, 0x188#32, 0x150#32, 0x10000038#32, 0x40000078#32, 0x50000060#32,
      0x50000068#32, 0x50000070#32, 0xFFFFFFF8#32].map (locate State.reset.build) =
      [.ctrl, .farg, .sr, .morphP, .chan .c0 .setbase, .chan .c1 .setcnt, .chan .c0 .cur, .fword 0x10000038,
       .fword 0x40000078, .slot 3 .maxf, .slot 3 .len, .slot 3 .kern, .raz] ∧
    [0x010#32, 0x030#32, 0x038#32, 0x040#32, 0x100#32, 0x188#32, 0x150#32, 0x10000038#32, 0x40000078#32, 0x50000060#32,
      0x50000068#32, 0x50000070#32, 0xFFFFFFF8#32].all
      (fun a => a.toNat % 8 == 0 && a != 0x020#32 && a != 0x018#32) = true ∧
    State.reset.build.Legal ∧ 3 < State.reset.build.n ∧ 3 < State.reset.build.tslots ∧ 3 < State.reset.build.lmax ∧
    (ReadOnly 0x000 ∧ ReadOnly 0x008 ∧ ReadOnly 0x028 ∧ ReadOnly 0x048 ∧ ReadOnly 0x110 ∧ ReadOnly 0x1D0) ∧
    (Absent .standard 0x050 ∧ Absent .standard 0x0F8 ∧ Absent .standard 0x158 ∧ Absent .standard 0x178 ∧
      Absent .standard 0x1D8 ∧ Absent .standard 0x0FFFFFF8 ∧ Absent .standard 0x10000040 ∧ Absent .standard 0x3FFFFFF8 ∧
      Absent .standard 0x40000080 ∧ Absent .standard 0x50000078 ∧ Absent .standard 0x50000080 ∧
      Absent .standard 0x60000000 ∧ Absent .standard 0xFFFFFFF8) := by
  refine ⟨rfl, rfl, rfl, by decide +kernel, by decide +kernel, standard_legal, by decide, by decide, by decide, ?_, ?_⟩
  · exact ⟨.inl rfl, .inr (.inl rfl), .inr (.inr (.inl rfl)), .inr (.inr (.inr (.inl rfl))),
      .inr (.inr (.inr (.inr ⟨.c0, 2, by decide, by decide, rfl⟩))),
      .inr (.inr (.inr (.inr ⟨.c1, 10, by decide, by decide, rfl⟩)))⟩
  · refine ⟨?_, ?_, ?_, ?_, ?_, ?_, ?_, ?_, ?_, ?_, ?_, ?_, ?_⟩ <;>
      simp [Absent, Build.standard, Build.n, Build.lmax]
    exact ⟨3, by decide, rfl⟩

/-- A machine with `RST` asserted, at its reset values, and one write that changes nothing. -/
theorem witness_RstGivesEveryRegisterItsResetValue :
    ({ busyWith .nop playing with fault := some .cmdBusy, turns := [.rst [(0x10000000, 7#8)] [], .wait] } : State).turns =
      .rst [(0x10000000, 7#8)] [] :: [.wait] ∧
    (let held := playing.resetBy [(0x10000000, 7#8)] []
     held.rst = true ∧ held.AtReset ∧ hostWrite 0x030#32 0x3FF0000000000000#64 held = .next held ∧
     (∃ t, step held = .next t) ∧ ({ held with turns := [.release] } : State).turns = .release :: []) :=
  ⟨rfl, rfl, State.resetBy_atReset .., rfl, ⟨_, rfl⟩, rfl⟩

/-- A write of `SETBASE` beside `SETCNT` and beside the other channel's window; a write of a word beside its neighbour. -/
theorem witness_WriteChangesOnlyItsWord :
    State.reset.inflight = none ∧
    (locate State.reset.build 0x100#32 = .chan .c0 .setbase ∧ locate State.reset.build 0x108#32 = .chan .c0 .setcnt ∧
      locate State.reset.build 0x1C0#32 = .chan .c1 .bottom ∧ locate State.reset.build 0x1C8#32 = .chan .c1 .top) ∧
    (locate State.reset.build 0x20000030#32 = .fword 0x20000030 ∧ locate State.reset.build 0x20000038#32 = .fword 0x20000038) ∧
    (∃ t, hostWrite 0x100#32 5#64 State.reset = .next t) ∧ (∃ t, hostWrite 0x20000030#32 5#64 State.reset = .next t) :=
  ⟨rfl, by decide +kernel, by decide +kernel, ⟨_, rfl⟩, ⟨_, rfl⟩⟩

theorem witness_SetWritesEmptyTheWindow : playing.rst = false ∧ playing.inflight = none ∧
    (∃ t, hostWrite 0x100#32 0#64 playing = .next t) ∧ (∃ t, hostWrite 0x188#32 0#64 playing = .next t) :=
  ⟨rfl, rfl, ⟨_, rfl⟩, ⟨_, rfl⟩⟩

theorem witness_OnlyAlignedWordAccessesAreServed :
    let narrow : Access := { bits := 32, addr := 0x030#32, op := .read }
    let skewed : Access := { bits := 64, addr := 0x034#32, op := .read }
    let served : Access := { bits := 64, addr := 0x030#32, op := .read }
    narrow.bits ≠ 64 ∧ skewed.addr.toNat % 8 ≠ 0 ∧ served.bits = 64 ∧ served.addr.toNat % 8 = 0 := by decide

/-- The last entry, slot and sample of the standard build, and an address at which there is nothing. -/
theorem witness_ReadsHaveNoSideEffect :
    State.reset.inflight = none ∧ State.reset.build.Legal ∧ 3 < State.reset.build.n ∧ 3 < State.reset.build.tslots ∧
      3 < State.reset.build.lmax ∧ Absent State.reset.build 0x050 :=
  ⟨rfl, standard_legal, by decide, by decide, by decide, .inl (by decide)⟩

/-- The five branches of the write of a command word. -/
theorem witness_CmdWriteChecksAndAccepts :
    State.reset.rst = false ∧ (({ State.reset with fault := some .aliased } : State).fault ≠ none) ∧
    ((busyWith .nop State.reset).fault = none ∧ (busyWith .nop State.reset).inflight ≠ none) ∧
    (State.reset.fault = none ∧ State.reset.inflight = none) ∧
    (decode 0x07#32 = .error .unassignedOpcode) ∧
    (decode 0x01#32 = .ok (.fftFwd 0#2 0#2) ∧ operandFault (.fftFwd 0#2 0#2) State.reset = some .aliased) ∧
    (decode 0x401#32 = .ok (.fftFwd 0#2 1#2) ∧ operandFault (.fftFwd 0#2 1#2) State.reset = none) :=
  ⟨rfl, by decide, by decide, by decide, by rfl, ⟨by rfl, by decide⟩, ⟨by rfl, by decide⟩⟩

/-- Each of the ten operand faults is found in some state (the causes of V-FLT-1 and V-OSC-10). -/
theorem witness_OperandFaultIsTheLowestThatApplies :
    operandFault (.fftFwd 3#2 3#2) State.reset = some .badBuffer ∧ operandFault (.fftInvr 0#2 4#8) State.reset = some .badSlot ∧
    operandFault (.fftFwd 0#2 0#2) State.reset = some .aliased ∧ operandFault (.mask 0#2) State.reset = some .badSr ∧
    operandFault (.mask 0#2) { loaded with farg := 0#64 } = some .badFarg ∧
    operandFault (.oscSetf .c0) { loaded with farg := loaded.sr } = some .freqRange ∧
    operandFault (.oscSetf .c0) { loaded with ch0 := { loaded.ch0 with setbase := 3#8, setcnt := 2#9 } } = some .badSet ∧
    operandFault (.oscSetf .c0) { loaded with slots := loaded.slots.set 0 ⟨0#64, 5#18, 3#2⟩ } = some .badLen ∧
    operandFault .morphSetf { loaded with slots := loaded.slots.set 1 ⟨0#64, 4#18, 3#2⟩ } = some .badKern ∧
    operandFault (.oscAdv .c1) State.reset = some .noTable := by decide +kernel

theorem witness_FaultsAreFinal :
    let s : State := { State.reset with fault := some .aliased, turns := [.engine] }
    s.fault = some .aliased ∧ s.inflight = none ∧ locate s.build 0x038#32 = .sr ∧
    (∀ cells scr rest, s.turns ≠ .rst cells scr :: rest) ∧ ∃ t, step s = .next t :=
  ⟨rfl, rfl, rfl, by simp, ⟨_, rfl⟩⟩

theorem witness_CommandsInFlightCompleteWhateverFaults :
    (busyWith (.oscAdv .c1) playing).Sound ∧ (busyWith (.oscAdv .c1) playing).inflight = some 0x1011#32 :=
  ⟨playing_sound _ (by decide) (by rfl) [], by decide⟩

/-- A busy machine without and with a fault, and addresses on both sides of the exceptions. -/
theorem witness_HostAccessesWhileBusy :
    (busyWith .nop State.reset).rst = false ∧ (busyWith .nop State.reset).inflight = some 0#32 ∧
    (busyWith .nop State.reset).fault = none ∧
    ({ busyWith .nop State.reset with fault := some .cmdBusy } : State).fault ≠ none ∧
    (∀ a ∈ [0x000#32, 0x008#32, 0x028#32, 0x050#32, 0x10000000#32, 0xFFFFFFF8#32],
      a ≠ 0x010#32 ∧ a ≠ 0x018#32 ∧ a ≠ 0x020#32) ∧
    (∀ a ∈ [0x020#32, 0x028#32, 0x050#32, 0x10000000#32, 0xFFFFFFF8#32],
      a ≠ 0x000#32 ∧ a ≠ 0x008#32 ∧ a ≠ 0x010#32 ∧ a ≠ 0x018#32) :=
  ⟨rfl, rfl, rfl, by decide, by simp, by simp⟩

theorem witness_InterruptLineFollowsCtrlAndStatus :
    let done : State := { State.reset with ctrl := 3#2, done := true }
    let faulted : State := { State.reset with ctrl := 3#2, fault := some .aliased, finfo := 1#64 }
    done.rst = false ∧ faulted.rst = false ∧ done.fault = none ∧ done.irq = true ∧ (2#64).getLsbD 1 = true ∧ (∃ t, hostWrite 0x018#32 2#64 done = .next t) ∧
    (2#64).getLsbD 0 = false ∧ (∃ t, hostWrite 0x010#32 2#64 done = .next t) ∧
    done.inflight = none ∧ (∃ t, hostWrite 0x020#32 0#64 done = .next t ∧ t.fault = none) ∧
    faulted.fault ≠ none ∧ faulted.irq = true ∧ (1#64).getLsbD 1 = false ∧ (∃ t, hostWrite 0x010#32 1#64 faulted = .next t) ∧
    (∀ cells scr rest, faulted.turns ≠ .rst cells scr :: rest) ∧ (∃ t, step faulted = .next t ∧ t.ctrl.getLsbD 1 = true) :=
  ⟨rfl, rfl, rfl, by decide, by decide, ⟨_, rfl⟩, by decide, ⟨_, rfl⟩, rfl, ⟨_, rfl, rfl⟩, by decide, by decide, by decide, ⟨_, rfl⟩,
    by simp [State.reset, State.afterReset], ⟨_, rfl, rfl⟩⟩

/-- The first byte of `B0` and the last byte of the last slot exist. -/
theorem witness_RstCanLeaveAnyMemory :
    Mem.wf [(0x10000000, 7#8), (0x4000007F, 1#8)] ∧
    ∀ c ∈ [(0x10000000, 7#8), (0x4000007F, 1#8)], byteExists State.reset.build c.1 = true := by decide

theorem witness_ResetStateIsSound :
    Build.standard.Legal ∧ Mem.wf [(0x10000000, 7#8)] ∧ (List.replicate 4 (⟨0#64, 0#64⟩ : Cplx)).length = Build.standard.n :=
  ⟨standard_legal, by decide, by decide⟩

/-- A sound state whose step completes a command. -/
theorem witness_EveryStepKeepsTheStateSound :
    (busyWith .morphAdv playing).Sound ∧ ∃ t, step (busyWith .morphAdv playing) = .next t :=
  ⟨playing_sound _ (by decide) (by rfl) [], ⟨_, rfl⟩⟩

/-- A sound state whose step is refused. -/
theorem witness_SoundStatesStopOnlyOnBusErrors :
    let s : State := { busyWith .nop playing with turns := [.host { bits := 32, addr := 0#32, op := .read }] }
    s.Sound ∧ step s = .refused .busError :=
  ⟨playing_sound _ (by decide) (by rfl) _, rfl⟩

theorem witness_StepRunsTheDecodedCommand :
    let s : State := { playing with turns := [.host { bits := 64, addr := 0x020#32, op := .write 0xABCD00000014#64 }] }
    s.rst = false ∧ s.fault = none ∧ s.inflight = none ∧ decode ((0xABCD00000014#64).extractLsb' 0 32) = .ok .morphAdv ∧
    s.turns = .host { bits := 64, addr := 0x020#32, op := .write 0xABCD00000014#64 } :: [] ∧
    (busyWith .morphAdv playing).inflight = some 0x14#32 ∧ decode 0x14#32 = .ok .morphAdv ∧
    (busyWith .morphAdv playing).turns = [] ∧
    ({ busyWith .morphAdv playing with turns := [.wait] } : State).turns = .wait :: [] ∧
    ({ busyWith .morphAdv playing with turns := [.engine] } : State).turns = .engine :: [] :=
  ⟨rfl, rfl, rfl, by rfl, rfl, by decide, by rfl, rfl, rfl, rfl⟩

theorem witness_NopOnlyGoesThroughTheLifecycle :
    (State.reset.inflight = none ∧ State.reset.fault = none) ∧
    ({ State.reset with fault := some .badSr } : State).fault ≠ none ∧ (busyWith .nop State.reset).inflight = some 0#32 := by
  decide

/-- The hypotheses of the three transforms between buffers. -/
theorem witness_FftFwdWritesTheForwardTransform :
    State.reset.build.Legal ∧ (busyWith (.fftFwd 2#2 0#2) State.reset).inflight = some 0x201#32 ∧
      (2#2 : BitVec 2) ≠ 3#2 ∧ (0#2 : BitVec 2) ≠ 3#2 ∧ (2#2 : BitVec 2) ≠ 0#2 := ⟨standard_legal, by decide⟩

theorem witness_FftFwdrTransformsTheRealParts :
    State.reset.build.Legal ∧ (busyWith (.fftFwdr 2#2 0#2) State.reset).inflight = some 0x202#32 ∧
      (2#2 : BitVec 2) ≠ 3#2 ∧ (0#2 : BitVec 2) ≠ 3#2 ∧ (2#2 : BitVec 2) ≠ 0#2 := ⟨standard_legal, by decide⟩

theorem witness_FftInvWritesTheInverseTransform :
    State.reset.build.Legal ∧ (busyWith (.fftInv 2#2 0#2) State.reset).inflight = some 0x203#32 ∧
      (2#2 : BitVec 2) ≠ 3#2 ∧ (0#2 : BitVec 2) ≠ 3#2 ∧ (2#2 : BitVec 2) ≠ 0#2 := ⟨standard_legal, by decide⟩

theorem witness_FftInvrWritesTheSlot :
    State.reset.build.Legal ∧ State.reset.slots.length = State.reset.build.tslots ∧
      (busyWith (.fftInvr 2#2 3#8) State.reset).inflight = some 0x30204#32 ∧ (2#2 : BitVec 2) ≠ 3#2 ∧
      (3#8).toNat < State.reset.build.tslots := ⟨standard_legal, by decide⟩

/-- With a cutoff and without one. -/
theorem witness_MaskClearsTheBinsAboveTheCutoff :
    square.build.Legal ∧ (busyWith (.mask 1#2) square).inflight = some 0x405#32 ∧ operandFault (.mask 1#2) square = none ∧
      cutoff square.build square.sr square.farg = some 2 ∧
      cutoff square.build square.sr 0x3FF0000000000000#64 = none :=
  ⟨by constructor <;> decide, by decide, by decide +kernel, by decide +kernel, by decide +kernel⟩

theorem witness_BuildWritesOneBand :
    square.build.Legal ∧ square.slots.length = square.build.tslots ∧
      (busyWith (.build 1#2 2#2 3#8) square).inflight = some 0x30906#32 ∧
      operandFault (.build 1#2 2#2 3#8) square = none :=
  ⟨by constructor <;> decide, by decide, by decide, by decide +kernel⟩

theorem witness_BuildEqualsCopyMaskInvrTag :
    (busyWith (.build 1#2 2#2 3#8) playing).Sound ∧
      (busyWith (.build 1#2 2#2 3#8) playing).inflight = some 0x30906#32 ∧
      operandFault (.build 1#2 2#2 3#8) (busyWith (.build 1#2 2#2 3#8) playing) = none ∧
      ∃ t, exec (.build 1#2 2#2 3#8) (busyWith (.build 1#2 2#2 3#8) playing) = .next t :=
  ⟨playing_sound _ (by decide +kernel) (by rfl) [], by decide, by decide +kernel,
    ⟨_, exec_completes (w := 0x30906#32) (by decide) (by decide +kernel)⟩⟩

/-- Inside the window (`1` in `(0, 4]`), outside it with a table selected (`5`, the fallback), and with none selected. -/
theorem witness_OscSetfSelectsAndRetunes :
    (busyWith (.oscSetf .c0) playing).Sound ∧ (busyWith (.oscSetf .c0) playing).inflight = some 0x10#32 ∧
    operandFault (.oscSetf .c0) playing = none ∧ inWindow .binary64 playing.ch0 playing.farg = true ∧
    operandFault (.oscSetf .c0) { playing with farg := 0x4014000000000000#64 } = none ∧
    inWindow .binary64 playing.ch0 0x4014000000000000#64 = false ∧ playing.ch0.valid = true ∧
    operandFault (.oscSetf .c0) loaded = none ∧ inWindow .binary64 loaded.ch0 loaded.farg = false ∧ loaded.ch0.valid = false :=
  ⟨playing_sound _ (by decide +kernel) (by rfl) [], by decide, by decide +kernel, by decide +kernel, by decide +kernel,
    by decide +kernel, rfl, by decide +kernel, by decide +kernel, rfl⟩

theorem witness_OscAdvMovesAndEmits :
    (busyWith (.oscAdv .c1) playing).Sound ∧ (busyWith (.oscAdv .c1) playing).inflight = some 0x1011#32 ∧
      (playing.chan .c1).valid = true := ⟨playing_sound _ (by decide) (by rfl) [], by decide, rfl⟩

theorem witness_OscRetrigRestartsAtZero :
    (busyWith (.oscRetrig .c1) playing).inflight = some 0x1012#32 ∧ (playing.chan .c1).valid = true := by decide

theorem witness_MorphSetfIsSetfOfC0ThenC1 :
    (busyWith .morphSetf loaded).inflight = some 0x13#32 ∧ ∀ f, ¬Applies .morphSetf (busyWith .morphSetf loaded) f := by
  refine ⟨by decide, fun f => ?_⟩
  cases f <;> simp only [Applies, Applies.SelectsSlot, not_false_eq_true] <;> decide +kernel

theorem witness_MorphAdvAdvancesBothAndEmitsTheBlend :
    (busyWith .morphAdv playing).Sound ∧ (busyWith .morphAdv playing).inflight = some 0x14#32 ∧ playing.ch0.valid = true ∧
      playing.ch1.valid = true := ⟨playing_sound _ (by decide) (by rfl) [], by decide, rfl, rfl⟩

/-- A command that answers a next state, at its issue and at its completion. -/
theorem witness_CommandsLeaveTheHostsRegisters :
    (∃ t, exec (.oscSetf .c0) loaded = .next t) ∧ (∃ t, exec (.fftFwd 0#2 1#2) (busyWith (.fftFwd 0#2 1#2) loaded) = .next t) :=
  ⟨⟨_, rfl⟩, ⟨_, exec_completes (w := 0x401#32) (by decide) (by decide)⟩⟩

theorem witness_OnlyAdvancesEmitOneEvent :
    playing.inflight = none ∧ (∃ t, exec (.oscAdv .c1) playing = .next t) ∧
    (busyWith (.oscAdv .c1) playing).inflight ≠ none ∧ (∃ t, exec (.oscAdv .c1) (busyWith (.oscAdv .c1) playing) = .next t) ∧
    (∃ t, step (busyWith .morphAdv playing) = .next t) :=
  ⟨rfl, ⟨_, rfl⟩, by decide, ⟨_, rfl⟩, ⟨_, rfl⟩⟩

theorem witness_OscillatorCommandsLeaveTablesAlone :
    (∃ t, exec (.oscRetrig .c0) (busyWith (.oscRetrig .c0) playing) = .next t) ∧
    (∃ t, exec .morphAdv (busyWith .morphAdv playing) = .next t) := ⟨⟨_, rfl⟩, ⟨_, rfl⟩⟩

/-- Three slots with bounds 1, 2, 4: `2` is met by the second, `5` by none. -/
theorem witness_ScanPicksTheFirstBoundAtLeastF :
    let slots : List SlotDesc := [⟨0x3FF0000000000000#64, 4#18, 0#2⟩, ⟨0x4000000000000000#64, 4#18, 0#2⟩, ⟨0x4010000000000000#64, 4#18, 0#2⟩]
    let r : Channel := { Channel.reset with setcnt := 3#9 }
    1 ≤ r.setcnt.toNat ∧ (∃ u, 0 ≤ u ∧ u ≤ 2 ∧ fge .binary64 (slotOf slots u).maxf 0x4000000000000000#64 = true) ∧
    (∀ u < 3, fge .binary64 (slotOf slots u).maxf 0x4014000000000000#64 = false) :=
  ⟨by decide, ⟨1, by decide, by decide, by decide +kernel⟩, by decide +kernel⟩

/-- The same set is ascending; `2` does not fall back, `5` does, and `8` lies above the last bound. -/
theorem witness_SelectedFrequencyIsInsideItsWindow :
    let slots : List SlotDesc := [⟨0x3FF0000000000000#64, 4#18, 0#2⟩, ⟨0x4000000000000000#64, 4#18, 0#2⟩, ⟨0x4010000000000000#64, 4#18, 0#2⟩]
    let r : Channel := { Channel.reset with setcnt := 3#9 }
    1 ≤ r.setcnt.toNat ∧
    (∀ v < 3, ∀ u < v, flt .binary64 (slotOf slots u).maxf (slotOf slots v).maxf = true) ∧
    flt .binary64 (toF .binary64 0) 0x4000000000000000#64 = true ∧
    fge .binary64 (slotOf slots (scan .binary64 slots r 0x4000000000000000#64)).maxf 0x4000000000000000#64 = true ∧
    fge .binary64 (slotOf slots (scan .binary64 slots r 0x4014000000000000#64)).maxf 0x4014000000000000#64 = false ∧
    flt .binary64 (slotOf slots (scan .binary64 slots r 0x4014000000000000#64)).maxf 0x4020000000000000#64 = true := by
  decide +kernel

/-- The last position below a length of 4 (V-OSC-4). -/
theorem witness_RescaleIsTheExactFloor : 0x3FFFF < 4 * 2 ^ Build.standard.fb ∧ 1 ≤ 3 := by decide

/-- A finite product (`f = 1`, `SR = 8`), and the legal frequency `-0`. -/
theorem witness_IncrementIsTheClampedFloor :
    (let x := fmul .binary64 (fmul .binary64 0x3FF0000000000000#64 (toF .binary64 4)) (srInverse .binary64 0x4020000000000000#64)
     isFinite .binary64 x = true ∧ fsign .binary64 x = false) ∧
    fmag .binary64 0x8000000000000000#64 = 0 ∧ isFinite .binary64 0x4020000000000000#64 = true ∧
    fgt .binary64 0x4020000000000000#64 (toF .binary64 0) = true := by decide +kernel

/-- The greatest position, with an increment of the whole length. -/
theorem witness_AdvanceIsAdditionModuloTheLength :
    let r : Channel := { playing.ch0 with pos := 0x3FFFF#64, inc := 0x40000#64 }
    r.pos.toNat < lengthFx .standard r ∧ r.inc.toNat ≤ lengthFx .standard r ∧ r.inc.toNat = lengthFx .standard r := by decide

theorem witness_PositionAfterKAdvances : (busyWith .nop playing).Sound ∧ ((busyWith .nop playing).chan .c0).valid = true :=
  ⟨playing_sound _ (by decide) (by rfl) [], rfl⟩

/-- `1` and the bound `4` lie in the window `(0, 4]`, and both commands complete. -/
theorem witness_FrequenciesInTheWindowKeepTheTable :
    inWindow .binary64 (playing.chan .c0) 0x3FF0000000000000#64 = true ∧
    inWindow .binary64 (playing.chan .c0) 0x4010000000000000#64 = true ∧
    ∃ t u, exec (.oscSetf .c0) { playing with farg := 0x3FF0000000000000#64, inflight := some 0x10#32 } = .next t ∧
      exec (.oscSetf .c0) { t with farg := 0x4010000000000000#64, inflight := some 0x10#32 } = .next u :=
  ⟨by decide +kernel, by decide +kernel, _, _,
    exec_completes (w := 0x10#32) rfl (by decide +kernel), exec_completes (w := 0x10#32) rfl (by decide +kernel)⟩

/-- A legal build and every kernel; two states of one build that agree on the two samples of a table and differ beyond
them. -/
theorem witness_InterpolationReadsOnlyTheTable :
    let s := State.reset.tabWrite 0 [1#64, 2#64]
    let t := State.reset.tabWrite 0 [1#64, 2#64, 3#64]
    Build.standard.Legal ∧ Kernel.linear.code = 0#2 ∧ Kernel.hermite.code = 1#2 ∧ Kernel.cubic.code = 2#2 ∧
    1 ≤ 2 ∧ t.build = s.build ∧ (∀ j < 2, t.tabRead 0 j = s.tabRead 0 j) ∧ t.mem ≠ s.mem :=
  ⟨standard_legal, rfl, rfl, rfl, by decide, rfl, by decide +kernel, by decide +kernel⟩

theorem witness_BitReversalIsItsOwnInverse : 7 < 2 ^ 3 := by decide

theorem witness_TransformIsTheLoopNest : 3 < Build.standard.n := by decide

theorem witness_NormalisationConstants :
    Build.standard.prec = .binary64 ∧ Build.standard.log2n = 2 ∧ Build.standard.log2n = 2 * 1 ∧ 1 ≤ 8 ∧
    isFinite .binary32 0x00000001#64 = true ∧ fsign .binary32 0x00000001#64 = false ∧ ¬IsZero .binary32 0x00000001#64 := by
  unfold IsZero
  decide

theorem witness_TwiddlesAreCorrectlyRounded : 16 < 17 ∧ isFinite .binary32 0x7F7FFFFF#64 = true := by decide

/-- A cutoff (`FARG = 4`), the infinite `FARG`, and an infinite `q`: `SR = 8`, `FARG` the least subnormal. -/
theorem witness_CutoffIsTheFloorPlusOne :
    square.build.Legal ∧ isFinite .binary64 square.sr = true ∧ fgt .binary64 square.sr (toF .binary64 0) = true ∧
    fgt .binary64 square.farg (toF .binary64 0) = true ∧ cutoff square.build square.sr square.farg = some 2 ∧
    isFinite .binary64 (fdiv .binary64 (fdiv .binary64 square.sr (toF .binary64 2)) square.farg) = true ∧
    fgt .binary64 0x1#64 (toF .binary64 0) = true ∧
    isFinite .binary64 (fdiv .binary64 (fdiv .binary64 square.sr (toF .binary64 2)) 0x1#64) = false :=
  ⟨by constructor <;> decide, by decide, by decide +kernel, by decide +kernel, by decide +kernel, by decide +kernel,
    by decide +kernel, by decide +kernel⟩

/-- A Hermitian spectrum of four bins and the cutoff `N/2`. -/
theorem witness_MaskKeepsHermitianSymmetry :
    let y : List Cplx := [⟨0x3FF0000000000000#64, 0#64⟩, ⟨0x3FF0000000000000#64, 0x4000000000000000#64⟩, ⟨0#64, 0#64⟩,
      ⟨0x3FF0000000000000#64, 0xC000000000000000#64⟩]
    y.length = 4 ∧ 1 ≤ 2 ∧ 2 * 2 ≤ 4 ∧
    realOf .binary64 (y.getD (4 - 1) ⟨0#64, 0#64⟩).re = realOf .binary64 (y.getD 1 ⟨0#64, 0#64⟩).re ∧
    realOf .binary64 (y.getD (4 - 1) ⟨0#64, 0#64⟩).im = -realOf .binary64 (y.getD 1 ⟨0#64, 0#64⟩).im := by
  decide +kernel

/-- Rounding inputs below and at the overflow bound of binary32. -/
theorem witness_RoundingIsNearestTiesToEven :
    0 < 1 ∧ |(1 : ℚ) * (((2 ^ 24 - 1 : ℕ) : ℚ) * (2 : ℚ) ^ (104 : Int))| < overflowBound .binary32 ∧
    overflowBound .binary32 ≤ |(1 : ℚ) * (((2 ^ 25 - 1 : ℕ) : ℚ) * (2 : ℚ) ^ (103 : Int))| := by
  decide +kernel

theorem witness_SumsAndProductsAreRoundedOnce :
    isFinite .binary32 0x3F800000#64 = true ∧ isFinite .binary32 0x40400000#64 = true ∧
    |realOf .binary32 0x3F800000#64 + realOf .binary32 0x40400000#64| < overflowBound .binary32 ∧
    |realOf .binary32 0x3F800000#64 - realOf .binary32 0x40400000#64| < overflowBound .binary32 ∧
    |realOf .binary32 0x3F800000#64 * realOf .binary32 0x40400000#64| < overflowBound .binary32 := by decide +kernel

theorem witness_QuotientsAreRoundedOnce :
    isFinite .binary32 0x3F800000#64 = true ∧ isFinite .binary32 0x40400000#64 = true ∧ realOf .binary32 0x40400000#64 ≠ 0 ∧
    |realOf .binary32 0x3F800000#64 / realOf .binary32 0x40400000#64| < overflowBound .binary32 := by decide +kernel

/-- Each way to a NaN: an operand, and the invalid operations. -/
theorem witness_NaNResultsAreCanonical :
    isNaN .binary64 0xFFF0000000000001#64 = true ∧ isNaN .binary32 0x7F800001#64 = true ∧
    [fadd .binary32 0x7F800000#64 0xFF800000#64, fsub .binary32 0x7F800000#64 0x7F800000#64,
      fmul .binary32 0x7F800000#64 0x80000000#64, fdiv .binary32 0x0#64 0x80000000#64, fdiv .binary32 0x7F800000#64 0xFF800000#64,
      fsqrt .binary32 0x80000001#64].all (isNaN .binary32) = true := by decide +kernel

/-- A NaN, finite operands, both zeros and both infinities. -/
theorem witness_ComparisonsOrderTheValues :
    isNaN .binary64 0xFFF0000000000001#64 = true ∧ isFinite .binary64 0x7FEFFFFFFFFFFFFF#64 = true ∧
    isNaN .binary64 0x7FEFFFFFFFFFFFFF#64 = false ∧
    IsZero .binary64 0x0#64 ∧ IsZero .binary64 0x8000000000000000#64 ∧
    (IsInf .binary64 0x7FF0000000000000#64 ∧ fsign .binary64 0x7FF0000000000000#64 = false) ∧
    (IsInf .binary64 0xFFF0000000000000#64 ∧ fsign .binary64 0xFFF0000000000000#64 = true) := by
  unfold IsZero IsInf
  decide

theorem witness_BlendEndsAreTheChannels :
    Laid .binary32 0x3F800000#64 ∧ Laid .binary32 0x80000001#64 ∧ isFinite .binary32 0x3F800000#64 = true ∧
    isFinite .binary32 0x80000001#64 = true ∧ fmag .binary32 0x3F800000#64 ≠ 0 ∧ fmag .binary32 0x80000001#64 ≠ 0 :=
  ⟨by rfl, by rfl, by decide, by decide, by decide, by decide⟩

end Sys2Proof.Machine.Tests
end

/-! SUPPORT. The decoder on the words of the commands (R93, R95), the invariant `State.Sound` kept by every step (R53), and
the registers `ID` and `CFG` (R24, R25). -/

namespace Sys2Proof

/-! ## The decoder: at most one row of R93 matches, and a command's word matches its own row -/

/-- Every row's mask covers the opcode field (R93). -/
theorem rows_masks_cover_opcode : ∀ r ∈ rows, opField r.mask = BitVec.allOnes 8 := by decide

/-- A word that matches a row has the row's opcode (R93). -/
theorem Row.opField_of_hits {w : Word32} {r : Row} (hr : r ∈ rows) (h : r.hits w = true) :
    opField w = opField r.value := by
  have hmask : opField r.mask = BitVec.allOnes 8 := rows_masks_cover_opcode r hr
  have hval : w &&& r.mask = r.value := by simpa [Row.hits] using h
  calc opField w = opField w &&& opField r.mask := by rw [hmask, BitVec.and_allOnes]
    _ = opField (w &&& r.mask) := BitVec.extractLsb'_and.symm
    _ = opField r.value := by rw [hval]

/-- The opcodes of the rows are pairwise different (R93). -/
theorem rows_opcodes_distinct : rows.Pairwise fun r r' => opField r.value ≠ opField r'.value := by
  rw [← List.pairwise_map (f := fun r : Row => opField r.value) (R := (· ≠ ·))]
  decide

/-- A word that matches a row decodes to that row's command (R95): no other row matches it. -/
theorem decode_of_hits {w : Word32} {r : Row} (hr : r ∈ rows) (h : r.hits w = true) : decode w = .ok (r.make w) := by
  have hfind : rows.find? (Row.hits w) = some r := by
    obtain ⟨before, after, hsplit⟩ := List.append_of_mem hr
    refine List.find?_eq_some_iff_append.mpr ⟨h, before, after, hsplit, fun r' hr' => ?_⟩
    have hne : opField r'.value ≠ opField r.value :=
      (List.pairwise_append.mp (hsplit ▸ rows_opcodes_distinct)).2.2 r' hr' r List.mem_cons_self
    have hmiss : ¬ r'.hits w = true := fun h' =>
      hne ((Row.opField_of_hits (by simp [hsplit, hr']) h').symm.trans (Row.opField_of_hits hr h))
    simpa using hmiss
  simp [decode, hfind]

/-- Masking a packed word masks its fields; the mask keeps the opcode, and the reserved bits are 0 already (R91). -/
theorem packFields_and (op : BitVec 8) (bs bd mb md : BitVec 2) (ch mc : BitVec 1) (slot ms : BitVec 8) :
    packFields op bs bd ch slot &&& (0xFF#8 ++ ms ++ 7#3 ++ mc ++ md ++ mb ++ 0xFF#8) =
      packFields op (bs &&& mb) (bd &&& md) (ch &&& mc) (slot &&& ms) := by
  have hop : op &&& 0xFF#8 = op := BitVec.and_allOnes
  show (0#8 ++ slot ++ 0#3 ++ ch ++ bd ++ bs ++ op : BitVec (8 + 8 + 3 + 1 + 2 + 2 + 8)) &&& _ = _
  simp only [BitVec.and_append, hop]
  rfl

/-- A mask that keeps none of the fields in use leaves the opcode alone. -/
theorem packFields_and_eq_opcode (op : BitVec 8) {bs bd : BitVec 2} {ch : BitVec 1} {slot : BitVec 8} (mb md : BitVec 2)
    (mc : BitVec 1) (ms : BitVec 8) (hbs : bs &&& mb = 0#2) (hbd : bd &&& md = 0#2) (hch : ch &&& mc = 0#1)
    (hslot : slot &&& ms = 0#8) :
    packFields op bs bd ch slot &&& (0xFF#8 ++ ms ++ 7#3 ++ mc ++ md ++ mb ++ 0xFF#8) =
      packFields op 0#2 0#2 0#1 0#8 := by
  rw [packFields_and, hbs, hbd, hch, hslot]

/-- The row of R93 that describes a command. -/
def rowOf : Instr → Row
  | .nop => ⟨0xFFFFFFFF#32, 0x00000000#32, fun _ => .nop⟩
  | .fftFwd _ _ => ⟨0xFFFFF0FF#32, 0x00000001#32, fun w => .fftFwd (bsField w) (bdField w)⟩
  | .fftFwdr _ _ => ⟨0xFFFFF0FF#32, 0x00000002#32, fun w => .fftFwdr (bsField w) (bdField w)⟩
  | .fftInv _ _ => ⟨0xFFFFF0FF#32, 0x00000003#32, fun w => .fftInv (bsField w) (bdField w)⟩
  | .fftInvr _ _ => ⟨0xFF00FCFF#32, 0x00000004#32, fun w => .fftInvr (bsField w) (slotField w)⟩
  | .mask _ => ⟨0xFFFFF3FF#32, 0x00000005#32, fun w => .mask (bdField w)⟩
  | .build _ _ _ => ⟨0xFF00F0FF#32, 0x00000006#32, fun w => .build (bsField w) (bdField w) (slotField w)⟩
  | .oscSetf _ => ⟨0xFFFFEFFF#32, 0x00000010#32, fun w => .oscSetf (chField w)⟩
  | .oscAdv _ => ⟨0xFFFFEFFF#32, 0x00000011#32, fun w => .oscAdv (chField w)⟩
  | .oscRetrig _ => ⟨0xFFFFEFFF#32, 0x00000012#32, fun w => .oscRetrig (chField w)⟩
  | .morphSetf => ⟨0xFFFFFFFF#32, 0x00000013#32, fun _ => .morphSetf⟩
  | .morphAdv => ⟨0xFFFFFFFF#32, 0x00000014#32, fun _ => .morphAdv⟩

theorem rowOf_mem (i : Instr) : rowOf i ∈ rows := by cases i <;> simp [rowOf, rows]

/-- The row reads the command's fields back from its word. -/
theorem rowOf_make (i : Instr) : (rowOf i).make (encode i) = i := by cases i <;> simp [rowOf, encode]

/-- The word of a command matches the command's row: the row's mask keeps none of the fields the command uses. -/
theorem rowOf_hits (i : Instr) : (rowOf i).hits (encode i) = true := by
  cases i with
  | nop | morphSetf | morphAdv => rfl
  | fftFwd bs bd | fftFwdr bs bd | fftInv bs bd =>
    exact beq_iff_eq.mpr (packFields_and_eq_opcode _ 0#2 0#2 1#1 0xFF#8 (by simp) (by simp) (by simp) (by simp))
  | fftInvr bs slot =>
    exact beq_iff_eq.mpr (packFields_and_eq_opcode _ 0#2 3#2 1#1 0#8 (by simp) (by simp) (by simp) (by simp))
  | mask bd =>
    exact beq_iff_eq.mpr (packFields_and_eq_opcode _ 3#2 0#2 1#1 0xFF#8 (by simp) (by simp) (by simp) (by simp))
  | build bs bd slot =>
    exact beq_iff_eq.mpr (packFields_and_eq_opcode _ 0#2 0#2 1#1 0#8 (by simp) (by simp) (by simp) (by simp))
  | oscSetf c | oscAdv c | oscRetrig c =>
    exact beq_iff_eq.mpr (packFields_and_eq_opcode _ 3#2 3#2 0#1 0xFF#8 (by simp) (by simp) (by simp) (by simp))

/-- Every command is read back from its word (R93, R95). -/
theorem decode_encode (i : Instr) : decode (encode i) = .ok i := by
  rw [decode_of_hits (rowOf_mem i) (rowOf_hits i), rowOf_make]

end Sys2Proof

namespace Sys2Proof.Machine

/-! ## What an effect leaves alone -/

@[simp] theorem State.moveTo_rst (s : State) (c : Chan) (p : Nat) : (s.moveTo c p).rst = s.rst := by cases c <;> rfl

/-- No command's effect writes the fault registers or moves `RST`. -/
theorem effectOf_keeps (i : Instr) (s : State) :
    (effectOf i s).fault = s.fault ∧ (effectOf i s).finfo = s.finfo ∧ (effectOf i s).rst = s.rst := by
  cases i with
  | mask bd => simp only [effectOf, maskBuffer]; split <;> simp
  | fftInvr bs slot | build bs bd slot => simp [effectOf, buildBand, inverseReal]
  | morphAdv => simp [effectOf, morphAdvance]
  | _ => simp [effectOf]

/-! ## The invariants of one channel (R53) -/

/-- A host write of a channel register keeps the channel sound: it sets the set's bounds and empties the window. -/
theorem Channel.Sound.writeReg {b : Build} {r : Channel} (h : r.Sound b) (k : ChanReg) (v : Word) :
    (r.writeReg k v).Sound b := by
  obtain ⟨hfreq, -, -, hcur⟩ := h.laid
  cases k with
  | setbase | setcnt => exact
    { h with
      unselected := fun hv =>
        let ⟨hpos, hinc, hcur, _⟩ := h.unselected hv
        ⟨hpos, hinc, hcur, rfl, rfl⟩
      laid := ⟨hfreq, laid_zero _, laid_zero _, hcur⟩ }
  | _ => exact h

/-- The registers that select a table satisfy R53.2. -/
def Channel.Selected (b : Build) (r : Channel) : Prop :=
  1 ≤ r.curlen.toNat ∧ r.curlen.toNat ≤ b.lmax ∧ r.sel.toNat < b.tslots ∧ r.pos.toNat < lengthFx b r

/-- A channel that selects a slot with an admissible length satisfies R53.2: the position is rescaled below the new
length, or is still 0. -/
theorem Channel.Sound.selectSlot_selected {b : Build} (hb : b.Legal) {slots : List SlotDesc} {r : Channel} (h : r.Sound b)
    {t : Nat} (ht : t < b.tslots) (h1 : 1 ≤ (slotOf slots t).len.toNat) (hmax : (slotOf slots t).len.toNat ≤ b.lmax) :
    (selectSlot b slots r t).Selected b := by
  have hsel : (BitVec.ofNat 8 t).toNat = t := by
    have := hb.tslots_le
    simp only [BitVec.toNat_ofNat]; omega
  have hpos : (selectSlot b slots r t).pos.toNat < (slotOf slots t).len.toNat * 2 ^ b.fb := by
    cases hv : r.valid with
    | true =>
      have hlt := rescale_lt (b := b) (pos := r.pos.toNat) (oldLen := r.curlen.toNat) h1
      simpa [selectSlot, hv, posWord_toNat hb (Nat.lt_of_lt_of_le hlt (length_le_phase hmax))] using hlt
    | false =>
      obtain ⟨hpos, -⟩ := h.unselected hv
      simp [selectSlot, hv, hpos]
      omega
  exact ⟨h1, hmax, by simpa [selectSlot, hsel] using ht, hpos⟩

/-- Setting the frequency of a channel with a table keeps R53, whatever increment the channel had (R169). -/
theorem Channel.retune_sound {b : Build} (hb : b.Legal) {r : Channel} (hv : r.valid = true) (hsel : r.Selected b)
    {f : F} (sr : F) (hf : Laid b.prec f) (hlaid : Laid b.prec r.bottom ∧ Laid b.prec r.top ∧ Laid b.prec r.cur) :
    (retune b f sr r).Sound b where
  unselected := fun h => absurd (hv.symm.trans h) (by decide)
  selected := fun _ => hsel
  inc_le := by
    obtain ⟨-, hmax, -⟩ := hsel
    simpa [retune, lengthFx, incWord_incOf hb hmax] using incOf_le b f r.curlen.toNat sr
  laid := ⟨hf, hlaid⟩

/-- `OSC.SETF` that passes its checks keeps the channel sound (R170). -/
theorem Channel.Sound.setf {b : Build} (hb : b.Legal) {slots : List SlotDesc} (hslots : ∀ d ∈ slots, Laid b.prec d.maxf)
    {sr f : F} (hf : Laid b.prec f) {r : Channel} (h : r.Sound b) (hc : checkSetf b slots sr f r = none) :
    (setf b slots sr f r).Sound b := by
  obtain ⟨hcnt, hset, hslot⟩ := checkSetf_none hc
  obtain ⟨-, hbottom, htop, hcur⟩ := h.laid
  unfold Machine.setf
  split
  · next hw =>
    have hv := h.valid_of_inWindow hw
    exact Channel.retune_sound hb hv (h.selected hv) sr hf ⟨hbottom, htop, hcur⟩
  · next hw =>
    obtain ⟨h1, hmax, -⟩ := hslot (by simpa using hw)
    have hscan := scanFrom_range b.prec slots f r.setcnt.toNat r.setbase.toNat hcnt
    refine Channel.retune_sound hb rfl (h.selectSlot_selected hb (by unfold scan; omega) h1 hmax) sr hf
      ⟨?_, slotOf_laid hslots _, hcur⟩
    simp only [selectSlot]
    split
    · exact laid_zero _
    · exact slotOf_laid hslots _

/-- `OSC.ADV` moves a channel to a position below its length (R171, R53). -/
theorem Channel.Sound.advPos_lt {b : Build} {r : Channel} (h : r.Sound b) (hv : r.valid = true) :
    advPos b r < lengthFx b r := by
  obtain ⟨-, -, -, hpos⟩ := h.selected hv
  exact Machine.advPos_lt hpos h.inc_le

/-- The length of a selected table is not zero, so position 0 is below it (R173). -/
theorem Channel.Sound.lengthFx_pos {b : Build} {r : Channel} (h : r.Sound b) (hv : r.valid = true) :
    0 < lengthFx b r := by
  obtain ⟨-, -, -, hpos⟩ := h.selected hv
  omega

/-! ## What the registers and memories hold, apart from the lifecycle of a command -/

/-- The clauses of `State.Sound` about what is stored: all but those about the command in flight, the fault and `RST`. -/
structure State.StoredSound (s : State) : Prop where
  legal : s.build.Legal
  mem_wf : s.mem.wf
  slots_length : s.slots.length = s.build.tslots
  slots_laid : ∀ d ∈ s.slots, Laid s.build.prec d.maxf
  chan0 : s.ch0.Sound s.build
  chan1 : s.ch1.Sound s.build
  regs_laid : Laid s.build.prec s.farg ∧ Laid s.build.prec s.sr ∧ Laid s.build.prec s.morphP ∧ Laid s.build.prec s.morphOut
  scr_length : s.scr.length = s.build.n

theorem State.Sound.stored {s : State} (h : s.Sound) : s.StoredSound := { h with }

/-- An idle state is sound when what it stores is, `FINFO` is clear without a fault, and `RST` holds the registers. -/
theorem State.StoredSound.sound_of_idle {s : State} (h : s.StoredSound) (hi : s.inflight = none)
    (hinfo : s.fault = none → s.finfo = 0#64) (hheld : s.rst = true → s.AtReset) : s.Sound :=
  { h with
    busy_not_done := by simp [State.busy, hi]
    info_of_fault := hinfo
    inflight_checked := by simp [hi]
    held := hheld }

namespace State.StoredSound

theorem chan {s : State} (h : s.StoredSound) (c : Chan) : (s.chan c).Sound s.build := by
  cases c
  · exact h.chan0
  · exact h.chan1

theorem slot_laid {s : State} (h : s.StoredSound) (t : Nat) : Laid s.build.prec (s.slot t).maxf :=
  slotOf_laid h.slots_laid t

theorem farg_laid {s : State} (h : s.StoredSound) : Laid s.build.prec s.farg := h.regs_laid.1

theorem setChan {s : State} (h : s.StoredSound) (c : Chan) {r : Channel} (hr : r.Sound s.build) :
    (s.setChan c r).StoredSound := by
  cases c
  · exact { h with chan0 := hr }
  · exact { h with chan1 := hr }

theorem setSlot {s : State} (h : s.StoredSound) (t : Nat) {d : SlotDesc} (hd : Laid s.build.prec d.maxf) :
    (s.setSlot t d).StoredSound :=
  { h with
    slots_length := by simp [h.slots_length]
    slots_laid := fun e he => (List.mem_or_eq_of_mem_set he).elim (h.slots_laid e) fun heq => heq ▸ hd }

theorem bufWrite {s : State} (h : s.StoredSound) (f : BitVec 2) (i : Nat) (ys : List Cplx) :
    (s.bufWrite f i ys).StoredSound := { h with mem_wf := State.bufWrite_wf h.mem_wf f i ys }

theorem storeWords {s : State} (h : s.StoredSound) (a : Nat) (ws : List Word) :
    State.StoredSound { s with mem := s.mem.storeWords a ws } := { h with mem_wf := Mem.storeWords_wf h.mem_wf a ws }

/-- A channel with a table may be moved to any position below its length (R172, R173). -/
theorem moveTo {s : State} (h : s.StoredSound) {c : Chan} (hv : (s.chan c).valid = true) {p : Nat}
    (hp : p < lengthFx s.build (s.chan c)) : (s.moveTo c p).StoredSound :=
  h.setChan c ((h.chan c).moved h.legal hv hp (s.sampleAt_laid c p))

theorem inverseReal {s : State} (h : s.StoredSound) (spectrum : List Cplx) (slot : BitVec 8) :
    (inverseReal spectrum slot s).StoredSound :=
  have hscr : State.StoredSound { s with scr := transform s.build .inv spectrum } :=
    { h with scr_length := transform_length .. }
  (hscr.storeWords (tabAddr s.build slot.toNat 0) _).setSlot _ (h.slot_laid _)

theorem maskBuffer {s : State} (h : s.StoredSound) (bd : BitVec 2) : (maskBuffer bd s).StoredSound := by
  unfold Machine.maskBuffer
  split
  · exact h
  · exact (h.storeWords _ _).bufWrite ..

theorem buildBand {s : State} (h : s.StoredSound) (bs bd : BitVec 2) (slot : BitVec 8) :
    (buildBand bs bd slot s).StoredSound :=
  ((h.bufWrite bd 0 _).inverseReal _ slot).setSlot _ h.farg_laid

theorem morphAdvance {s : State} (h : s.StoredSound) (h0 : s.ch0.valid = true) (h1 : s.ch1.valid = true) :
    (morphAdvance s).StoredSound :=
  let ⟨hfarg, hsr, hmorphP, _⟩ := h.regs_laid
  { h with
    chan0 := h.chan0.moved h.legal h0 (h.chan0.advPos_lt h0) (s.sampleAt_laid .c0 _)
    chan1 := h.chan1.moved h.legal h1 (h.chan1.advPos_lt h1) (s.sampleAt_laid .c1 _)
    regs_laid := ⟨hfarg, hsr, hmorphP, blend_laid ..⟩ }

/-- A command that passes its checks writes sound values (R53: "invariants that every command preserves"). -/
theorem effectOf {s : State} (h : s.StoredSound) {i : Instr} (hc : operandFault i s = none) :
    (effectOf i s).StoredSound := by
  cases i with
  | nop => exact h
  | fftFwd bs bd | fftFwdr bs bd | fftInv bs bd => exact h.bufWrite ..
  | fftInvr bs slot => exact h.inverseReal ..
  | mask bd => exact h.maskBuffer bd
  | build bs bd slot => exact h.buildBand bs bd slot
  | oscSetf c => exact h.setChan c ((h.chan c).setf h.legal h.slots_laid h.farg_laid hc)
  | oscAdv c =>
    have hv := checkTable_eq_none.mp hc
    exact { h.moveTo hv ((h.chan c).advPos_lt hv) with }
  | oscRetrig c =>
    have hv := checkTable_eq_none.mp hc
    exact h.moveTo hv ((h.chan c).lengthFx_pos hv)
  | morphSetf =>
    obtain ⟨hc0, hc1⟩ := lowerFault_eq_none.mp hc
    exact { h with
      chan0 := h.chan0.setf h.legal h.slots_laid h.farg_laid hc0
      chan1 := h.chan1.setf h.legal h.slots_laid h.farg_laid hc1 }
  | morphAdv =>
    obtain ⟨h0, h1⟩ := checkMorphAdv_eq_none.mp hc
    exact h.morphAdvance h0 h1

theorem writeLoc {s : State} (h : s.StoredSound) (l : Loc) (v : Word) : (s.writeLoc l v).StoredSound := by
  obtain ⟨hfarg, hsr, hmorphP, hmorphOut⟩ := h.regs_laid
  cases l with
  | farg => exact { h with regs_laid := ⟨layoutF_laid .., hsr, hmorphP, hmorphOut⟩ }
  | sr => exact { h with regs_laid := ⟨hfarg, layoutF_laid .., hmorphP, hmorphOut⟩ }
  | morphP => exact { h with regs_laid := ⟨hfarg, hsr, layoutF_laid .., hmorphOut⟩ }
  | chan c r => exact h.setChan c ((h.chan c).writeReg r v)
  | fword a => exact h.storeWords ..
  | slot t k =>
    refine h.setSlot t ?_
    cases k with
    | maxf => exact layoutF_laid ..
    | len | kern => exact h.slot_laid t
  | ctrl | status | id | cfg | cmd | finfo | morphOut | raz => exact { h with }

end State.StoredSound

/-! ## Reset (R55, R260) -/

theorem Channel.reset_sound (b : Build) : Channel.reset.Sound b where
  unselected := fun _ => ⟨rfl, rfl, rfl, rfl, rfl⟩
  selected := nofun
  inc_le := Nat.zero_le _
  laid := ⟨laid_zero _, laid_zero _, laid_zero _, laid_zero _⟩

/-- What a legal build stores after reset is sound, with any canonical memory and any full `SCR` (R55, R261). -/
theorem State.afterReset_stored {b : Build} {m : Mem} {scr : List Cplx} (hb : b.Legal) (hm : m.wf)
    (hscr : scr.length = b.n) : (State.afterReset b m scr).StoredSound where
  legal := hb
  mem_wf := hm
  slots_length := List.length_replicate
  slots_laid := fun _ hd => List.eq_of_mem_replicate hd ▸ laid_zero _
  chan0 := Channel.reset_sound b
  chan1 := Channel.reset_sound b
  regs_laid := ⟨laid_zero _, laid_zero _, laid_zero _, laid_zero _⟩
  scr_length := hscr

namespace State.Sound

/-- An assertion of `RST` leaves a sound state, whatever contents the turn supplies (R260, R261). -/
theorem resetBy {s : State} (h : s.Sound) (cells : List Host.Cell) (scr : List Cplx) : (s.resetBy cells scr).Sound :=
  have hstored : (s.resetBy cells scr).StoredSound :=
    { State.afterReset_stored h.legal (Mem.ofCells_wf _) (List.length_map _ |>.trans List.length_range) with }
  hstored.sound_of_idle rfl (fun _ => rfl) fun _ => s.resetBy_atReset cells scr

/-- With a command in flight `RST` is not asserted: asserting it abandons the command (R260). -/
theorem rst_of_inflight {s : State} (h : s.Sound) {w : Word32} (hi : s.inflight = some w) : s.rst = false := by
  refine Bool.eq_false_iff.mpr fun hr => ?_
  simp [(h.held hr).inflight] at hi

/-! ## The operations of a step, one by one -/

theorem releaseRst {s : State} (h : s.Sound) : s.releaseRst.Sound := { h with held := nofun }

/-- The turns to come are the model's own and bound by no invariant. -/
theorem withTurns {s : State} (h : s.Sound) (rest : List Turn) : State.Sound { s with turns := rest } :=
  { h with
    held := fun hr => by
      have hreset := h.held hr
      unfold State.AtReset at *
      rw [hreset]
      rfl }

theorem hostRead {s : State} (h : s.Sound) (a : Word32) : (hostRead a s).Sound := by
  have hheld : s.rst = true → (Machine.hostRead a s).AtReset := fun hr => (h.held hr).hostRead a
  rcases hostRead_cases a s with ⟨hread, -⟩ | ⟨hread, -, -⟩
  · rw [hread] at hheld ⊢
    exact { h with held := hheld }
  · rw [hread] at hheld ⊢
    exact { h with held := hheld }

section Released
variable {s : State} (h : s.Sound) (hr : s.rst = false)
include h hr

theorem raise (c : FaultCode) (v : Word) : (s.raise c v).Sound := by
  cases hf : s.fault with
  | some d => rwa [State.raise_of_fault (by simp [State.faulted, hf])]
  | none =>
    rw [State.raise_of_none hf]
    exact { h with info_of_fault := nofun, held := by simp [hr] }

/-- An accepted command decodes and passes its checks (R224). -/
theorem issue (i : Instr) : (s.issue (encode i) (operandFault i s)).Sound := by
  cases hf : s.fault with
  | some d => rwa [State.issue_of_fault (by simp [State.faulted, hf])]
  | none =>
    cases hc : operandFault i s with
    | some c =>
      rw [State.issue_faults hf, ← State.raise_of_none hf]
      exact h.raise hr ..
    | none =>
      rw [State.issue_accepts hf]
      exact { h with
        busy_not_done := fun _ => rfl
        inflight_checked := fun w hw => ⟨i, Option.some.inj hw ▸ decode_encode i, hc⟩
        held := by simp [hr] }

theorem onCmdWrite (v : Word) {t : State} (ht : onCmdWrite v s = .next t) : t.Sound := by
  rcases onCmdWrite_cases v s with ⟨-, hw⟩ | ⟨-, -, hw⟩ | ⟨-, -, -, hw⟩ | ⟨-, -, i, -, hw⟩ <;>
    obtain rfl := Host.Outcome.next.inj (hw.symm.trans ht)
  · exact h
  · exact h.raise hr ..
  · exact h.raise hr ..
  · exact h.issue hr i

/-- A write that an idle machine makes (R65). -/
theorem writeLoc_idle (hi : s.inflight = none) (l : Loc) (v : Word) : (s.writeLoc l v).Sound := by
  obtain ⟨-, hinflight, hfault, hinfo, -, -, -, hrst⟩ := s.writeLoc_keeps l v
  exact (h.stored.writeLoc l v).sound_of_idle (hinflight.trans hi) (by simpa [hfault, hinfo] using h.info_of_fault)
    (by simp [hrst, hr])

/-- The writes that are made while a command is in flight (R272): neither sets `DONE`. -/
theorem writeLoc_ctrl_or_status {l : Loc} (hl : l = .ctrl ∨ l = .status) (v : Word) : (s.writeLoc l v).Sound := by
  rcases hl with rfl | rfl
  · exact { h with held := by simp [State.writeLoc, hr] }
  · exact { h with
      busy_not_done := fun hb => by simp [State.writeLoc, h.busy_not_done hb]
      held := by simp [State.writeLoc, hr] }

end Released

theorem hostWrite {s t : State} (h : s.Sound) {a : Word32} {v : Word} (ht : hostWrite a v s = .next t) : t.Sound := by
  cases hr : s.rst with
  | true =>
    obtain rfl := Host.Outcome.next.inj ((hostWrite_inReset hr).symm.trans ht)
    exact h
  | false =>
    rcases hostWrite_cases a v hr with ⟨-, hw⟩ | ⟨hl, hw⟩ | ⟨-, -, -, -, hw⟩ | ⟨-, -, -, hb, hw⟩
    · exact h.onCmdWrite hr v (hw.symm.trans ht)
    · obtain rfl := Host.Outcome.next.inj (hw.symm.trans ht)
      exact h.writeLoc_ctrl_or_status hr hl v
    · obtain rfl := Host.Outcome.next.inj (hw.symm.trans ht)
      exact h.raise hr ..
    · obtain rfl := Host.Outcome.next.inj (hw.symm.trans ht)
      exact h.writeLoc_idle hr (by simpa [State.busy] using hb) ..

theorem hostAccess {s t : State} (h : s.Sound) {x : Access} (ht : hostAccess x s = .next t) : t.Sound := by
  rcases hostAccess_cases x s with ⟨-, hx⟩ | ⟨-, -, hx⟩ | ⟨-, v, -, hx⟩ <;> rw [hx] at ht
  · cases ht
  · obtain rfl := Host.Outcome.next.inj ht
    exact h.hostRead _
  · exact h.hostWrite ht

/-- The completion of the command in flight (R270): its effect is sound, and the machine is idle again. -/
theorem engineTurn {s t : State} (h : s.Sound) (ht : engineTurn s = .next t) : t.Sound := by
  rcases engineTurn_next_cases ht with ⟨-, rfl⟩ | ⟨w, i, hi, -, hc, rfl⟩
  · exact h
  · obtain ⟨hfault, hinfo, hrst⟩ := effectOf_keeps i s
    have hstored : (effectOf i s).finish.StoredSound := { h.stored.effectOf hc with }
    exact hstored.sound_of_idle rfl (by simpa [hfault, hinfo] using h.info_of_fault)
      (by simp [hrst, h.rst_of_inflight hi])

/-- Every move of R270 keeps the state sound. -/
theorem step {s t : State} (h : s.Sound) (ht : step s = .next t) : t.Sound := by
  rcases step_next_cases ht with ⟨-, ht⟩ | ⟨x, rest, -, ht⟩ | ⟨rest, -, -, ht⟩ | ⟨rest, -, -, rfl⟩ | ⟨rest, -, ht⟩ |
    ⟨cells, scr, rest, -, rfl⟩ | ⟨rest, -, rfl⟩
  · exact h.engineTurn ht
  · exact (h.withTurns rest).hostAccess ht
  · exact h.engineTurn ht
  · exact (h.withTurns rest).hostRead _
  · exact (h.withTurns rest).engineTurn ht
  · exact (h.withTurns rest).resetBy ..
  · exact (h.withTurns rest).releaseRst

end State.Sound

/-- Settles O22, by the invariant `State.Sound`: each move of a step keeps it. -/
theorem everyStepKeepsTheStateSound : Obligations.EveryStepKeepsTheStateSound := fun _ _ h ht => h.step ht

end Sys2Proof.Machine

/-! ## `ID` and `CFG` (R24, R25) -/

namespace Sys2Proof.Machine

/-- The fields of `CFG` (R25): each is read back from its place, past the narrower fields below it. -/
theorem cfgWord_fields (b : Build) :
    (cfgWord b).extractLsb' 0 5 = BitVec.ofNat 5 b.log2n ∧
    (cfgWord b).extractLsb' 5 1 = BitVec.ofBool (b.prec == .binary64) ∧
    (cfgWord b).extractLsb' 6 2 = 0#2 ∧
    (cfgWord b).extractLsb' 8 8 = BitVec.ofNat 8 (b.tslots - 1) ∧
    (cfgWord b).extractLsb' 16 5 = BitVec.ofNat 5 b.log2lmax ∧
    (cfgWord b).extractLsb' 21 3 = 0#3 ∧
    (cfgWord b).extractLsb' 24 6 = BitVec.ofNat 6 b.fb ∧
    (cfgWord b).extractLsb' 30 34 = 0#34 := by
  unfold cfgWord
  refine ⟨?_, ?_, ?_, ?_, ?_, ?_, ?_, ?_⟩ <;> repeat rw [BitVec.extractLsb'_append_eq_of_le (by decide)]
  case refine_8 => rfl
  all_goals exact BitVec.extractLsb'_append_eq_right

/-- Every parameter of a legal build fits its field of `CFG`. -/
theorem cfgWord_fields_toNat {b : Build} (h : b.Legal) :
    ((cfgWord b).extractLsb' 0 5).toNat = b.log2n ∧ (cfgWord b).getLsbD 5 = (b.prec == .binary64) ∧
    (cfgWord b).extractLsb' 6 2 = 0#2 ∧ ((cfgWord b).extractLsb' 8 8).toNat = b.tslots - 1 ∧
    ((cfgWord b).extractLsb' 16 5).toNat = b.log2lmax ∧ (cfgWord b).extractLsb' 21 3 = 0#3 ∧
    ((cfgWord b).extractLsb' 24 6).toNat = b.fb ∧ (cfgWord b).extractLsb' 30 34 = 0#34 := by
  obtain ⟨hn, hprec, hz6, hslots, hlmax, hz21, hfb, hz30⟩ := cfgWord_fields b
  obtain ⟨-, hn_le, -, hslots_le, -, hlmax_le, -, hfb_le⟩ := h
  have hbit : (cfgWord b).getLsbD 5 = (b.prec == .binary64) := by
    simpa using congrArg (BitVec.getLsbD · 0) hprec
  rw [hn, hslots, hlmax, hfb]
  simp only [BitVec.toNat_ofNat]
  exact ⟨by omega, hbit, hz6, by omega, by omega, hz21, by omega, hz30⟩

/-- A read of `ID`, `CFG`, `CTRL` or `STATUS` is exact, busy or not (R72). -/
theorem hostRead_stable {a : Word32} {s : State} (h : (locate s.build a).stableWhileBusy = true) :
    hostRead a s = s.answer a (s.readLoc (locate s.build a)) := by
  rcases hostRead_cases a s with ⟨hread, -⟩ | ⟨-, -, hunstable⟩
  · exact hread
  · exact absurd (h.symm.trans hunstable) (by decide)

/-- A location that keeps nothing of a write leaves an idle machine as it was, `RST` asserted or not (R23). -/
theorem hostWrite_ignored {a : Word32} {v : Word} {s : State} (hi : s.inflight = none) (hcmd : locate s.build a ≠ .cmd)
    (hignored : s.writeLoc (locate s.build a) v = s) : hostWrite a v s = .next s := by
  cases hr : s.rst with
  | true => exact hostWrite_inReset hr
  | false => rw [hostWrite_idle hr hi hcmd, hignored]

/-- Settles O6: both reads are stable, the parameters fit their fields, and neither location keeps a write. -/
theorem constantRegistersReadTheirConstants : Obligations.ConstantRegistersReadTheirConstants := fun _ hb =>
  ⟨hostRead_stable rfl, hostRead_stable rfl, cfgWord_fields_toNat hb, fun _ hi =>
    ⟨hostWrite_ignored hi nofun rfl, hostWrite_ignored hi nofun rfl⟩⟩

end Sys2Proof.Machine

/-! ## The accesses the host port serves (R61) -/

namespace Sys2Proof.Machine

theorem Access.served_eq_true_iff (x : Access) : x.served = true ↔ x.bits = 64 ∧ x.addr.toNat % 8 = 0 := by
  simp [Access.served]

theorem Access.served_eq_false_iff (x : Access) : x.served = false ↔ x.bits ≠ 64 ∨ x.addr.toNat % 8 ≠ 0 := by
  rw [← Bool.not_eq_true, x.served_eq_true_iff, Decidable.not_and_iff_or_not]

/-- The write of a command word neither faults nor is refused: a command that the engine cannot take raises a fault code (R224). -/
theorem onCmdWrite_answers (v : Word) (s : State) : ∃ t, onCmdWrite v s = .next t := by
  rcases onCmdWrite_cases v s with ⟨-, hw⟩ | ⟨-, -, hw⟩ | ⟨-, -, -, hw⟩ | ⟨-, -, i, -, hw⟩ <;> exact ⟨_, hw⟩

/-- A host write neither faults nor is refused: what may not be written is dropped (R224, R260, R272). -/
theorem hostWrite_answers (a : Word32) (v : Word) (s : State) : ∃ t, hostWrite a v s = .next t := by
  cases hr : s.rst with
  | true => exact ⟨s, hostWrite_inReset hr⟩
  | false =>
    rcases hostWrite_cases a v hr with ⟨-, hw⟩ | ⟨-, hw⟩ | ⟨-, -, -, -, hw⟩ | ⟨-, -, -, -, hw⟩
    · rw [hw]; exact onCmdWrite_answers v s
    all_goals exact ⟨_, hw⟩

theorem hostAccess_of_not_served {x : Access} (hx : x.served = false) (s : State) :
    hostAccess x s = .refused .busError := by
  simp [hostAccess, hx]

theorem hostAccess_answers_of_served {x : Access} (hx : x.served = true) (s : State) :
    ∃ t, hostAccess x s = .next t := by
  rcases hostAccess_cases x s with ⟨hno, -⟩ | ⟨-, -, ha⟩ | ⟨-, v, -, ha⟩
  · exact absurd (hx.symm.trans hno) (by decide)
  · exact ⟨_, ha⟩
  · rw [ha]; exact hostWrite_answers x.addr v s

/-- Settles O11: an access that is not served is refused, and one that is served answers a next state. -/
theorem onlyAlignedWordAccessesAreServed : Obligations.OnlyAlignedWordAccessesAreServed := by
  refine fun x s => ⟨fun hbad => hostAccess_of_not_served (x.served_eq_false_iff.mpr hbad) s, fun hbits haligned r => ?_⟩
  obtain ⟨t, ht⟩ := hostAccess_answers_of_served (x.served_eq_true_iff.mpr ⟨hbits, haligned⟩) s
  rw [ht]
  exact nofun

end Sys2Proof.Machine

/-! ## The decoder row by row: what matches no row of R93 is illegal (R94, R95) -/

namespace Sys2Proof

/-- A word is illegal exactly when it matches no row (R95). -/
theorem decode_error_iff (w : Word32) : (∃ e, decode w = .error e) ↔ ∀ r ∈ rows, ¬ r.hits w = true := by
  constructor
  · rintro ⟨e, he⟩ r hr hit
    exact nomatch he.symm.trans (decode_of_hits hr hit)
  · intro hmiss
    unfold decode
    rw [List.find?_eq_none.mpr hmiss]
    dsimp only
    split <;> exact ⟨_, rfl⟩

/-- At most one row matches a word: the matching rows all have the word's opcode, and no opcode has two rows (R95). -/
theorem rows_hits_length_le_one (w : Word32) : (rows.filter (Row.hits w)).length ≤ 1 := by
  have hnodup : ((rows.filter (Row.hits w)).map fun r => opField r.value).Nodup :=
    List.pairwise_map.mpr (rows_opcodes_distinct.filter _)
  have hconst : ∀ op ∈ (rows.filter (Row.hits w)).map fun r => opField r.value, op = opField w :=
    List.forall_mem_map.mpr fun r hr =>
      have ⟨hrow, hit⟩ := List.mem_filter.mp hr
      (Row.opField_of_hits hrow hit).symm
  rwa [List.eq_replicate_of_mem hconst, List.nodup_replicate, List.length_map] at hnodup

/-- A word with a bit set that every row of its opcode holds at 0 matches no row (R94). -/
theorem rows_miss_of_unused_bit {w m : Word32} {ops : List Nat}
    (hunused : ∀ r ∈ rows, (opField r.value).toNat ∈ ops → r.mask &&& m = m ∧ r.value &&& m = 0#32)
    (hop : (opField w).toNat ∈ ops) (hbit : w &&& m ≠ 0#32) : ∀ r ∈ rows, ¬ r.hits w = true := by
  intro r hr hit
  obtain ⟨hmask, hvalue⟩ := hunused r hr (Row.opField_of_hits hr hit ▸ hop)
  refine hbit ?_
  calc w &&& m = w &&& r.mask &&& m := by rw [BitVec.and_assoc, hmask]
    _ = r.value &&& m := by rw [beq_iff_eq.mp hit]
    _ = 0#32 := hvalue

/-- The opcodes that R94 leaves unassigned are those of no row. -/
theorem rows_opcodes_assigned : ∀ r ∈ rows, (opField r.value).toNat < 0x07 ∨
    0x0F < (opField r.value).toNat ∧ (opField r.value).toNat < 0x15 := by decide

/-- A word of an unassigned opcode matches no row (R94). -/
theorem rows_miss_of_unassigned {w : Word32}
    (hop : (0x07 ≤ (opField w).toNat ∧ (opField w).toNat ≤ 0x0F) ∨ 0x15 ≤ (opField w).toNat) :
    ∀ r ∈ rows, ¬ r.hits w = true := by
  intro r hr hit
  have hassigned := rows_opcodes_assigned r hr
  rw [← Row.opField_of_hits hr hit] at hassigned
  omega

/-- Settles O3: a row that a word matches is the one `decode` finds, and a word without a row is an error. -/
theorem decodeFollowsTheTable : Obligations.DecodeFollowsTheTable := by
  intro w
  have hrows : ∀ r ∈ rows, w &&& r.mask = r.value → decode w = .ok (r.make w) :=
    fun r hr h => decode_of_hits hr (beq_iff_eq.mpr h)
  simp only [rows, List.forall_mem_cons] at hrows
  obtain ⟨hnop, hfftFwd, hfftFwdr, hfftInv, hfftInvr, hmask, hbuild, hoscSetf, hoscAdv, hoscRetrig, hmorphSetf,
    hmorphAdv, -⟩ := hrows
  exact ⟨hnop, hfftFwd, hfftFwdr, hfftInv, hfftInvr, hmask, hbuild, hoscSetf, hoscAdv, hoscRetrig, hmorphSetf, hmorphAdv,
    fun hmiss => (decode_error_iff w).mpr fun r hr hit => hmiss r hr (beq_iff_eq.mp hit), rows_hits_length_le_one w⟩

end Sys2Proof

/-! ## The write of an illegal word to `CMD` (R94, R224) -/

namespace Sys2Proof.Machine

/-- A write to `CMD` out of reset is the write of a command word (R224). -/
theorem hostWrite_cmd {v : Word} {s : State} (hr : s.rst = false) : hostWrite 0x020#32 v s = onCmdWrite v s := by
  rcases hostWrite_cases 0x020#32 v hr with ⟨-, hw⟩ | ⟨hl, -⟩ | ⟨hl, -⟩ | ⟨hl, -⟩
  · exact hw
  · simp at hl
  · exact absurd (locate_cmd _) hl
  · exact absurd (locate_cmd _) hl

/-- The write of an illegal word to `CMD` of an idle, fault-free machine out of reset records the word and its fault. -/
theorem hostWrite_cmd_illegal {w : Word32} {s : State} (hd : ∃ e, decode w = .error e) (hr : s.rst = false)
    (hf : s.fault = none) (hi : s.inflight = none) : hostWrite 0x020#32 (w.setWidth 64) s =
      .next { s with fault := some .illegalCmd, finfo := w.setWidth 64 } := by
  obtain ⟨e, he⟩ := hd
  have hw : (w.setWidth 64).setWidth 32 = w := by simp
  rw [hostWrite_cmd hr, onCmdWrite_illegal (e := e) (by simp [State.faulted, hf]) (by simp [State.busy, hi]) (hw.symm ▸ he),
    hw, State.raise_of_none hf]

/-- Settles O5: such a word matches no row, by its opcode or by a bit that the rows of its opcode hold at 0. -/
theorem illegalWordRaisesIllegalCmd : Obligations.IllegalWordRaisesIllegalCmd := by
  intro w s hbad hr hf hi
  have hmiss : ∀ r ∈ rows, ¬ r.hits w = true := by
    rcases hbad with ⟨hop, hbit⟩ | ⟨hop, hbit⟩ | ⟨hop, hbit⟩ | ⟨hop, hbit⟩ | ⟨hop, hbit⟩ | ⟨hop, hbit⟩ | hop | ⟨hop, -⟩
    · exact rows_miss_of_unused_bit (by decide) hop hbit
    · exact rows_miss_of_unused_bit (by decide) hop hbit
    · exact rows_miss_of_unused_bit (by decide) (List.mem_singleton.mpr hop) hbit
    · exact rows_miss_of_unused_bit (by decide) (List.mem_singleton.mpr hop) hbit
    · exact rows_miss_of_unused_bit (by decide) (List.mem_singleton.mpr hop) hbit
    · exact rows_miss_of_unused_bit (by decide) hop hbit
    · exact rows_miss_of_unassigned (.inl hop)
    · exact rows_miss_of_unassigned (.inr hop)
  have hd := (decode_error_iff w).mpr hmiss
  exact ⟨hd, hostWrite_cmd_illegal hd hr hf hi⟩

end Sys2Proof.Machine

/-! ## FFT.FWD, FFT.FWDR, FFT.INV: the checks, and a transform written to a buffer (R120 to R122) -/

namespace Sys2Proof.Machine

theorem checkFft_eq (bs bd : BitVec 2) : checkFft bs bd =
    if bs = 3#2 ∨ bd = 3#2 then some .badBuffer else if bs = bd then some .aliased else none := by
  simp [checkFft, firstFault, badBuffer]

theorem checkFft_eq_none {bs bd : BitVec 2} (hbs : bs ≠ 3#2) (hbd : bd ≠ 3#2) (hne : bs ≠ bd) :
    checkFft bs bd = none := by
  simp [checkFft_eq, hbs, hbd, hne]

/-- A command in flight whose effect is to write the transform of `x` to a buffer completes with those entries in the
buffer, and changes no other byte and no other field but `BUSY` and `DONE`. -/
theorem exec_writes_transform {i : Instr} {s : State} {w : Word32} {bd : BitVec 2} {dir : Dir} {x : List Cplx}
    (hi : s.inflight = some w) (hc : operandFault i s = none)
    (heff : effectOf i s = s.bufWrite bd 0 (transform s.build dir x)) :
    ∃ t, exec i s = .next t ∧ t = { s with mem := t.mem, inflight := none, done := true } ∧
      t.bufEntries bd = transform s.build dir x ∧
      ∀ a, ¬InEntries bd 0 s.build.n a → t.mem.byteAt a = s.mem.byteAt a := by
  refine ⟨(s.bufWrite bd 0 (transform s.build dir x)).finish, heff ▸ exec_completes hi hc, rfl, ?_, fun a ha => ?_⟩
  · exact bufEntries_bufWrite s bd _ (transform_length ..) (transform_laid _ _ _)
  · refine s.byteAt_bufWrite_outside bd 0 _ ?_
    rw [transform_length]
    unfold InEntries bufAddr at ha
    unfold bufAddr
    omega

/-- Settles O26: the effect of `FFT.FWD` writes the transform of the entries of `BS`. -/
theorem fftFwdWritesTheForwardTransform : Obligations.FftFwdWritesTheForwardTransform := fun _ bs bd _ =>
  ⟨checkFft_eq bs bd, fun _ hi hbs hbd hne => exec_writes_transform hi (checkFft_eq_none hbs hbd hne) rfl⟩

/-- The real input of a buffer is made of its real components alone (R121). -/
theorem realInput_bufEntries (s : State) (f : BitVec 2) :
    realInput (s.bufEntries f) = (List.range s.build.n).map fun i => ⟨s.fAt (bufAddr f i), 0#64⟩ := by
  simp [realInput, State.bufEntries, State.bufRead]

/-- Settles O27: the effect of `FFT.FWDR` writes the transform of the real input of `BS`. -/
theorem fftFwdrTransformsTheRealParts : Obligations.FftFwdrTransformsTheRealParts := by
  refine fun s bs bd _ => ⟨checkFft_eq bs bd, fun _ hi hbs hbd hne => ?_⟩
  rw [← realInput_bufEntries]
  exact exec_writes_transform hi (checkFft_eq_none hbs hbd hne) rfl

/-- Settles O28: as O26 with the inverse direction. -/
theorem fftInvWritesTheInverseTransform : Obligations.FftInvWritesTheInverseTransform := fun _ bs bd _ =>
  ⟨checkFft_eq bs bd, fun _ hi hbs hbd hne => exec_writes_transform hi (checkFft_eq_none hbs hbd hne) rfl⟩

end Sys2Proof.Machine

/-! ## FFT.INVR: the slot it writes (R123) -/

namespace Sys2Proof.Machine

theorem checkInvr_eq (b : Build) (bs : BitVec 2) (slot : BitVec 8) : checkInvr b bs slot =
    if bs = 3#2 then some .badBuffer else if b.tslots ≤ slot.toNat then some .badSlot else none := by
  simp [checkInvr, firstFault, badBuffer, badSlot]

/-- A descriptor written reads back, in a machine that has the slot (R49). -/
theorem State.slot_setSlot_same (s : State) {k : Nat} (hk : k < s.slots.length) (d : SlotDesc) :
    (s.setSlot k d).slot k = d := by
  simp [State.slot, State.setSlot, slotOf, hk]

theorem State.slot_setSlot_other (s : State) {k j : Nat} (hkj : j ≠ k) (d : SlotDesc) :
    (s.setSlot k d).slot j = s.slot j := by
  simp [State.slot, State.setSlot, slotOf, List.getD_eq_getElem?_getD, List.getElem?_set_ne hkj.symm]

/-- The samples `inverseReal` writes are the real parts of the transform it leaves in `SCR`. -/
theorem inverseReal_tabRead (x : List Cplx) (slot : BitVec 8) (s : State) {j : Nat} (hj : j < s.build.n) :
    (inverseReal x slot s).tabRead slot.toNat j = ((transform s.build .inv x).getD j ⟨0#64, 0#64⟩).re := by
  have hlen : j < (transform s.build .inv x).length := by rwa [transform_length]
  have hget : (transform s.build .inv x).getD j ⟨0#64, 0#64⟩ = (transform s.build .inv x)[j] := by simp [hj]
  have hre : ((transform s.build .inv x).map Cplx.re).getD j 0#64 = (transform s.build .inv x)[j].re := by simp [hj]
  obtain ⟨hlaid, -⟩ := transform_laid s.build .inv x _ (List.getElem_mem hlen)
  simp only [inverseReal, State.setSlot_tabRead]
  rw [State.tabRead_tabWrite_inside _ _ _ (by rwa [List.length_map]), hre, hget]
  exact hlaid

/-- Settles O29: `inverseReal` on the entries of `BS`, field by field. -/
theorem fftInvrWritesTheSlot : Obligations.FftInvrWritesTheSlot := by
  refine fun s bs slot w => ⟨checkInvr_eq s.build bs slot, fun hb hslots hi hbs hslot => ?_⟩
  have hc : operandFault (.fftInvr bs slot) s = none := by
    simp [operandFault, checkInvr_eq, hbs, hslot]
  have hk : slot.toNat < s.slots.length := hslots ▸ hslot
  have hn : s.build.n < 2 ^ 18 := Nat.pow_lt_pow_right (by decide) (Nat.lt_succ_of_le hb.log2n_le)
  have hdesc : (effectOf (.fftInvr bs slot) s).finish.slot slot.toNat =
      { s.slot slot.toNat with len := BitVec.ofNat 18 s.build.n } := State.slot_setSlot_same _ hk _
  refine ⟨_, exec_completes hi hc, rfl, rfl, fun j hj => inverseReal_tabRead _ slot s hj, ?_, ?_, ?_, fun k hne => ?_, ?_,
    fun a ha => ?_⟩
  · rw [hdesc]; exact Nat.mod_eq_of_lt hn
  · rw [hdesc]
  · rw [hdesc]
  · exact State.slot_setSlot_other _ hne _
  · exact List.length_set
  · refine State.byteAt_tabWrite_outside { s with scr := transform s.build .inv (s.bufEntries bs) } _ _ ?_
    rw [List.length_map, transform_length]
    unfold InSamples tabAddr at ha
    unfold tabAddr
    dsimp only
    omega

end Sys2Proof.Machine

/-! ## Bit reversal (R113) -/

namespace Sys2Proof.Machine

/-- The low bit of an index becomes the high bit of its reversal. -/
theorem rev_succ (l i : Nat) : rev (l + 1) i = (i % 2) * 2 ^ l + rev l (i / 2) := rfl

theorem rev_lt (l i : Nat) : rev l i < 2 ^ l := by
  induction l generalizing i with
  | zero => exact Nat.one_pos
  | succ l ih =>
    have hrest := ih (i / 2)
    rw [rev_succ, pow_succ]
    rcases Nat.mod_two_eq_zero_or_one i with hbit | hbit <;> rw [hbit] <;> omega

/-- The high bit of an index becomes the low bit of its reversal. -/
theorem rev_add_high_bit (l : Nat) {c r : Nat} (hc : c < 2) (hr : r < 2 ^ l) :
    rev (l + 1) (c * 2 ^ l + r) = 2 * rev l r + c := by
  induction l generalizing r with
  | zero =>
    obtain rfl : r = 0 := by omega
    simp [rev, Nat.mod_eq_of_lt hc]
  | succ l ih =>
    have hdouble : c * 2 ^ (l + 1) = 2 * (c * 2 ^ l) := by ring
    have hlow : (c * 2 ^ (l + 1) + r) % 2 = r % 2 := by omega
    have hrest : (c * 2 ^ (l + 1) + r) / 2 = c * 2 ^ l + r / 2 := by omega
    rw [rev_succ, hlow, hrest, ih (by omega), rev_succ l r]
    ring

/-- The sum of R113: bit `b` of the index, moved to `L - 1 - b`. -/
theorem rev_eq_sum (l i : Nat) :
    rev l i = ((List.range l).map fun b => (if i.testBit b then 1 else 0) * 2 ^ (l - 1 - b)).sum := by
  induction l generalizing i with
  | zero => rfl
  | succ l ih =>
    have hlow : i % 2 = if i.testBit 0 then 1 else 0 := by
      rcases Nat.mod_two_eq_zero_or_one i with hbit | hbit <;> simp [Nat.testBit_zero, hbit]
    rw [rev_succ, ih, hlow, List.range_succ_eq_map, List.map_cons, List.map_map, List.sum_cons]
    simp only [Function.comp_def, Nat.succ_eq_add_one, Nat.testBit_add_one, Nat.add_sub_cancel, Nat.sub_zero,
      Nat.sub_sub, Nat.add_comm 1]

/-- `rev` is its own inverse on the indices of a buffer: the bit moved up is moved down again. -/
theorem rev_rev {l i : Nat} (hi : i < 2 ^ l) : rev l (rev l i) = i := by
  induction l generalizing i with
  | zero => exact (Nat.lt_one_iff.mp hi).symm
  | succ l ih =>
    rw [pow_succ] at hi
    rw [rev_succ l i, rev_add_high_bit l (Nat.mod_lt _ two_pos) (rev_lt ..), ih (by omega)]
    omega

/-- Settles O49, by induction on the number of bits. -/
theorem bitReversalIsItsOwnInverse : Obligations.BitReversalIsItsOwnInverse := fun l i =>
  ⟨rev_eq_sum l i, fun hi => ⟨rev_lt l i, rev_rev hi⟩, by decide⟩

end Sys2Proof.Machine

/-! ## The transform as a loop nest over an array, in place (R111 to R117)

The model's transform works on lists; R116 and R117 are loops over an array. The two are compared loop by loop: after each
loop the array holds the list the model computes, and nothing else in it has changed. -/

namespace Sys2Proof.Machine

/-! ### An array that holds a list -/

/-- The entries of the array `f` from `c` on are those of the list `y`. -/
def Holds (f : Nat → Cplx) : Nat → List Cplx → Prop
  | _, [] => True
  | c, z :: y => f c = z ∧ Holds f (c + 1) y

theorem Holds.congr {f g : Nat → Cplx} {c : Nat} {y : List Cplx} (h : Holds f c y)
    (hfg : ∀ x, c ≤ x → x < c + y.length → g x = f x) : Holds g c y := by
  induction y generalizing c with
  | nil => trivial
  | cons z y ih =>
    simp only [List.length_cons] at hfg
    obtain ⟨hz, hy⟩ := h
    exact ⟨(hfg c (by omega) (by omega)).trans hz, ih hy fun x hlo hhi => hfg x (by omega) (by omega)⟩

theorem holds_append {f : Nat → Cplx} {c : Nat} {y z : List Cplx} :
    Holds f c (y ++ z) ↔ Holds f c y ∧ Holds f (c + y.length) z := by
  induction y generalizing c with
  | nil => simp [Holds]
  | cons a y ih => simp [Holds, ih, and_assoc, Nat.add_assoc, Nat.add_comm 1]

theorem Holds.take {f : Nat → Cplx} {c : Nat} {y : List Cplx} (h : Holds f c y) (n : Nat) : Holds f c (y.take n) :=
  (holds_append.mp ((List.take_append_drop n y).symm ▸ h)).1

theorem Holds.drop {f : Nat → Cplx} {c n : Nat} {y : List Cplx} (h : Holds f c y) (hn : n ≤ y.length) :
    Holds f (c + n) (y.drop n) := by
  have hsplit := (holds_append.mp ((List.take_append_drop n y).symm ▸ h)).2
  rwa [List.length_take, Nat.min_eq_left hn] at hsplit

theorem Holds.getD {f : Nat → Cplx} {c i : Nat} {y : List Cplx} (h : Holds f c y) (hi : i < y.length) (d : Cplx) :
    y.getD i d = f (c + i) := by
  induction y generalizing c i with
  | nil => exact absurd hi (Nat.not_lt_zero i)
  | cons z y ih =>
    obtain ⟨hz, hy⟩ := h
    cases i with
    | zero => exact hz.symm
    | succ i =>
      rw [List.getD_cons_succ, ih hy (Nat.lt_of_succ_lt_succ hi)]
      congr 1
      omega

theorem holds_map_range (f : Nat → Cplx) (n : Nat) : Holds f 0 ((List.range n).map f) := by
  induction n with
  | zero => trivial
  | succ n ih =>
    rw [List.range_succ, List.map_append, holds_append]
    exact ⟨ih, by simp [Holds]⟩

/-! ### The loops -/

/-- One turn of the `j` loop of R117: the butterfly on entries `k + j` and `k + j + m`, and the next twiddle. -/
def butterflyStep (p : Prec) (ws : Cplx) (m k : Nat) (st : (Nat → Cplx) × Cplx) (j : Nat) : (Nat → Cplx) × Cplx :=
  (butterflyAt p st.2 st.1 (k + j) (k + j + m), productOf p st.2 ws)

theorem butterflyAt_first (p : Prec) (w : Cplx) (f : Nat → Cplx) (i j : Nat) :
    butterflyAt p w f i j i = cadd p (f i) (cmul p w (f j)) := if_pos rfl

theorem butterflyAt_second (p : Prec) (w : Cplx) (f : Nat → Cplx) {i j : Nat} (hij : j ≠ i) :
    butterflyAt p w f i j j = csub p (f i) (cmul p w (f j)) := (if_neg hij).trans (if_pos rfl)

theorem butterflyAt_other (p : Prec) (w : Cplx) (f : Nat → Cplx) {i j x : Nat} (hi : x ≠ i) (hj : x ≠ j) :
    butterflyAt p w f i j x = f x := (if_neg hi).trans (if_neg hj)

/-- The `j` loop from turn `j` on, over an array that holds the two lists `m` entries apart, leaves the lists `butterflies`
yields in their places, and everything else alone. -/
theorem butterflies_in_place (p : Prec) (ws : Cplx) (m k : Nat) {as bs : List Cplx} (hlen : bs.length = as.length)
    (hm : as.length ≤ m) (j : Nat) (w : Cplx) (f : Nat → Cplx) (ha : Holds f (k + j) as) (hb : Holds f (k + j + m) bs) :
    let f' := ((List.range' j as.length).foldl (butterflyStep p ws m k) (f, w)).1
    Holds f' (k + j) (butterflies p ws w as bs).1 ∧ Holds f' (k + j + m) (butterflies p ws w as bs).2 ∧
      ∀ x, (x < k + j ∨ k + j + as.length ≤ x) → (x < k + j + m ∨ k + j + m + as.length ≤ x) → f' x = f x := by
  induction as generalizing bs j w f with
  | nil => simp [butterflies, Holds]
  | cons a as ih =>
    obtain _ | ⟨b, bs⟩ := bs
    · simp at hlen
    simp only [List.length_cons, Nat.add_right_cancel_iff] at hlen hm ⊢
    obtain ⟨ha, has⟩ := ha
    obtain ⟨hb, hbs⟩ := hb
    have hm' : k + (j + 1) + m = k + j + m + 1 := by omega
    have hother (x : Nat) := butterflyAt_other p w f (i := k + j) (j := k + j + m) (x := x)
    obtain ⟨h1, h2, hrest⟩ := ih hlen (by omega) (j + 1) (productOf p w ws) (butterflyAt p w f (k + j) (k + j + m))
      (has.congr fun x _ _ => hother x (by omega) (by omega))
      (hm' ▸ hbs.congr fun x _ _ => hother x (by omega) (by omega))
    refine ⟨⟨?_, h1⟩, ⟨?_, hm' ▸ h2⟩, fun x hx hx' => ?_⟩
    · exact ha ▸ hb ▸ (hrest _ (by omega) (by omega)).trans (butterflyAt_first ..)
    · exact ha ▸ hb ▸ (hrest _ (by omega) (by omega)).trans (butterflyAt_second _ _ _ (by omega))
    · exact (hrest x (by omega) (by omega)).trans (hother x (by omega) (by omega))

theorem groupLoop_eq (p : Prec) (ws : Cplx) (m k : Nat) (f : Nat → Cplx) :
    groupLoop p ws m k f = ((List.range' 0 m).foldl (butterflyStep p ws m k) (f, ⟨toF p 1, 0#64⟩)).1 := by
  rw [← List.range_eq_range']
  rfl

/-- The `k` loop from group `c` on, over an array that holds `g` groups of `2m` entries, leaves the list `stage` yields in
their place, and the entries before them alone. -/
theorem stage_in_place (p : Prec) (ws : Cplx) (m g : Nat) (c : Nat) {y : List Cplx} (hlen : y.length = g * (2 * m))
    (f : Nat → Cplx) (hy : Holds f (c * (2 * m)) y) :
    let f' := (List.range' c g).foldl (fun f g => groupLoop p ws m (g * (2 * m)) f) f
    Holds f' (c * (2 * m)) (stage p ws m g y) ∧ ∀ x, x < c * (2 * m) → f' x = f x := by
  induction g generalizing c y f with
  | zero => simp [stage, Holds]
  | succ g ih =>
    have hlen' : y.length = g * (2 * m) + 2 * m := by rw [hlen]; ring
    have hc : (c + 1) * (2 * m) = c * (2 * m) + 2 * m := by ring
    have htake : (y.take m).length = m := by rw [List.length_take]; omega
    have hmid : ((y.drop m).take m).length = m := by rw [List.length_take, List.length_drop]; omega
    have hgroup := butterflies_in_place p ws m (c * (2 * m)) (hmid.trans htake.symm) htake.le 0 ⟨toF p 1, 0#64⟩ f
      (hy.take m) ((hy.drop (by omega)).take m)
    rw [htake, ← groupLoop_eq] at hgroup
    obtain ⟨hfst, hsnd, hother⟩ := hgroup
    obtain ⟨hrest, hbefore⟩ := ih (c + 1) (y := y.drop (2 * m)) (by rw [List.length_drop]; omega)
      (groupLoop p ws m (c * (2 * m)) f)
      (hc ▸ (hy.drop (by omega)).congr fun x _ _ => hother x (by omega) (by omega))
    obtain ⟨hl1, hl2⟩ := butterflies_length p ws ⟨toF p 1, 0#64⟩ (y.take m) ((y.drop m).take m)
    rw [htake, hmid, Nat.min_self] at hl1 hl2
    refine ⟨?_, fun x hx => (hbefore x (by omega)).trans (hother x (by omega) (by omega))⟩
    rw [stage, holds_append, holds_append, List.length_append, hl1, hl2]
    refine ⟨⟨hfst.congr fun x _ _ => hbefore x (by omega), hsnd.congr fun x _ _ => hbefore x (by omega)⟩, ?_⟩
    rw [← two_mul, ← hc]
    exact hrest

/-- The groups of stage `s` (R117). -/
theorem groups_eq {l s : Nat} (h : s < l) : 2 ^ l / (2 * 2 ^ s) = 2 ^ (l - 1 - s) := by
  rw [groups_cover h, Nat.mul_div_cancel _ (by positivity)]

/-- The rotator of each direction is that of R115. -/
theorem rotator_eq_wsOf (p : Prec) (dir : Dir) (s : Nat) : rotator p dir s = wsOf p dir s := by cases dir <;> rfl

/-- One turn of the `s` loop of R117: the `k` loop over all groups of stage `s`. -/
def stageLoop (b : Build) (dir : Dir) (f : Nat → Cplx) (s : Nat) : Nat → Cplx :=
  (List.range (2 ^ b.log2n / (2 * 2 ^ s))).foldl
    (fun f g => groupLoop b.prec (wsOf b.prec dir s) (2 ^ s) (g * (2 * 2 ^ s)) f) f

theorem stageLoop_eq (b : Build) (dir : Dir) (f : Nat → Cplx) {s : Nat} (hs : s < b.log2n) :
    stageLoop b dir f s = (List.range' 0 (2 ^ (b.log2n - 1 - s))).foldl
      (fun f g => groupLoop b.prec (rotator b.prec dir s) (2 ^ s) (g * (2 * 2 ^ s)) f) f := by
  rw [stageLoop, groups_eq hs, List.range_eq_range', rotator_eq_wsOf]

/-- The `s` loop of R117 from stage `s` on, over an array that holds the buffer. -/
theorem stagesFrom_in_place (b : Build) (dir : Dir) (k s : Nat) (hk : s + k ≤ b.log2n) {y : List Cplx}
    (hlen : y.length = b.n) (f : Nat → Cplx) (hy : Holds f 0 y) :
    Holds ((List.range' s k).foldl (stageLoop b dir) f) 0 (stagesFrom b dir k s y) := by
  induction k generalizing s y f with
  | zero => exact hy
  | succ k ih =>
    have hs : s < b.log2n := by omega
    have hgroups : y.length = 2 ^ (b.log2n - 1 - s) * (2 * 2 ^ s) := hlen.trans (groups_cover hs)
    refine ih (s + 1) (by omega) ((stage_length _ _ _ _ _ hgroups).trans hlen) _ ?_
    obtain ⟨hstage, -⟩ :=
      stage_in_place b.prec (rotator b.prec dir s) (2 ^ s) _ 0 hgroups f (by rwa [Nat.zero_mul])
    rwa [← stageLoop_eq b dir f hs, Nat.zero_mul] at hstage

/-- Step 1 of R116: the array of the permuted and normalised entries holds the list `permute` yields. -/
theorem permute_in_place (b : Build) (x : List Cplx) :
    Holds (fun i => ⟨fmul b.prec (normFactor b) (x.getD (rev b.log2n i) ⟨0#64, 0#64⟩).re,
      fmul b.prec (normFactor b) (x.getD (rev b.log2n i) ⟨0#64, 0#64⟩).im⟩) 0 (permute b x) := holds_map_range _ _

/-- Settles O50, loop by loop. -/
theorem transformIsTheLoopNest : Obligations.TransformIsTheLoopNest := by
  intro b dir x i hi
  have h := stagesFrom_in_place b dir b.log2n 0 (by omega) (permute_length b x) _ (permute_in_place b x)
  rw [← List.range_eq_range'] at h
  rw [transform, h.getD (by rwa [← transform, transform_length]), Nat.zero_add]
  rfl

end Sys2Proof.Machine

/-! ## Finite values and their grid (R14): every finite value is a significand times a power of two -/

namespace Sys2Proof.Machine

theorem fmtHidden_pos (p : Prec) : 0 < fmtHidden p := Nat.two_pow_pos _

theorem two_mul_fmtHidden (p : Prec) : 2 * fmtHidden p = 2 ^ p.digits := by cases p <;> rfl

theorem fmtHidden_even (p : Prec) : fmtHidden p % 2 = 0 := by cases p <;> rfl

theorem fmtInf_lt_fmtSign (p : Prec) : fmtInf p < fmtSign p := by cases p <;> decide

theorem isFinite_iff {p : Prec} {v : F} : isFinite p v = true ↔ fmag p v < fmtInf p := decide_eq_true_iff

/-- The significand of a finite value: its fraction bits, with the hidden bit when it is normal. -/
def significand (p : Prec) (v : F) : Nat :=
  if fmag p v < fmtHidden p then fmag p v else fmag p v % fmtHidden p + fmtHidden p

/-- How many doublings lead from the least subnormal to the unit of the last digit of a finite value. -/
def binade (p : Prec) (v : F) : Nat := fmag p v / fmtHidden p - 1

/-- The unit of the last place in binade `j`: the `j`-th doubling of the least subnormal. -/
noncomputable def ulp (p : Prec) (j : Nat) : ℝ := 2 ^ (fmtExpMin p + j)

theorem ulp_pos (p : Prec) (j : Nat) : 0 < ulp p j := zpow_pos two_pos _

theorem ulp_add (p : Prec) (j d : Nat) : ulp p (j + d) = 2 ^ d * ulp p j := by
  unfold ulp
  rw [Nat.cast_add, ← add_assoc, zpow_add₀ two_ne_zero, zpow_natCast, mul_comm]

theorem significand_lt (p : Prec) (v : F) : significand p v < 2 * fmtHidden p := by
  have := Nat.mod_lt (fmag p v) (fmtHidden_pos p)
  unfold significand
  split <;> omega

/-- The magnitude bits are the significand and the binade, added: the hidden bit carries into the exponent field. -/
theorem significand_add_binade (p : Prec) (v : F) : significand p v + binade p v * fmtHidden p = fmag p v := by
  unfold significand binade
  split
  · next h => simp [Nat.div_eq_of_lt h]
  · next h =>
    have hex : 1 ≤ fmag p v / fmtHidden p := (Nat.one_le_div_iff (fmtHidden_pos p)).mpr (Nat.le_of_not_lt h)
    have hsplit := Nat.mod_add_div' (fmag p v) (fmtHidden p)
    rw [Nat.sub_mul, Nat.one_mul]
    have := Nat.mul_le_mul_right (fmtHidden p) hex
    omega

theorem binade_eq_zero_or_normal (p : Prec) (v : F) : binade p v = 0 ∨ fmtHidden p ≤ significand p v := by
  unfold significand binade
  split
  · next h => simp [Nat.div_eq_of_lt h]
  · exact .inr (Nat.le_add_left _ _)

theorem unpack_finite {p : Prec} {v : F} (h : isFinite p v = true) :
    unpack p v = .fin (fsign p v) (significand p v) (fmtExpMin p + binade p v) := by
  have hex : fmag p v / fmtHidden p ≠ fmtExpMax p := fun he => by
    have := Nat.div_mul_le_self (fmag p v) (fmtHidden p)
    have := isFinite_iff.mp h
    rw [fmtInf, ← he] at this
    omega
  unfold unpack significand binade
  rw [if_neg hex]
  by_cases hsub : fmag p v < fmtHidden p
  · simp [hsub, Nat.div_eq_of_lt hsub, Nat.mod_eq_of_lt hsub]
  · have : fmag p v / fmtHidden p ≠ 0 := fun h0 => hsub ((Nat.div_eq_zero_iff_lt (fmtHidden_pos p)).mp h0)
    simp [hsub, this]

/-- The sign of a value as a factor. -/
def signFactor (neg : Bool) : ℤ := if neg then -1 else 1

theorem realOf_finite {p : Prec} {v : F} (h : isFinite p v = true) :
    (realOf p v : ℝ) = (signFactor (fsign p v) * significand p v : ℤ) * ulp p (binade p v) := by
  unfold realOf ulp signFactor
  rw [unpack_finite h]
  cases fsign p v <;> simp

/-- A magnitude is a significand and a binade in one way only. -/
theorem significand_binade_unique {h a b i j : Nat} (heq : a + i * h = b + j * h) (ha : a < 2 * h) (hb : b < 2 * h)
    (hi : i = 0 ∨ h ≤ a) (hj : j = 0 ∨ h ≤ b) : a = b ∧ i = j := by
  wlog hij : i ≤ j generalizing a b i j
  · exact (this heq.symm hb ha hj hi (Nat.le_of_not_le hij)).imp Eq.symm Eq.symm
  obtain ⟨d, rfl⟩ := Nat.exists_eq_add_of_le hij
  rw [Nat.add_mul] at heq
  rcases d with _ | d
  · omega
  · rw [Nat.add_mul d 1] at heq
    omega

/-- A pattern whose magnitude is `sig` and `j` hidden bits stands for `sig` units of binade `j`; `sig` may be the power of
two that a carry makes of it. -/
theorem realOf_of_fmag {p : Prec} {v : F} {sig j : Nat} (h : isFinite p v = true) (hs : fsign p v = false)
    (hv : fmag p v = sig + j * fmtHidden p) (hsig : sig ≤ 2 * fmtHidden p) (hj : j = 0 ∨ fmtHidden p ≤ sig) :
    (realOf p v : ℝ) = sig * ulp p j := by
  have hval : (realOf p v : ℝ) = significand p v * ulp p (binade p v) := by
    rw [realOf_finite h, hs]
    simp [signFactor]
  have hmag := (significand_add_binade p v).trans hv
  have hpos := fmtHidden_pos p
  rcases Nat.lt_or_eq_of_le hsig with hlt | rfl
  · obtain ⟨hsame, hbinade⟩ :=
      significand_binade_unique hmag (significand_lt p v) hlt (binade_eq_zero_or_normal p v) hj
    rw [hval, hsame, hbinade]
  · have hcarry : 2 * fmtHidden p + j * fmtHidden p = fmtHidden p + (j + 1) * fmtHidden p := by ring
    obtain ⟨hsame, hbinade⟩ := significand_binade_unique (hmag.trans hcarry) (significand_lt p v) (by omega)
      (binade_eq_zero_or_normal p v) (.inr le_rfl)
    rw [hval, hsame, hbinade, ulp_add]
    push_cast
    ring

/-- A finite value is a multiple of the unit of binade `j`, or lies below that binade. -/
theorem realOf_on_grid_or_below {p : Prec} {v : F} (h : isFinite p v = true) (j : Nat) :
    (∃ k : ℤ, (realOf p v : ℝ) = k * ulp p j) ∨ (j ≠ 0 ∧ (realOf p v : ℝ) < fmtHidden p * ulp p j) := by
  rw [realOf_finite h]
  rcases Nat.lt_or_ge (binade p v) j with hj | hj
  · refine .inr ⟨by omega, ?_⟩
    obtain ⟨d, rfl⟩ := Nat.exists_eq_add_of_lt hj
    have hd : (1 : ℝ) ≤ 2 ^ d := one_le_pow₀ one_le_two
    have hsig : (significand p v : ℝ) < 2 * fmtHidden p := mod_cast significand_lt p v
    have hsigned : ((signFactor (fsign p v) * significand p v : ℤ) : ℝ) ≤ significand p v := by
      cases fsign p v <;> simp [signFactor]
    have hu := ulp_pos p (binade p v)
    calc ((signFactor (fsign p v) * significand p v : ℤ) : ℝ) * ulp p (binade p v)
        ≤ significand p v * ulp p (binade p v) := by gcongr
      _ < 2 * fmtHidden p * ulp p (binade p v) := by gcongr
      _ ≤ fmtHidden p * (2 ^ d * 2 * ulp p (binade p v)) := by nlinarith [mul_nonneg (fmtHidden p).cast_nonneg hu.le]
      _ = fmtHidden p * ulp p (binade p v + d + 1) := by rw [add_assoc, ulp_add, pow_succ]
  · refine .inl ⟨signFactor (fsign p v) * significand p v * 2 ^ (binade p v - j), ?_⟩
    obtain ⟨d, hd⟩ := Nat.exists_eq_add_of_le hj
    rw [hd, ulp_add, Nat.add_sub_cancel_left]
    push_cast
    ring

/-- A value within half a unit of `x`, in a binade `x` is not below, is a nearest one. -/
theorem nearestEvenReal_of_grid {p : Prec} {x : ℝ} {v : F} {sig j : Nat} (hv : isFinite p v = true)
    (hval : (realOf p v : ℝ) = sig * ulp p j) (hx : j = 0 ∨ fmtHidden p * ulp p j ≤ x)
    (hnear : |(realOf p v : ℝ) - x| ≤ ulp p j / 2)
    (htie : |(realOf p v : ℝ) - x| = ulp p j / 2 → fmag p v % 2 = 0) : NearestEvenReal p x v := by
  have hgrid (k : ℤ) : (k : ℝ) * ulp p j = realOf p v ∨ ulp p j / 2 ≤ |(k : ℝ) * ulp p j - x| := by
    rcases eq_or_ne k sig with rfl | hk
    · exact .inl (by rw [hval, Int.cast_natCast])
    · have hstep : ulp p j ≤ |(k : ℝ) * ulp p j - realOf p v| := by
        have hone : (1 : ℝ) ≤ |(k : ℝ) - sig| := mod_cast Int.one_le_abs (sub_ne_zero.mpr hk)
        rw [hval, ← sub_mul, abs_mul, abs_of_pos (ulp_pos p j)]
        exact le_mul_of_one_le_left (ulp_pos p j).le hone
      have htriangle := abs_sub_le ((k : ℝ) * ulp p j) x (realOf p v)
      rw [abs_sub_comm x] at htriangle
      exact .inr (by linarith)
  refine ⟨hv, fun y hy => ?_⟩
  obtain ⟨k, hk⟩ | ⟨hj, hbelow⟩ := realOf_on_grid_or_below hy j
  · rw [hk]
    rcases hgrid k with heq | hfar
    · exact ⟨by rw [heq], fun _ => .inl (mod_cast hk.trans heq)⟩
    · exact ⟨hnear.trans hfar, fun h => .inr (htie (le_antisymm hnear (hfar.trans h.ge)))⟩
  · have hxge := hx.resolve_left hj
    have hlt : |(realOf p v : ℝ) - x| < |(realOf p y : ℝ) - x| := by
      have hfirst : |(realOf p v : ℝ) - x| ≤ |(fmtHidden p : ℝ) * ulp p j - x| := by
        rcases hgrid (fmtHidden p) with heq | hfar
        · rw [← heq, Int.cast_natCast]
        · exact hnear.trans (mod_cast hfar)
      rw [abs_of_nonpos (a := (fmtHidden p : ℝ) * ulp p j - x) (by linarith)] at hfirst
      rw [abs_of_neg (a := (realOf p y : ℝ) - x) (by linarith)]
      linarith
    exact ⟨hlt.le, fun h => absurd h hlt.ne⟩

end Sys2Proof.Machine

/-! ## Rounding (R14): `roundF` yields a nearest value, ties to even -/

namespace Sys2Proof.Machine

/-- The positive real that `roundF` rounds: `m * 2^e`, or one strictly between it and `(m + 1) * 2^e` when `sticky`. -/
def Stands (m : Nat) (e : Int) (sticky : Bool) (x : ℝ) : Prop :=
  if sticky then m * 2 ^ e < x ∧ x < (m + 1) * 2 ^ e else x = m * (2 : ℝ) ^ e

theorem Stands.le {m : Nat} {e : Int} {sticky : Bool} {x : ℝ} (h : Stands m e sticky x) : m * 2 ^ e ≤ x := by
  cases sticky
  · exact h.ge
  · exact h.1.le

theorem Stands.lt {m : Nat} {e : Int} {sticky : Bool} {x : ℝ} (h : Stands m e sticky x) : x < (m + 1) * 2 ^ e := by
  cases sticky
  · have hpos : (0 : ℝ) < 2 ^ e := zpow_pos two_pos _
    rw [show x = m * 2 ^ e from h]
    linarith
  · exact h.2

/-- Without a sticky digit the real is `m * 2^e` itself, with one it is greater. -/
theorem Stands.eq_iff {m : Nat} {e : Int} {sticky : Bool} {x : ℝ} (h : Stands m e sticky x) :
    x = m * 2 ^ e ↔ sticky = false := by
  cases sticky
  · exact ⟨fun _ => rfl, fun _ => h⟩
  · exact ⟨fun hx => absurd hx h.1.ne', nofun⟩

theorem Stands.scale {m : Nat} {e : Int} {sticky : Bool} {x : ℝ} (h : Stands m e sticky x) :
    Stands m 0 sticky (x / 2 ^ e) := by
  have hpos : (0 : ℝ) < 2 ^ e := zpow_pos two_pos _
  cases sticky
  · rw [show x = m * 2 ^ e from h, mul_div_cancel_right₀ _ hpos.ne']
    simp [Stands]
  · obtain ⟨hlo, hhi⟩ := h
    simpa [Stands, lt_div_iff₀ hpos, div_lt_iff₀ hpos] using ⟨hlo, hhi⟩

/-- Rounding to a multiple of `2^d` is to a nearest one, and to an even one of two equally near: said of the real `t`
between `m` and `m + 1`. -/
theorem roundShift_nearest {m d : Nat} {sticky : Bool} {t : ℝ} (hd : d ≠ 0) (ht : Stands m 0 sticky t) :
    |(roundShift m d sticky : ℝ) * 2 ^ d - t| ≤ 2 ^ d / 2 ∧
      (|(roundShift m d sticky : ℝ) * 2 ^ d - t| = 2 ^ d / 2 → roundShift m d sticky % 2 = 0) := by
  obtain ⟨d, rfl⟩ := Nat.exists_eq_succ_of_ne_zero hd
  have hm : (m : ℝ) = (m / 2 ^ (d + 1) : ℕ) * (2 * 2 ^ d) + (m % 2 ^ (d + 1) : ℕ) := by
    rw [← pow_succ']
    exact_mod_cast (Nat.div_add_mod' m (2 ^ (d + 1))).symm
  have hr : ((m % 2 ^ (d + 1) : ℕ) : ℝ) + 1 ≤ 2 * 2 ^ d := by
    rw [← pow_succ']
    exact_mod_cast Nat.mod_lt m (Nat.two_pow_pos (d + 1))
  have hlo : (m : ℝ) ≤ t := by simpa using ht.le
  have hhi : t < (m : ℝ) + 1 := by simpa using ht.lt
  have heq : t = m ↔ sticky = false := by simpa using ht.eq_iff
  have hhalf : 2 ^ (d + 1) / 2 = 2 ^ d := by rw [pow_succ, Nat.mul_div_cancel _ two_pos]
  unfold roundShift
  simp only [Nat.succ_eq_add_one, hhalf, pow_succ' (2 : ℝ) d, mul_div_cancel_left₀ (2 ^ d : ℝ) two_ne_zero]
  generalize m / 2 ^ (d + 1) = q at hm
  generalize m % 2 ^ (d + 1) = r at hm hr
  split
  · next hup =>
    have hge : (2 : ℝ) ^ d ≤ r := by
      have : 2 ^ d ≤ r := by omega
      exact_mod_cast this
    push_cast
    rw [abs_of_nonneg (by linarith)]
    refine ⟨by linarith, fun h => ?_⟩
    have hsticky := heq.mp (by linarith)
    have hr' : r = 2 ^ d := by
      have : (r : ℝ) = 2 ^ d := by linarith
      exact_mod_cast this
    simp [hr', hsticky] at hup
    omega
  · next hdown =>
    rw [abs_of_nonpos (by linarith)]
    rcases Nat.lt_or_ge r (2 ^ d) with hlt | hge
    · have hlt : (r : ℝ) + 1 ≤ 2 ^ d := mod_cast hlt
      exact ⟨by linarith, fun h => absurd h (by linarith)⟩
    · obtain rfl : r = 2 ^ d := by omega
      have ht := heq.mpr (by simpa using fun h => hdown (.inr ⟨rfl, .inl h⟩))
      push_cast at hm
      exact ⟨by linarith, fun _ => by omega⟩

theorem quantum_ge (p : Prec) (m : Nat) (e : Int) : fmtExpMin p ≤ quantum p m e := le_max_right ..

/-- The binade the last kept digit of `m * 2^e` lies in. -/
def roundBinade (p : Prec) (m : Nat) (e : Int) : Nat := (quantum p m e - fmtExpMin p).toNat

theorem quantum_eq (p : Prec) (m : Nat) (e : Int) : quantum p m e = fmtExpMin p + roundBinade p m e := by
  have := quantum_ge p m e
  unfold roundBinade
  omega

/-- The significand `roundMag` computes, a carry included. -/
def roundSig (p : Prec) (m : Nat) (e : Int) (sticky : Bool) : Nat :=
  if quantum p m e ≤ e then m * 2 ^ (e - quantum p m e).toNat else roundShift m (quantum p m e - e).toNat sticky

theorem roundMag_eq (p : Prec) (m : Nat) (e : Int) (sticky : Bool) :
    roundMag p m e sticky = min (roundSig p m e sticky + roundBinade p m e * fmtHidden p) (fmtInf p) := rfl

/-- At most `digits` digits are kept. -/
theorem succ_le_two_hidden_ulp (p : Prec) (m : Nat) (e : Int) :
    ((m : ℝ) + 1) * 2 ^ e ≤ 2 * fmtHidden p * ulp p (roundBinade p m e) := by
  have hm : ((m + 1 : ℕ) : ℝ) ≤ 2 ^ (Nat.log2 m + 1) := mod_cast Nat.lt_log2_self
  have hexp : e + (Nat.log2 m + 1 : Nat) ≤ p.digits + quantum p m e := by
    have := le_max_left (e + (Nat.log2 m + 1 : Nat) - p.digits) (fmtExpMin p)
    rw [quantum]
    omega
  calc ((m : ℝ) + 1) * 2 ^ e ≤ 2 ^ (Nat.log2 m + 1) * 2 ^ e := by gcongr; exact_mod_cast hm
    _ = 2 ^ (e + (Nat.log2 m + 1 : Nat)) := by rw [zpow_add₀ two_ne_zero, zpow_natCast, mul_comm]
    _ ≤ 2 ^ (p.digits + quantum p m e) := zpow_le_zpow_right₀ one_le_two hexp
    _ = 2 * fmtHidden p * ulp p (roundBinade p m e) := by
      rw [zpow_add₀ two_ne_zero, zpow_natCast, ulp, ← quantum_eq]
      exact_mod_cast congrArg (· * _) (congrArg Nat.cast (two_mul_fmtHidden p).symm)

/-- Above the subnormals exactly `digits` digits are kept. -/
theorem hidden_ulp_le {p : Prec} {m : Nat} (hm : m ≠ 0) {e : Int} (h : roundBinade p m e ≠ 0) :
    fmtHidden p * ulp p (roundBinade p m e) ≤ m * (2 : ℝ) ^ e := by
  have hlog : ((2 ^ Nat.log2 m : ℕ) : ℝ) ≤ m := mod_cast Nat.log2_self_le hm
  have hexp : ((p.digits - 1 : ℕ) : Int) + quantum p m e = e + (Nat.log2 m : Nat) := by
    have hdigits : 1 ≤ p.digits := by cases p <;> decide
    have := quantum_eq p m e
    have hq : quantum p m e = max (e + (Nat.log2 m + 1 : Nat) - p.digits) (fmtExpMin p) := rfl
    omega
  calc fmtHidden p * ulp p (roundBinade p m e) = 2 ^ (((p.digits - 1 : ℕ) : Int) + quantum p m e) := by
        rw [zpow_add₀ two_ne_zero, zpow_natCast, ulp, ← quantum_eq, fmtHidden]
        push_cast
        rfl
    _ = 2 ^ Nat.log2 m * 2 ^ e := by rw [hexp, zpow_add₀ two_ne_zero, zpow_natCast, mul_comm]
    _ ≤ m * 2 ^ e := by gcongr; exact_mod_cast hlog

/-- The significand is the real in units of its binade, rounded to a nearest integer, ties to even. With a sticky digit
there must be digits to drop. -/
theorem roundSig_nearest {p : Prec} {m : Nat} {e : Int} {sticky : Bool} {x : ℝ} (hx : Stands m e sticky x)
    (hdrop : sticky = true → 2 ^ p.digits ≤ m) :
    |(roundSig p m e sticky : ℝ) * ulp p (roundBinade p m e) - x| ≤ ulp p (roundBinade p m e) / 2 ∧
      (|(roundSig p m e sticky : ℝ) * ulp p (roundBinade p m e) - x| = ulp p (roundBinade p m e) / 2 →
        roundSig p m e sticky % 2 = 0) := by
  have hpos := ulp_pos p (roundBinade p m e)
  unfold roundSig
  split
  · next hq =>
    have hsticky : sticky = false := by
      by_contra h
      have hdigits := hdrop (by simpa using h)
      have hlog : p.digits ≤ Nat.log2 m := (Nat.le_log2 (Nat.two_pow_pos _ |>.trans_le hdigits).ne').mpr hdigits
      have : e + (Nat.log2 m + 1 : Nat) - p.digits ≤ quantum p m e := le_max_left ..
      omega
    have hval : ((m * 2 ^ (e - quantum p m e).toNat : ℕ) : ℝ) * ulp p (roundBinade p m e) = x := by
      rw [hx.eq_iff.mpr hsticky, ulp, ← quantum_eq]
      push_cast
      rw [mul_assoc, ← zpow_natCast, ← zpow_add₀ two_ne_zero]
      congr 2
      omega
    rw [hval, sub_self, abs_zero]
    exact ⟨by linarith, fun h => absurd h (by linarith)⟩
  · next hq =>
    obtain ⟨hnear, htie⟩ := roundShift_nearest (d := (quantum p m e - e).toNat) (by omega) hx.scale
    have hpos' : (0 : ℝ) < 2 ^ e := zpow_pos two_pos _
    have hulp : ulp p (roundBinade p m e) = 2 ^ (quantum p m e - e).toNat * 2 ^ e := by
      rw [ulp, ← quantum_eq, ← zpow_natCast, ← zpow_add₀ two_ne_zero]
      congr 1
      omega
    have herr : ∀ R : ℝ, |R * ulp p (roundBinade p m e) - x| = |R * 2 ^ (quantum p m e - e).toNat - x / 2 ^ e| * 2 ^ e := by
      intro R
      rw [hulp, ← abs_of_pos hpos', ← abs_mul, abs_of_pos hpos', sub_mul, div_mul_cancel₀ _ hpos'.ne', mul_assoc]
    rw [herr, hulp, mul_div_right_comm]
    exact ⟨by gcongr, fun h => htie (mul_right_cancel₀ hpos'.ne' h)⟩

/-- `roundF` of a positive real below the overflow range is a nearest value, ties to even (R14). -/
theorem roundF_nearest {p : Prec} {m : Nat} {e : Int} {sticky : Bool} {x : ℝ} (hm : m ≠ 0) (hx : Stands m e sticky x)
    (hdrop : sticky = true → 2 ^ p.digits ≤ m) (hrange : roundBinade p m e + 2 < fmtExpMax p) :
    NearestEvenReal p x (roundF p false m e sticky) := by
  have hpos := ulp_pos p (roundBinade p m e)
  obtain ⟨hnear, htie⟩ := roundSig_nearest hx hdrop
  obtain ⟨hlo, hhi⟩ := abs_le.mp hnear
  have hsig : roundSig p m e sticky ≤ 2 * fmtHidden p := by
    have := hx.lt.trans_le (succ_le_two_hidden_ulp p m e)
    have : (roundSig p m e sticky : ℝ) < 2 * fmtHidden p + 1 := by
      by_contra hge
      nlinarith
    exact_mod_cast Nat.lt_succ_iff.mp (mod_cast this)
  have hnormal : roundBinade p m e ≠ 0 → fmtHidden p ≤ roundSig p m e sticky := fun h => by
    have := (hidden_ulp_le hm h).trans hx.le
    have : (fmtHidden p : ℝ) < roundSig p m e sticky + 1 := by
      by_contra hge
      nlinarith
    exact_mod_cast Nat.lt_succ_iff.mp (mod_cast this)
  have hmag : roundSig p m e sticky + roundBinade p m e * fmtHidden p < fmtInf p := by
    have hmul := Nat.mul_le_mul_right (fmtHidden p) hrange
    have hpos := fmtHidden_pos p
    rw [Nat.succ_mul, Nat.add_mul] at hmul
    unfold fmtInf
    omega
  have hround : roundF p false m e sticky =
      packBits p false (roundSig p m e sticky + roundBinade p m e * fmtHidden p) := by
    rw [roundF, if_neg hm, roundMag_eq, Nat.min_eq_left hmag.le]
  have hbits := hmag.trans (fmtInf_lt_fmtSign p)
  rw [hround]
  have hfmag := fmag_packBits (neg := false) hbits
  have hfin : isFinite p (packBits p false (roundSig p m e sticky + roundBinade p m e * fmtHidden p)) = true :=
    isFinite_iff.mpr (hfmag.trans_lt hmag)
  have hval := realOf_of_fmag hfin (fsign_packBits hbits) hfmag hsig (or_iff_not_imp_left.mpr hnormal)
  refine nearestEvenReal_of_grid hfin hval
    (or_iff_not_imp_left.mpr fun h => (hidden_ulp_le hm h).trans hx.le) (by rwa [hval]) fun h => ?_
  rw [hval] at h
  rw [hfmag, Nat.add_mod, htie h, Nat.mul_mod, fmtHidden_even, Nat.mul_zero]

end Sys2Proof.Machine

/-! ## The square root (R14, R110) and the normalisation constants (R112) -/

namespace Sys2Proof.Machine

/-- The search of `isqrtFrom` keeps the root between the part found and the part found plus the bits left. -/
theorem isqrtFrom_spec {n : Nat} (k acc : Nat) (hlo : acc * acc ≤ n)
    (hhi : n < (acc + 2 ^ (k + 1)) * (acc + 2 ^ (k + 1))) :
    isqrtFrom n k acc * isqrtFrom n k acc ≤ n ∧ n < (isqrtFrom n k acc + 1) * (isqrtFrom n k acc + 1) := by
  induction k generalizing acc with
  | zero =>
    unfold isqrtFrom
    split
    · next h => exact ⟨h, hhi⟩
    · next h => exact ⟨hlo, Nat.lt_of_not_le h⟩
  | succ k ih =>
    rw [isqrtFrom]
    split
    · next h => exact ih _ h (by rwa [Nat.add_assoc, ← two_mul, ← pow_succ'])
    · next h => exact ih _ hlo (Nat.lt_of_not_le h)

/-- The model's integer square root is the floor of the root. -/
theorem isqrt_eq_sqrt (n : Nat) : isqrt n = Nat.sqrt n := by
  have hbits : n < 2 ^ (Nat.log2 n / 2 + 1) * 2 ^ (Nat.log2 n / 2 + 1) := by
    rw [← pow_add]
    exact Nat.lt_log2_self.trans_le (Nat.pow_le_pow_right two_pos (by omega))
  obtain ⟨hlo, hhi⟩ := isqrtFrom_spec (Nat.log2 n / 2) 0 (Nat.zero_le _) (by rwa [Nat.zero_add])
  exact Nat.eq_sqrt.mpr ⟨hlo, hhi⟩

/-- The integer root, with a sticky digit when it is not exact, stands for the real root. -/
theorem stands_sqrt (n : Nat) (e : Int) :
    Stands (isqrt n) e (isqrt n * isqrt n != n) (Real.sqrt n * 2 ^ e) := by
  have hpos : (0 : ℝ) < 2 ^ e := zpow_pos two_pos _
  rw [isqrt_eq_sqrt]
  cases hexact : (Nat.sqrt n * Nat.sqrt n != n) with
  | false =>
    have hn : Nat.sqrt n * Nat.sqrt n = n := by simpa using hexact
    have hroot : Real.sqrt n = Nat.sqrt n := by
      conv_lhs => rw [← hn]
      push_cast
      exact Real.sqrt_mul_self (Nat.cast_nonneg _)
    show _ = _
    rw [hroot]
  | true =>
    have hn : (Nat.sqrt n : ℝ) ≠ Real.sqrt n := fun h => by
      have hsq : (Nat.sqrt n : ℝ) * Nat.sqrt n = n := by rw [h, Real.mul_self_sqrt (Nat.cast_nonneg _)]
      exact absurd (mod_cast hsq : Nat.sqrt n * Nat.sqrt n = n) (by simpa using hexact)
    exact ⟨by gcongr; exact lt_of_le_of_ne Real.nat_sqrt_le_real_sqrt hn,
      by gcongr; exact Real.real_sqrt_lt_nat_sqrt_succ⟩

/-- By how many bits `sqrtFinite` scales the significand. -/
def sqrtScale (p : Prec) (e : Int) : Nat := 2 * p.digits + 4 + (e % 2).toNat

theorem sqrtFinite_eq (p : Prec) (m : Nat) (e : Int) : sqrtFinite p m e =
    roundF p false (isqrt (m * 2 ^ sqrtScale p e)) ((e - (sqrtScale p e : Int)) / 2)
      (isqrt (m * 2 ^ sqrtScale p e) * isqrt (m * 2 ^ sqrtScale p e) != m * 2 ^ sqrtScale p e) := rfl

/-- The scaled exponent is even, so the root of its power of two is a power of two. -/
theorem sqrt_scaled (p : Prec) (m : Nat) (e : Int) : Real.sqrt (m * 2 ^ e) =
    Real.sqrt ((m * 2 ^ sqrtScale p e : ℕ) : ℝ) * 2 ^ ((e - (sqrtScale p e : Int)) / 2) := by
  have heven : e = (sqrtScale p e : Int) + (e - (sqrtScale p e : Int)) / 2 * 2 := by
    unfold sqrtScale
    omega
  have hsplit : (m : ℝ) * 2 ^ e = (m * 2 ^ sqrtScale p e : ℕ) * (2 ^ ((e - (sqrtScale p e : Int)) / 2)) ^ 2 := by
    conv_lhs => rw [heven]
    rw [zpow_add₀ two_ne_zero, zpow_mul, zpow_natCast, zpow_ofNat]
    push_cast
    ring
  rw [hsplit, Real.sqrt_mul (Nat.cast_nonneg _), Real.sqrt_sq (by positivity)]

/-- The integer root has more digits than the format. -/
theorem digits_le_isqrt_scaled (p : Prec) {m : Nat} (hm : m ≠ 0) (e : Int) :
    2 ^ p.digits ≤ isqrt (m * 2 ^ sqrtScale p e) := by
  rw [isqrt_eq_sqrt, Nat.le_sqrt, ← pow_add]
  calc 2 ^ (p.digits + p.digits) ≤ 2 ^ sqrtScale p e := Nat.pow_le_pow_right two_pos (by unfold sqrtScale; omega)
    _ ≤ m * 2 ^ sqrtScale p e := Nat.le_mul_of_pos_left _ (Nat.pos_of_ne_zero hm)

/-- The root has half the digits of the number. -/
theorem two_mul_log2_isqrt_lt {n k : Nat} (hn : n < 2 ^ k) (hr : isqrt n ≠ 0) : 2 * Nat.log2 (isqrt n) < k := by
  refine (Nat.pow_lt_pow_iff_right one_lt_two).mp (lt_of_le_of_lt ?_ hn)
  calc 2 ^ (2 * Nat.log2 (isqrt n)) = 2 ^ Nat.log2 (isqrt n) * 2 ^ Nat.log2 (isqrt n) := by rw [two_mul, pow_add]
    _ ≤ isqrt n * isqrt n := Nat.mul_le_mul (Nat.log2_self_le hr) (Nat.log2_self_le hr)
    _ ≤ n := by rw [isqrt_eq_sqrt]; exact Nat.sqrt_le n

theorem binade_lt {p : Prec} {v : F} (h : isFinite p v = true) : binade p v + 1 < fmtExpMax p := by
  have hex : fmag p v / fmtHidden p < fmtExpMax p := Nat.div_lt_of_lt_mul (by rw [Nat.mul_comm]; exact isFinite_iff.mp h)
  have htwo : 2 ≤ fmtExpMax p := by cases p <;> decide
  unfold binade
  omega

/-- The square root of a finite positive value is the real root rounded once (R14, R110). -/
theorem fsqrt_nearest {p : Prec} {a : F} (ha : isFinite p a = true) (hs : fsign p a = false) (hz : ¬IsZero p a) :
    NearestEvenReal p (Real.sqrt (realOf p a)) (fsqrt p a) := by
  have hm : significand p a ≠ 0 := fun h0 => hz <| by
    have hmag := significand_add_binade p a
    have := fmtHidden_pos p
    rcases binade_eq_zero_or_normal p a with hb | hb
    · rw [IsZero, ← hmag, h0, hb, Nat.zero_mul]
    · omega
  have hreal : (realOf p a : ℝ) = significand p a * 2 ^ (fmtExpMin p + binade p a) := by
    rw [realOf_finite ha, hs]
    simp [signFactor, ulp]
  have hsqrt : fsqrt p a = sqrtFinite p (significand p a) (fmtExpMin p + binade p a) := by
    simp [fsqrt, unpack_finite ha, hm, hs]
  rw [hsqrt, sqrtFinite_eq, hreal, sqrt_scaled p]
  have hdigits := digits_le_isqrt_scaled p hm (fmtExpMin p + binade p a)
  have hr : isqrt (significand p a * 2 ^ sqrtScale p (fmtExpMin p + binade p a)) ≠ 0 :=
    (Nat.two_pow_pos _ |>.trans_le hdigits).ne'
  have hn : significand p a * 2 ^ sqrtScale p (fmtExpMin p + binade p a) <
      2 ^ (p.digits + sqrtScale p (fmtExpMin p + binade p a)) := by
    rw [pow_add, ← two_mul_fmtHidden]
    exact Nat.mul_lt_mul_of_pos_right (significand_lt p a) (Nat.two_pow_pos _)
  have hlog := two_mul_log2_isqrt_lt hn hr
  refine roundF_nearest hr (stands_sqrt _ _) (fun _ => hdigits) ?_
  have hb := binade_lt ha
  unfold roundBinade quantum
  generalize Nat.log2 (isqrt _) = r at hlog
  unfold sqrtScale at hlog ⊢
  cases p <;> simp only [Prec.digits, fmtExpMin, fmtExpMax] at hlog hb ⊢ <;> omega

/-! ### The constants of R112 -/

theorem normFactor_of {b : Build} {p : Prec} {l : Nat} (hp : b.prec = p) (hl : b.log2n = l) :
    normFactor b = fdiv p (toF p 1) (fsqrt p (toF p (2 ^ l))) := by
  subst hp hl; rfl

/-- For even `LOG2N` the constant has the hidden bit alone: it is a power of two. -/
theorem norm_even_unpacks (p : Prec) : ∀ h : Nat, h ≤ 8 → unpack p (fdiv p (toF p 1) (fsqrt p (toF p (2 ^ (2 * h))))) =
    .fin false (fmtHidden p) (-(h : Int) - ((p.digits - 1 : ℕ) : Int)) := by
  cases p <;> decide +kernel

/-- A significand of the hidden bit alone stands for a power of two. -/
theorem realOf_two_pow {p : Prec} {v : F} {neg : Bool} {k : Int}
    (h : unpack p v = .fin neg (fmtHidden p) (k - ((p.digits - 1 : ℕ) : Int))) : realOf p v = signFactor neg * 2 ^ k := by
  unfold realOf signFactor
  rw [h, fmtHidden]
  push_cast
  rw [← zpow_natCast, ← zpow_add₀ two_ne_zero, add_sub_cancel]

/-- Settles O51: the constants by evaluation, the square root by the rounding of its integer root. -/
theorem normalisationConstants : Obligations.NormalisationConstants := by
  refine ⟨fun _ => rfl, fun b hp => ⟨fun hl => ?_, fun hl => ?_, fun hl => ?_⟩,
    fun b hp => ⟨fun hl => ?_, fun hl => ?_, fun hl => ?_⟩, fun b h hl hh => ?_, fun p a ha hs hz => fsqrt_nearest ha hs hz⟩
  case refine_7 =>
    rw [normFactor_of rfl hl, realOf_two_pow (norm_even_unpacks b.prec h hh)]
    simp [signFactor]
  all_goals
    rw [normFactor_of hp hl]
    decide +kernel

end Sys2Proof.Machine

/-! ## The twiddles (R114): cosines and sines of `π / 2^s` enclosed by integer square roots

`2 cos (π / 2^(n+1))` is the `n`-fold root `√(2 + √(2 + …))` and `2 sin (π / 2^(n+2))` is `√(2 - 2 cos (π / 2^(n+1)))`. Both
are enclosed in fixed point, and an enclosure that lies within one unit of a long enough significand fixes the rounding. -/

namespace Sys2Proof.Machine

/-- The fixed point of the enclosures: a bound `a` stands for `a / 2^160`. -/
def fixBits : Nat := 160

/-- An enclosure in fixed point. -/
structure Enclosure where
  low : Nat
  high : Nat

/-- The real lies in the enclosure. -/
def Enclosure.Encloses (i : Enclosure) (y : ℝ) : Prop := i.low ≤ y * 2 ^ fixBits ∧ y * 2 ^ fixBits ≤ i.high

/-- The root of an enclosure, by the integer roots of its bounds. -/
def Enclosure.sqrt (i : Enclosure) : Enclosure := ⟨isqrt (i.low * 2 ^ fixBits), isqrt (i.high * 2 ^ fixBits) + 1⟩

def Enclosure.twoAdd (i : Enclosure) : Enclosure := ⟨2 * 2 ^ fixBits + i.low, 2 * 2 ^ fixBits + i.high⟩

def Enclosure.twoSub (i : Enclosure) : Enclosure := ⟨2 * 2 ^ fixBits - i.high, 2 * 2 ^ fixBits - i.low⟩

theorem Enclosure.Encloses.sqrt {i : Enclosure} {y : ℝ} (h : i.Encloses y) : i.sqrt.Encloses (Real.sqrt y) := by
  obtain ⟨hlow, hhigh⟩ := h
  have hscale : Real.sqrt y * 2 ^ fixBits = Real.sqrt (y * 2 ^ fixBits * 2 ^ fixBits) := by
    rw [mul_assoc, ← pow_two, Real.sqrt_mul' y (by positivity), Real.sqrt_sq (by positivity)]
  unfold Enclosure.Encloses Enclosure.sqrt
  rw [hscale, isqrt_eq_sqrt, isqrt_eq_sqrt]
  constructor
  · refine Real.nat_sqrt_le_real_sqrt.trans (Real.sqrt_le_sqrt ?_)
    push_cast
    gcongr
  · push_cast
    refine le_trans (Real.sqrt_le_sqrt ?_) Real.real_sqrt_lt_nat_sqrt_succ.le
    push_cast
    gcongr

theorem Enclosure.Encloses.twoAdd {i : Enclosure} {y : ℝ} (h : i.Encloses y) : i.twoAdd.Encloses (2 + y) := by
  obtain ⟨hlow, hhigh⟩ := h
  constructor <;> simp only [Enclosure.twoAdd] <;> push_cast <;> linarith

theorem Enclosure.Encloses.twoSub {i : Enclosure} {y : ℝ} (h : i.Encloses y) (hy : y ≤ 2) : i.twoSub.Encloses (2 - y) := by
  obtain ⟨hlow, hhigh⟩ := h
  have hpos : (0 : ℝ) < 2 ^ fixBits := by positivity
  constructor
  · have : i.twoSub.low = 0 ∨ i.twoSub.low + i.high = 2 * 2 ^ fixBits := by
      simp only [Enclosure.twoSub]
      omega
    rcases this with h0 | hsum
    · rw [h0, Nat.cast_zero]
      exact mul_nonneg (by linarith) hpos.le
    · have : (i.twoSub.low : ℝ) + i.high = 2 * 2 ^ fixBits := mod_cast hsum
      linarith
  · have : 2 * 2 ^ fixBits ≤ i.twoSub.high + i.low := le_tsub_add
    have : (2 : ℝ) * 2 ^ fixBits ≤ i.twoSub.high + i.low := mod_cast this
    linarith

/-- `2 cos (π / 2^(n+1))`, enclosed. -/
def twoCos : Nat → Enclosure
  | 0 => ⟨0, 0⟩
  | n + 1 => (twoCos n).twoAdd.sqrt

/-- `2 sin (π / 2^(n+2))`, enclosed. -/
def twoSin (n : Nat) : Enclosure := (twoCos n).twoSub.sqrt

theorem twoCos_encloses (n : Nat) : (twoCos n).Encloses (Real.sqrtTwoAddSeries 0 n) := by
  induction n with
  | zero => simp [twoCos, Enclosure.Encloses]
  | succ n ih => exact ih.twoAdd.sqrt

theorem twoSin_encloses (n : Nat) : (twoSin n).Encloses (Real.sqrt (2 - Real.sqrtTwoAddSeries 0 n)) :=
  ((twoCos_encloses n).twoSub (Real.sqrtTwoAddSeries_lt_two n).le).sqrt

/-- How many of the last bits of an enclosure are guard bits, above its width. -/
def guardBits : Nat := 48

/-- The significand of the reals in an enclosure, without the guard bits. -/
def Enclosure.sig (i : Enclosure) : Nat := i.low / 2 ^ guardBits

/-- The exponent of that significand, for the half of the real enclosed. -/
def sigExp : Int := (guardBits : Int) - fixBits - 1

/-- `v` is the rounding of the half of any real in the enclosure: the enclosure lies within one unit of its significand,
which has more digits than the format. -/
def Enclosure.HalfRoundsTo (p : Prec) (i : Enclosure) (v : F) : Prop :=
  i.sig * 2 ^ guardBits < i.low ∧ i.high < (i.sig + 1) * 2 ^ guardBits ∧ 2 ^ p.digits ≤ i.sig ∧
    roundBinade p i.sig sigExp + 2 < fmtExpMax p ∧ v = roundF p false i.sig sigExp true

theorem Enclosure.HalfRoundsTo.nearest {p : Prec} {i : Enclosure} {v : F} (h : i.HalfRoundsTo p v) {y : ℝ}
    (hy : i.Encloses y) : NearestEvenReal p (y / 2) v := by
  obtain ⟨hlow, hhigh, hdigits, hrange, rfl⟩ := h
  obtain ⟨hle, hge⟩ := hy
  have hpos : (0 : ℝ) < 2 * 2 ^ fixBits := by positivity
  have hunit : (2 : ℝ) ^ sigExp * (2 * 2 ^ fixBits) = 2 ^ guardBits := by
    norm_num [sigExp, guardBits, fixBits]
  have hhalf : y / 2 * (2 * 2 ^ fixBits) = y * 2 ^ fixBits := by ring
  refine roundF_nearest (Nat.two_pow_pos _ |>.trans_le hdigits).ne' ⟨?_, ?_⟩ (fun _ => hdigits) hrange <;>
    rw [← mul_lt_mul_iff_of_pos_right hpos, hhalf, mul_assoc, hunit]
  · exact lt_of_lt_of_le (mod_cast hlow) hle
  · exact lt_of_le_of_lt hge (mod_cast hhigh)

/-- Entries 2 to 16 of both tables are the roundings of the enclosures. -/
theorem twrom_rounds (p : Prec) : ∀ n : Nat, n < 15 → (twoCos (n + 1)).HalfRoundsTo p (twrom p (n + 2)).re ∧
    (twoSin n).HalfRoundsTo p (twrom p (n + 2)).im := by
  unfold Enclosure.HalfRoundsTo
  cases p <;> decide +kernel

/-- A finite value is the nearest one of the number it stands for. -/
theorem nearestEvenReal_of_eq {p : Prec} {x : ℝ} {v : F} (hv : isFinite p v = true) (hx : (realOf p v : ℝ) = x) :
    NearestEvenReal p x v := by
  refine ⟨hv, fun y _ => ?_⟩
  rw [hx, sub_self, abs_zero]
  exact ⟨abs_nonneg _, fun h => .inl (mod_cast (sub_eq_zero.mp (abs_eq_zero.mp h.symm)).trans hx.symm)⟩

theorem realOf_zero (p : Prec) : realOf p 0#64 = 0 := by
  have h : unpack p 0#64 = .fin false 0 (fmtExpMin p) := by cases p <;> rfl
  simp [realOf, h]

/-- Entry 0 stands for -1 and 0, entry 1 for 0 and 1 (R114). -/
theorem realOf_twrom_exact (p : Prec) : realOf p (twrom p 0).re = -1 ∧ realOf p (twrom p 0).im = 0 ∧
    realOf p (twrom p 1).re = 0 ∧ realOf p (twrom p 1).im = 1 := by
  have hneg : unpack p (twrom p 0).re = .fin true (fmtHidden p) (0 - ((p.digits - 1 : ℕ) : Int)) := by
    cases p <;> decide +kernel
  have hone : unpack p (twrom p 1).im = .fin false (fmtHidden p) (0 - ((p.digits - 1 : ℕ) : Int)) := by
    cases p <;> decide +kernel
  have hzero : (twrom p 0).im = 0#64 ∧ (twrom p 1).re = 0#64 := by cases p <;> exact ⟨rfl, rfl⟩
  rw [realOf_two_pow hneg, realOf_two_pow hone, hzero.1, hzero.2, realOf_zero]
  simp [signFactor]

theorem twrom_exact_finite (p : Prec) : ∀ s : Nat, s < 2 →
    isFinite p (twrom p s).re = true ∧ isFinite p (twrom p s).im = true := by cases p <;> decide +kernel

/-- Every twiddle component is the cosine or the sine rounded once (R114). -/
theorem twrom_nearest (p : Prec) {s : Nat} (hs : s < 17) :
    NearestEvenReal p (Real.cos (Real.pi / 2 ^ s)) (twrom p s).re ∧
      NearestEvenReal p (Real.sin (Real.pi / 2 ^ s)) (twrom p s).im := by
  obtain ⟨hre0, him0, hre1, him1⟩ := realOf_twrom_exact p
  match s with
  | 0 =>
    obtain ⟨hre, him⟩ := twrom_exact_finite p 0 (by decide)
    exact ⟨nearestEvenReal_of_eq hre (by simp [hre0]), nearestEvenReal_of_eq him (by simp [him0])⟩
  | 1 =>
    obtain ⟨hre, him⟩ := twrom_exact_finite p 1 (by decide)
    exact ⟨nearestEvenReal_of_eq hre (by simp [hre1]), nearestEvenReal_of_eq him (by simp [him1])⟩
  | n + 2 =>
    obtain ⟨hre, him⟩ := twrom_rounds p n (by omega)
    rw [Real.cos_pi_over_two_pow (n + 1), Real.sin_pi_over_two_pow_succ]
    exact ⟨hre.nearest (twoCos_encloses (n + 1)), him.nearest (twoSin_encloses n)⟩

/-- Settles O52: entries 0 and 1 are exact, the others are the roundings of enclosures of the roots they are. -/
theorem twiddlesAreCorrectlyRounded : Obligations.TwiddlesAreCorrectlyRounded := by
  refine ⟨fun p s hs => ?_, rfl, rfl⟩
  obtain ⟨⟨hre, hcos⟩, him, hsin⟩ := twrom_nearest p hs
  exact ⟨hre, him, fun y hy => ⟨(hcos y hy).1, (hsin y hy).1⟩⟩

end Sys2Proof.Machine

/-! ## The cutoff index (R140, R141) -/

namespace Sys2Proof.Machine

/-! ### Patterns that are neither negative nor NaN -/

/-- The pattern has its sign bit clear and is no NaN: `+0.0`, a positive finite value or `+inf`. -/
def NonNeg (p : Prec) (v : F) : Prop := fsign p v = false ∧ fmag p v ≤ fmtInf p

theorem NonNeg.not_nan {p : Prec} {v : F} (h : NonNeg p v) : isNaN p v = false :=
  decide_eq_false (Nat.not_lt.mpr h.2)

theorem packBits_nonneg {p : Prec} {mag : Nat} (h : mag ≤ fmtInf p) : NonNeg p (packBits p false mag) := by
  have hlt := h.trans_lt (fmtInf_lt_fmtSign p)
  exact ⟨fsign_packBits hlt, (fmag_packBits hlt).trans_le h⟩

theorem roundF_nonneg (p : Prec) (m : Nat) (e : Int) (sticky : Bool) : NonNeg p (roundF p false m e sticky) := by
  unfold roundF
  split
  · exact packBits_nonneg (Nat.zero_le _)
  · exact packBits_nonneg (roundMag_le p m e sticky)

theorem orderKey_of_nonneg {p : Prec} {v : F} (h : NonNeg p v) : orderKey p v = fmag p v := by
  rw [orderKey, h.1]
  rfl

/-- Patterns that are not negative are ordered by their magnitude bits (R14). -/
theorem fle_iff_fmag_le {p : Prec} {a b : F} (ha : NonNeg p a) (hb : NonNeg p b) :
    fle p a b = true ↔ fmag p a ≤ fmag p b := by
  simp [fle_iff, ha.not_nan, hb.not_nan, orderKey_of_nonneg ha, orderKey_of_nonneg hb]

/-- What the checks of `SR` and `FARG` ask: greater than zero (R31, R143). -/
theorem fgt_zero_iff {p : Prec} {v : F} : fgt p v (toF p 0) = true ↔ NonNeg p v ∧ fmag p v ≠ 0 := by
  have hmag : fmag p (toF p 0) = 0 := fmag_packBits (neg := false) (by cases p <;> decide)
  have hzero : NonNeg p (toF p 0) := roundF_nonneg ..
  simp only [fgt, flt_iff, hzero.not_nan, orderKey_of_nonneg hzero, hmag, true_and]
  unfold NonNeg orderKey isNaN
  cases fsign p v with
  | false => simp; omega
  | true => simp

theorem nonneg_infinite {p : Prec} {v : F} (h : NonNeg p v) (hv : isFinite p v = false) : fmag p v = fmtInf p :=
  Nat.le_antisymm h.2 (Nat.not_lt.mp (of_decide_eq_false hv))

theorem unpack_infinite {p : Prec} {v : F} (h : fmag p v = fmtInf p) : unpack p v = .inf (fsign p v) := by
  have hdiv : fmtInf p / fmtHidden p = fmtExpMax p := Nat.mul_div_cancel _ (fmtHidden_pos p)
  have hmod : fmtInf p % fmtHidden p = 0 := Nat.mul_mod_left ..
  simp [unpack, h, hdiv, hmod]

theorem significand_ne_zero {p : Prec} {v : F} (h : fmag p v ≠ 0) : significand p v ≠ 0 := fun h0 => h <| by
  have hmag := significand_add_binade p v
  have hpos := fmtHidden_pos p
  rcases binade_eq_zero_or_normal p v with hb | hb
  · rw [← hmag, h0, hb, Nat.zero_mul]
  · omega

/-! ### The two divisions -/

theorem fdiv_finite {p : Prec} {a b : F} (ha : isFinite p a = true) (hb : isFinite p b = true) (hz : fmag p b ≠ 0) :
    fdiv p a b = divFinite p (fsign p a ^^ fsign p b) (significand p a) (fmtExpMin p + binade p a)
      (significand p b) (fmtExpMin p + binade p b) := by
  simp [fdiv, unpack_finite ha, unpack_finite hb, significand_ne_zero hz]

/-- A finite value that is not negative divided by one greater than zero, an infinity included, is neither negative nor
NaN. -/
theorem fdiv_nonneg {p : Prec} {a b : F} (ha : NonNeg p a) (hfin : isFinite p a = true) (hb : NonNeg p b)
    (hz : fmag p b ≠ 0) : NonNeg p (fdiv p a b) := by
  cases hbfin : isFinite p b with
  | true =>
    rw [fdiv_finite hfin hbfin hz, ha.1, hb.1]
    exact roundF_nonneg ..
  | false =>
    have hdiv : fdiv p a b = zeroF p false := by
      simp [fdiv, unpack_finite hfin, unpack_infinite (nonneg_infinite hb hbfin), ha.1, hb.1]
    rw [hdiv]
    exact packBits_nonneg (Nat.zero_le _)

/-- Two to the power `j` is exact (R141: "`toF(N div 2)` is exact"). -/
theorem unpack_toF_two_pow (p : Prec) : ∀ j : Nat, j < 17 → isFinite p (toF p (2 ^ j)) = true ∧
    unpack p (toF p (2 ^ j)) = .fin false (fmtHidden p) ((j : Int) - ((p.digits - 1 : ℕ) : Int)) := by
  cases p <;> decide +kernel

/-- A quotient by a power of two has no remainder. -/
theorem divFinite_fmtHidden (p : Prec) (neg : Bool) (m : Nat) (e f : Int) : divFinite p neg m e (fmtHidden p) f =
    roundF p neg (m * 2 ^ (p.digits + 3)) (e - f - ((p.digits + 3 + (p.digits - 1) : ℕ) : Int)) false := by
  have hlog : Nat.log2 (fmtHidden p) = p.digits - 1 := Nat.log2_two_pow
  have hnum : m * 2 ^ (p.digits + 3 + (p.digits - 1)) = m * 2 ^ (p.digits + 3) * fmtHidden p := by
    rw [pow_add, ← mul_assoc, fmtHidden]
  rw [divFinite, hlog, hnum, Nat.mul_div_cancel _ (fmtHidden_pos p), Nat.mul_mod_left]
  rfl

theorem stands_exact (m : Nat) (e : Int) : Stands m e false (m * 2 ^ e) := rfl

/-- Half of a finite value greater than zero is finite (R140). -/
theorem half_finite {p : Prec} {a : F} (ha : isFinite p a = true) (hs : fsign p a = false) (hz : fmag p a ≠ 0) :
    isFinite p (fdiv p a (toF p 2)) = true := by
  obtain ⟨-, htwo⟩ := unpack_toF_two_pow p 1 (by decide)
  have hm : significand p a * 2 ^ (p.digits + 3) ≠ 0 :=
    Nat.mul_ne_zero (significand_ne_zero hz) (Nat.two_pow_pos _).ne'
  have hdiv : fdiv p a (toF p 2) =
      divFinite p false (significand p a) (fmtExpMin p + binade p a) (fmtHidden p) (1 - ((p.digits - 1 : ℕ) : Int)) := by
    rw [pow_one] at htwo
    simp [fdiv, unpack_finite ha, htwo, hs, (fmtHidden_pos p).ne']
  have hlog : Nat.log2 (significand p a * 2 ^ (p.digits + 3)) < p.digits + (p.digits + 3) := by
    rw [Nat.log2_lt hm, pow_add 2 p.digits (p.digits + 3), ← two_mul_fmtHidden]
    exact Nat.mul_lt_mul_of_pos_right (significand_lt p a) (Nat.two_pow_pos _)
  rw [hdiv, divFinite_fmtHidden]
  refine (roundF_nearest hm (stands_exact _ _) nofun ?_).1
  have hb := binade_lt ha
  unfold roundBinade quantum
  generalize Nat.log2 _ = r at hlog ⊢
  cases p <;> simp only [Prec.digits, fmtExpMin, fmtExpMax] at hlog hb ⊢ <;> omega

/-! ### The order of the values -/

theorem realOf_of_nonneg {p : Prec} {v : F} (hv : isFinite p v = true) (hs : fsign p v = false) :
    (realOf p v : ℝ) = significand p v * ulp p (binade p v) := by
  rw [realOf_finite hv, hs]
  simp [signFactor]

theorem realOf_lt_of_fmag_lt {p : Prec} {a b : F} (ha : isFinite p a = true) (hb : isFinite p b = true)
    (hsa : fsign p a = false) (hsb : fsign p b = false) (h : fmag p a < fmag p b) : realOf p a < realOf p b := by
  have hreal : (realOf p a : ℝ) < realOf p b := by
    rw [realOf_of_nonneg ha hsa, realOf_of_nonneg hb hsb]
    have hpos := ulp_pos p (binade p a)
    have hle : binade p a ≤ binade p b := Nat.sub_le_sub_right (Nat.div_le_div_right h.le) 1
    obtain ⟨d, hd⟩ := Nat.exists_eq_add_of_le hle
    have hma := significand_add_binade p a
    have hmb := significand_add_binade p b
    have hlt := significand_lt p a
    rw [hd, ulp_add, ← mul_assoc]
    gcongr
    cases d with
    | zero =>
      rw [hd, Nat.add_zero] at hmb
      have hsig : significand p a < significand p b := by omega
      simpa using hsig
    | succ d =>
      have hnormal := (binade_eq_zero_or_normal p b).resolve_left (by omega)
      have hone : (1 : ℝ) ≤ 2 ^ d := one_le_pow₀ one_le_two
      calc (significand p a : ℝ) < 2 * fmtHidden p := mod_cast hlt
        _ ≤ fmtHidden p * 2 ^ (d + 1) := by rw [pow_succ]; nlinarith [(fmtHidden p).cast_nonneg (α := ℝ)]
        _ ≤ significand p b * 2 ^ (d + 1) := by gcongr
  exact_mod_cast hreal

/-- Finite values that are not negative are ordered by their magnitude bits. -/
theorem realOf_le_iff {p : Prec} {a b : F} (ha : isFinite p a = true) (hb : isFinite p b = true)
    (hsa : fsign p a = false) (hsb : fsign p b = false) : realOf p a ≤ realOf p b ↔ fmag p a ≤ fmag p b := by
  constructor
  · intro h
    by_contra hlt
    exact absurd (realOf_lt_of_fmag_lt hb ha hsb hsa (Nat.lt_of_not_le hlt)) (not_lt.mpr h)
  · intro h
    rcases Nat.lt_or_eq_of_le h with hlt | heq
    · exact (realOf_lt_of_fmag_lt ha hb hsa hsb hlt).le
    · have hreal : (realOf p a : ℝ) = realOf p b := by
        rw [realOf_of_nonneg ha hsa, realOf_of_nonneg hb hsb, significand, significand, binade, binade, heq]
      exact_mod_cast hreal.le

theorem floorScaled_eq_floor (m : Nat) (e : Int) : (floorScaled m e : Int) = ⌊(m : ℚ) * 2 ^ e⌋ := by
  unfold floorScaled
  split
  · next he =>
    obtain ⟨d, rfl⟩ := Int.eq_ofNat_of_zero_le he
    rw [zpow_natCast, Int.toNat_natCast]
    exact_mod_cast (Int.floor_natCast (R := ℚ) (m * 2 ^ d)).symm
  · next he =>
    obtain ⟨d, hd⟩ := Int.eq_ofNat_of_zero_le (a := -e) (by omega)
    rw [hd, ← neg_neg e, hd, zpow_neg, zpow_natCast, Int.toNat_natCast, ← div_eq_mul_inv]
    exact_mod_cast (Rat.floor_natCast_div_natCast m (2 ^ d)).symm

theorem ffloor_eq_floor {p : Prec} {v : F} (hv : isFinite p v = true) (hs : fsign p v = false) :
    (ffloor p v : Int) = ⌊realOf p v⌋ := by
  simp [ffloor, realOf, unpack_finite hv, hs, floorScaled_eq_floor]

/-! ### `q` and its order against `N/2` -/

/-- `q` of R140 is neither negative nor NaN. -/
theorem cutoffRatio_nonneg {p : Prec} {sr farg : F} (hfin : isFinite p sr = true) (hsr : fgt p sr (toF p 0) = true)
    (hfarg : fgt p farg (toF p 0) = true) : NonNeg p (cutoffRatio p sr farg) := by
  obtain ⟨hsr, hz⟩ := fgt_zero_iff.mp hsr
  obtain ⟨hfarg, hfz⟩ := fgt_zero_iff.mp hfarg
  obtain ⟨htwofin, -⟩ := unpack_toF_two_pow p 1 (by decide)
  have htwo : fmag p (toF p 2) ≠ 0 := by cases p <;> decide
  exact fdiv_nonneg (fdiv_nonneg hsr hfin (roundF_nonneg ..) htwo) (half_finite hfin hsr.1 hz) hfarg hfz

/-- The test of R141 on a finite `q`: it is at least `N/2` exactly when its floor is. -/
theorem fge_half_iff {b : Build} (hb : b.Legal) {q : F} (hq : NonNeg b.prec q) (hfin : isFinite b.prec q = true) :
    fge b.prec q (toF b.prec (b.n / 2)) = true ↔ b.n / 2 ≤ ffloor b.prec q := by
  have hn : b.n / 2 = 2 ^ (b.log2n - 1) := by
    rw [Build.n, ← Nat.pow_div hb.log2n_pos two_pos, pow_one]
  have hlog := hb.log2n_le
  obtain ⟨hhalf, hunpack⟩ := unpack_toF_two_pow b.prec (b.log2n - 1) (by omega)
  have hnonneg : NonNeg b.prec (toF b.prec (b.n / 2)) := roundF_nonneg ..
  have hreal : realOf b.prec (toF b.prec (b.n / 2)) = ((b.n / 2 : ℕ) : ℤ) := by
    rw [hn, realOf_two_pow hunpack]
    simp [signFactor]
  rw [fge, fle_iff_fmag_le hnonneg hq, ← realOf_le_iff (hn ▸ hhalf) hfin hnonneg.1 hq.1, hreal, ← Int.le_floor,
    ← ffloor_eq_floor hfin hq.1, Int.ofNat_le]

/-! ### The cutoff -/

/-- The cutoff index of R141. -/
theorem cutoff_eq (b : Build) (sr farg : F) : cutoff b sr farg =
    if fge b.prec (cutoffRatio b.prec sr farg) (toF b.prec (b.n / 2)) then none
    else some (ffloor b.prec (cutoffRatio b.prec sr farg) + 1) := rfl

theorem one_le_cutoff {b : Build} {sr farg : F} {c : Nat} (h : cutoff b sr farg = some c) : 1 ≤ c := by
  rw [cutoff_eq] at h
  split at h
  · cases h
  · cases h; exact Nat.le_add_left ..

/-- The cutoff of a finite `q` (R141). -/
theorem cutoff_of_finite {b : Build} (hb : b.Legal) {sr farg : F} (hq : NonNeg b.prec (cutoffRatio b.prec sr farg))
    (hfin : isFinite b.prec (cutoffRatio b.prec sr farg) = true) : cutoff b sr farg =
      if b.n / 2 < ffloor b.prec (cutoffRatio b.prec sr farg) + 1 then none
      else some (ffloor b.prec (cutoffRatio b.prec sr farg) + 1) := by
  simp only [cutoff_eq, fge_half_iff hb hq hfin, Nat.lt_succ_iff]

/-- An infinite `q` gives no cutoff (R143): no value is greater. -/
theorem cutoff_of_infinite {b : Build} {sr farg : F} (hq : NonNeg b.prec (cutoffRatio b.prec sr farg))
    (hinf : isFinite b.prec (cutoffRatio b.prec sr farg) = false) : cutoff b sr farg = none := by
  have hhalf : NonNeg b.prec (toF b.prec (b.n / 2)) := roundF_nonneg ..
  rw [cutoff_eq, if_pos]
  rw [fge, fle_iff_fmag_le hhalf hq, nonneg_infinite hq hinf]
  exact hhalf.2

/-- Settles O53: `q` is neither negative nor NaN, and its order against `N/2` is that of its floor. -/
theorem cutoffIsTheFloorPlusOne : Obligations.CutoffIsTheFloorPlusOne := by
  intro b sr farg hb hfin hsr hfarg
  have hq := cutoffRatio_nonneg hfin hsr hfarg
  refine ⟨hq.not_nan, hq.1, cutoff_of_infinite hq,
    fun hqfin => ⟨_, ffloor_eq_floor hqfin hq.1, cutoff_of_finite hb hq hqfin⟩, fun c hc => ?_⟩
  cases hqfin : isFinite b.prec (cutoffRatio b.prec sr farg) with
  | false =>
    rw [cutoff_of_infinite hq hqfin] at hc
    cases hc
  | true =>
    rw [cutoff_of_finite hb hq hqfin] at hc
    split at hc
    · cases hc
    · cases hc
      omega

end Sys2Proof.Machine

/-! ## MASK (R143): the bytes it clears -/

namespace Sys2Proof.Machine

theorem badSr_eq_true {p : Prec} {sr : F} :
    badSr p sr = true ↔ isFinite p sr = false ∨ fgt p sr (toF p 0) = false := by
  rw [badSr, Bool.not_eq_true', Bool.and_eq_false_iff]

theorem badFarg_eq_true {p : Prec} {farg : F} : badFarg p farg = true ↔ fgt p farg (toF p 0) = false := by
  rw [badFarg, Bool.not_eq_true']

theorem checkMask_eq (bd : BitVec 2) (s : State) : checkMask bd s =
    if bd = 3#2 then some .badBuffer
    else if isFinite s.build.prec s.sr = false ∨ fgt s.build.prec s.sr (toF s.build.prec 0) = false then some .badSr
    else if fgt s.build.prec s.farg (toF s.build.prec 0) = false then some .badFarg else none := by
  simp only [checkMask, firstFault, badBuffer, beq_iff_eq, badSr_eq_true, badFarg_eq_true]

theorem maskBuffer_none {s : State} (h : cutoff s.build s.sr s.farg = none) (bd : BitVec 2) : maskBuffer bd s = s := by
  simp [maskBuffer, h]

/-- The masker writes memory and nothing else. -/
theorem maskBuffer_writes_mem (bd : BitVec 2) (s : State) : maskBuffer bd s = { s with mem := (maskBuffer bd s).mem } := by
  unfold maskBuffer
  split <;> rfl

/-- Storing zero words clears their bytes. -/
theorem Mem.byteAt_storeWords_zero (m : Mem) (a n x : Nat) :
    (m.storeWords a (List.replicate n 0#64)).byteAt x = if a ≤ x ∧ x < a + 8 * n then 0#8 else m.byteAt x := by
  have hbytes : (List.replicate n 0#64).flatMap wordBytes = List.replicate (8 * n) 0#8 :=
    List.eq_replicate_iff.mpr ⟨by rw [flatMap_wordBytes_length, List.length_replicate], by simp [wordBytes]⟩
  rw [Mem.storeWords, Mem.byteAt_store, hbytes, List.length_replicate]
  split
  · simp
  · rfl

/-- Writing zero entries clears their bytes. -/
theorem State.byteAt_bufWrite_zero (s : State) (f : BitVec 2) (i n x : Nat) :
    (s.bufWrite f i (List.replicate n ⟨0#64, 0#64⟩)).mem.byteAt x =
      if bufAddr f i ≤ x ∧ x < bufAddr f i + 16 * n then 0#8 else s.mem.byteAt x := by
  have hwords : ((List.replicate n (⟨0#64, 0#64⟩ : Cplx)).flatMap fun y => [y.re, y.im]) =
      List.replicate (2 * n) 0#64 :=
    List.eq_replicate_iff.mpr ⟨by rw [flatMap_pair_length, List.length_replicate], by simp⟩
  rw [State.bufWrite_mem, hwords, Mem.byteAt_storeWords_zero, ← Nat.mul_assoc]

/-- The bytes `MASK` clears with the cutoff `c`: those of `BD[0].im` and of `BD[C .. N-C]` (R143). -/
def Cleared (n : Nat) (bd : BitVec 2) (c a : Nat) : Prop :=
  (bufAddr bd 0 + 8 ≤ a ∧ a < bufAddr bd 1) ∨ InEntries bd c (n - c + 1) a

theorem maskBuffer_byteAt_cleared {s : State} {c : Nat} (h : cutoff s.build s.sr s.farg = some c) {bd : BitVec 2} {x : Nat}
    (hx : Cleared s.build.n bd c x) : (maskBuffer bd s).mem.byteAt x = 0#8 := by
  simp only [maskBuffer, h]
  rw [State.byteAt_bufWrite_zero]
  split
  · rfl
  · next hout =>
    refine (Mem.byteAt_storeWords_zero s.mem (bufAddr bd 0 + 8) 1 x).trans (if_pos ?_)
    unfold Cleared InEntries bufAddr at hx
    unfold bufAddr at hout ⊢
    omega

theorem maskBuffer_byteAt_kept {s : State} {c : Nat} (h : cutoff s.build s.sr s.farg = some c) {bd : BitVec 2} {x : Nat}
    (hx : ¬Cleared s.build.n bd c x) : (maskBuffer bd s).mem.byteAt x = s.mem.byteAt x := by
  unfold Cleared InEntries bufAddr at hx
  simp only [maskBuffer, h]
  rw [State.byteAt_bufWrite_zero, if_neg (by unfold bufAddr; omega)]
  exact (Mem.byteAt_storeWords_zero s.mem (bufAddr bd 0 + 8) 1 x).trans (if_neg (by unfold bufAddr; omega))

/-- An F word whose bytes are clear reads `+0.0`. -/
theorem State.fAt_eq_zero {s : State} {a : Nat} (h : ∀ k < 8, s.mem.byteAt (a + k) = 0#8) : s.fAt a = 0#64 := by
  have hword : s.mem.wordAt a = 0#64 := (Mem.wordAt_congr (n := []) h).trans (by simp [Mem.wordAt])
  rw [State.fAt, hword, layoutF_zero]

/-- Settles O30: `maskBuffer` clears the bytes of `BD[0].im` and of the bins `C .. N-C`, and no other. -/
theorem maskClearsTheBinsAboveTheCutoff : Obligations.MaskClearsTheBinsAboveTheCutoff := by
  refine fun s bd w => ⟨checkMask_eq bd s, fun _ hi hc => ⟨fun hnone => ?_, fun c hcut => ?_⟩⟩
  · have heff : effectOf (.mask bd) s = s := maskBuffer_none hnone bd
    rw [exec_completes hi hc, heff]
    rfl
  have hclear (a : Nat) (ha : ∀ k < 8, Cleared s.build.n bd c (a + k)) : (maskBuffer bd s).fAt a = 0#64 :=
    State.fAt_eq_zero fun k hk => maskBuffer_byteAt_cleared hcut (ha k hk)
  refine ⟨_, exec_completes hi hc, congrArg State.finish (maskBuffer_writes_mem bd s), hclear _ fun k hk => ?_,
    fun k hlo hhi => ?_, fun a him hbins => maskBuffer_byteAt_kept hcut (not_or_intro him hbins)⟩
  · unfold Cleared bufAddr
    omega
  · refine congrArg₂ Cplx.mk (hclear _ fun j hj => .inr ?_) (hclear _ fun j hj => .inr ?_) <;>
    · unfold InEntries bufAddr
      omega

end Sys2Proof.Machine

/-! ## The mask function (R142) and the symmetry it keeps (R144) -/

namespace Sys2Proof.Machine

/-- Bin `k` of a masked spectrum (R142). -/
theorem maskFn_getD (n c : Nat) (y : List Cplx) (k : Nat) : (maskFn n (some c) y).getD k ⟨0#64, 0#64⟩ =
    if k = 0 then ⟨(y.getD k ⟨0#64, 0#64⟩).re, 0#64⟩ else if c ≤ k ∧ k ≤ n - c then ⟨0#64, 0#64⟩
    else y.getD k ⟨0#64, 0#64⟩ := by
  rw [List.getD_eq_getElem?_getD, List.getD_eq_getElem?_getD, maskFn, List.getElem?_mapIdx]
  cases y[k]? with
  | none => simp
  | some z => rfl

theorem maskFn_getD_zeroed {n c k : Nat} (hc : 1 ≤ c) (hk : c ≤ k ∧ k ≤ n - c) (y : List Cplx) :
    (maskFn n (some c) y).getD k ⟨0#64, 0#64⟩ = ⟨0#64, 0#64⟩ := by
  rw [maskFn_getD, if_neg (by omega), if_pos hk]

theorem maskFn_getD_kept {n c k : Nat} (h0 : k ≠ 0) (hk : ¬(c ≤ k ∧ k ≤ n - c)) (y : List Cplx) :
    (maskFn n (some c) y).getD k ⟨0#64, 0#64⟩ = y.getD k ⟨0#64, 0#64⟩ := by
  rw [maskFn_getD, if_neg h0, if_neg hk]

theorem maskFn_getD_re {n c : Nat} (hc : 1 ≤ c) (y : List Cplx) (k : Nat) :
    ((maskFn n (some c) y).getD k ⟨0#64, 0#64⟩).re =
      if c ≤ k ∧ k ≤ n - c then 0#64 else (y.getD k ⟨0#64, 0#64⟩).re := by
  rw [maskFn_getD]
  split
  · next hk => rw [if_neg (by omega)]
  · split <;> rfl

theorem maskFn_getD_im (n c : Nat) (y : List Cplx) (k : Nat) :
    ((maskFn n (some c) y).getD k ⟨0#64, 0#64⟩).im =
      if k = 0 ∨ (c ≤ k ∧ k ≤ n - c) then 0#64 else (y.getD k ⟨0#64, 0#64⟩).im := by
  rw [maskFn_getD]
  by_cases hk : k = 0
  · simp [hk]
  · by_cases hzero : c ≤ k ∧ k ≤ n - c <;> simp [hk, hzero]

/-- The masker keeps entries laid out: the zeros it writes are. -/
theorem maskFn_laid {p : Prec} {y : List Cplx} (hy : ∀ z ∈ y, z.Laid p) (n : Nat) (c : Option Nat) :
    ∀ z ∈ maskFn n c y, z.Laid p := by
  cases c with
  | none => exact hy
  | some c =>
    intro z hz
    obtain ⟨k, hk, rfl⟩ := List.mem_mapIdx.mp hz
    obtain ⟨hre, -⟩ := hy _ (List.getElem_mem hk)
    split
    · exact ⟨hre, laid_zero p⟩
    · split
      · exact ⟨laid_zero p, laid_zero p⟩
      · exact hy _ (List.getElem_mem hk)

/-- Settles O54: a bin and its mirror are zeroed together or kept together. -/
theorem maskKeepsHermitianSymmetry : Obligations.MaskKeepsHermitianSymmetry := by
  intro p n c y _ hc hn
  dsimp only
  have hmirror : ∀ k, 1 ≤ k → k < n → ((c ≤ k ∧ k ≤ n - c) ↔ (c ≤ n - k ∧ n - k ≤ n - c)) := by omega
  refine ⟨rfl, hmirror, fun k hlo hhi => maskFn_getD_zeroed hc ⟨hlo, hhi⟩ y, ?_, ?_,
    fun k hk _ hkept => maskFn_getD_kept (Nat.ne_of_gt hk) hkept y, fun hherm k hk hkn => ?_⟩
  · rw [maskFn_getD_im, if_pos (.inl rfl)]
  · rw [maskFn_getD_re hc, if_neg (by omega)]
  · have hmir := hmirror k hk (by omega)
    by_cases hzero : c ≤ k ∧ k ≤ n - c
    · rw [maskFn_getD_zeroed hc (hmir.mp hzero), maskFn_getD_zeroed hc hzero, realOf_zero, neg_zero]
      exact ⟨rfl, rfl⟩
    · rw [maskFn_getD_kept (by omega) (mt hmir.mpr hzero), maskFn_getD_kept (by omega) hzero]
      exact hherm k hk hkn

end Sys2Proof.Machine

/-! ## BUILD: the checks, and what it writes (R146) -/

namespace Sys2Proof.Machine

theorem checkBuild_eq (bs bd : BitVec 2) (slot : BitVec 8) (s : State) : checkBuild bs bd slot s =
    if bs = 3#2 ∨ bd = 3#2 then some .badBuffer else if s.build.tslots ≤ slot.toNat then some .badSlot
    else if bs = bd then some .aliased
    else if isFinite s.build.prec s.sr = false ∨ fgt s.build.prec s.sr (toF s.build.prec 0) = false then some .badSr
    else if fgt s.build.prec s.farg (toF s.build.prec 0) = false then some .badFarg else none := by
  simp only [checkBuild, firstFault, badBuffer, badSlot, beq_iff_eq, Bool.or_eq_true, decide_eq_true_eq, badSr_eq_true,
    badFarg_eq_true]

/-- A `BUILD` that passes its checks names two buffers and a slot, and a `MASK` and an `FFT.INVR` of its work buffer pass
theirs. -/
theorem checkBuild_none {bs bd : BitVec 2} {slot : BitVec 8} {s : State} (h : checkBuild bs bd slot s = none) :
    bd ≠ 3#2 ∧ slot.toNat < s.build.tslots ∧ checkMask bd s = none := by
  simp only [checkBuild, checkMask, firstFault_eq_none, List.forall_mem_cons, Bool.or_eq_false_iff] at h ⊢
  obtain ⟨⟨-, hbd⟩, hslot, -, hsr, hfarg, hnil⟩ := h
  exact ⟨by simpa [badBuffer] using hbd, by simpa [badSlot] using hslot, hbd, hsr, hfarg, hnil⟩

/-- A buffer reads as before when samples are written: table memory stands above the buffers (R63, R64). -/
theorem State.bufEntries_tabWrite (s : State) {f : BitVec 2} (hf : f ≠ 3#2) (hn : s.build.n ≤ 2 ^ 17) (t : Nat)
    (vs : List F) : (s.tabWrite t vs).bufEntries f = s.bufEntries f := by
  have hf3 : f.toNat < 3 := by
    have hne : f.toNat ≠ 3 := fun h => hf (BitVec.eq_of_toNat_eq h)
    omega
  refine List.map_congr_left fun k hk => ?_
  have hk' : k < s.build.n := List.mem_range.mp hk
  unfold State.bufRead
  refine congrArg₂ Cplx.mk ?_ ?_ <;>
  · refine State.fAt_congr (State.tabWrite_build ..) ?_
    rw [State.tabWrite_mem]
    refine Mem.wordAt_storeWords_outside _ _ _ (.inl ?_)
    unfold bufAddr tabAddr
    omega

/-- `inverseReal` leaves every buffer alone. -/
theorem inverseReal_bufEntries (x : List Cplx) (slot : BitVec 8) (s : State) {f : BitVec 2} (hf : f ≠ 3#2)
    (hn : s.build.n ≤ 2 ^ 17) : (inverseReal x slot s).bufEntries f = s.bufEntries f :=
  State.bufEntries_tabWrite { s with scr := transform s.build .inv x } hf hn _ _

/-- `inverseReal` changes no byte but those of the samples 0 to `N - 1` of its slot. -/
theorem inverseReal_byteAt (x : List Cplx) (slot : BitVec 8) (s : State) {a : Nat}
    (ha : ¬InSamples s.build slot.toNat s.build.n a) : (inverseReal x slot s).mem.byteAt a = s.mem.byteAt a := by
  refine State.byteAt_tabWrite_outside { s with scr := transform s.build .inv x } _ _ ?_
  rw [List.length_map, transform_length]
  unfold InSamples tabAddr at ha
  unfold tabAddr
  dsimp only
  omega

/-- The descriptor of the slot after `inverseReal`: only its `LEN` is new. -/
theorem inverseReal_slot (x : List Cplx) (slot : BitVec 8) (s : State) (h : slot.toNat < s.slots.length) :
    (inverseReal x slot s).slot slot.toNat = { s.slot slot.toNat with len := BitVec.ofNat 18 s.build.n } :=
  State.slot_setSlot_same _ h _

/-- The truncated spectrum of `BUILD` (R146). -/
def bandSpectrum (bs : BitVec 2) (s : State) : List Cplx :=
  maskFn s.build.n (cutoff s.build s.sr s.farg) (s.bufEntries bs)

theorem bandSpectrum_length (bs : BitVec 2) (s : State) : (bandSpectrum bs s).length = s.build.n := by
  simp [bandSpectrum]

theorem bandSpectrum_laid (bs : BitVec 2) (s : State) : ∀ z ∈ bandSpectrum bs s, z.Laid s.build.prec :=
  maskFn_laid (bufEntries_laid s bs) _ _

/-- `BUILD` is the inverse transform of the truncated spectrum it writes, and a new `MAXF`. -/
theorem buildBand_eq (bs bd : BitVec 2) (slot : BitVec 8) (s : State) : buildBand bs bd slot s =
    (inverseReal (bandSpectrum bs s) slot (s.bufWrite bd 0 (bandSpectrum bs s))).setSlot slot.toNat
      { (inverseReal (bandSpectrum bs s) slot (s.bufWrite bd 0 (bandSpectrum bs s))).slot slot.toNat with
        maxf := s.farg } := rfl

/-- `BUILD` writes memory, `SCR` and a descriptor, and nothing else. -/
theorem buildBand_writes (bs bd : BitVec 2) (slot : BitVec 8) (s : State) : buildBand bs bd slot s =
    { s with mem := (buildBand bs bd slot s).mem, scr := (buildBand bs bd slot s).scr,
             slots := (buildBand bs bd slot s).slots } := rfl

/-- The descriptor of the slot after `BUILD`. -/
theorem buildBand_slot (bs bd : BitVec 2) (slot : BitVec 8) (s : State) (h : slot.toNat < s.slots.length) :
    (buildBand bs bd slot s).slot slot.toNat =
      { maxf := s.farg, len := BitVec.ofNat 18 s.build.n, kern := (s.slot slot.toNat).kern } := by
  rw [buildBand_eq, State.slot_setSlot_same _ (by simpa [inverseReal] using h),
    inverseReal_slot _ slot (s.bufWrite bd 0 (bandSpectrum bs s)) h]
  rfl

/-- `BUILD` changes no byte but those of `BD` and of the samples 0 to `N - 1` of the slot. -/
theorem buildBand_byteAt (bs bd : BitVec 2) (slot : BitVec 8) (s : State) {a : Nat} (hbuf : ¬InEntries bd 0 s.build.n a)
    (htab : ¬InSamples s.build slot.toNat s.build.n a) : (buildBand bs bd slot s).mem.byteAt a = s.mem.byteAt a := by
  rw [buildBand_eq, State.setSlot_mem, inverseReal_byteAt _ slot (s.bufWrite bd 0 (bandSpectrum bs s)) htab]
  refine s.byteAt_bufWrite_outside bd 0 _ ?_
  rw [bandSpectrum_length]
  unfold InEntries bufAddr at hbuf
  unfold bufAddr
  omega

theorem buildBand_bufEntries {bs bd : BitVec 2} {slot : BitVec 8} {s : State} (hbd : bd ≠ 3#2)
    (hn : s.build.n ≤ 2 ^ 17) : (buildBand bs bd slot s).bufEntries bd = bandSpectrum bs s := by
  rw [buildBand_eq, State.setSlot_bufEntries, inverseReal_bufEntries _ slot (s.bufWrite bd 0 (bandSpectrum bs s)) hbd hn]
  exact bufEntries_bufWrite s bd _ (bandSpectrum_length bs s) (bandSpectrum_laid bs s)

theorem buildBand_tabRead (bs bd : BitVec 2) (slot : BitVec 8) (s : State) {j : Nat} (hj : j < s.build.n) :
    (buildBand bs bd slot s).tabRead slot.toNat j =
      ((transform s.build .inv (bandSpectrum bs s)).getD j ⟨0#64, 0#64⟩).re := by
  rw [buildBand_eq, State.setSlot_tabRead]
  exact inverseReal_tabRead _ slot (s.bufWrite bd 0 (bandSpectrum bs s)) hj

/-- Settles O31, field by field of `buildBand`. -/
theorem buildWritesOneBand : Obligations.BuildWritesOneBand := by
  refine fun s bs bd slot w => ⟨checkBuild_eq bs bd slot s, fun hb hslots hi hc => ?_⟩
  obtain ⟨hbd, hslot, -⟩ := checkBuild_none hc
  obtain ⟨-, hn, -⟩ := legal_sizes hb
  have hexec : exec (.build bs bd slot) s = .next (buildBand bs bd slot s).finish := exec_completes hi hc
  have hdesc := buildBand_slot bs bd slot s (hslot.trans_eq hslots.symm)
  refine ⟨_, hexec, congrArg State.finish (buildBand_writes bs bd slot s), ?_⟩
  simp only [State.finish_bufEntries, State.finish_scr, State.finish_tabRead, State.finish_slot, State.finish_slots,
    State.finish_mem, hdesc, true_and]
  exact ⟨buildBand_bufEntries hbd hn, rfl, fun j hj => buildBand_tabRead bs bd slot s hj,
    Nat.mod_eq_of_lt (by omega),
    fun k hne => (State.slot_setSlot_other _ hne _).trans (State.slot_setSlot_other _ hne _),
    List.length_set.trans List.length_set, fun a => buildBand_byteAt bs bd slot s⟩

end Sys2Proof.Machine

/-! ## BUILD as copy, MASK, FFT.INVR and a write of MAXF (R147) -/

namespace Sys2Proof.Machine

/-- A buffer written byte by byte: byte `j` of each part of entry `k` is that of the part written. -/
theorem State.byteAt_bufWrite_inside (s : State) (f : BitVec 2) (ys : List Cplx) {k j : Nat} (hk : k < ys.length)
    (hj : j < 8) :
    (s.bufWrite f 0 ys).mem.byteAt (bufAddr f k + j) = (wordBytes (ys.getD k ⟨0#64, 0#64⟩).re).getD j 0#8 ∧
      (s.bufWrite f 0 ys).mem.byteAt (bufAddr f k + 8 + j) = (wordBytes (ys.getD k ⟨0#64, 0#64⟩).im).getD j 0#8 := by
  have hlen := flatMap_pair_length ys
  obtain ⟨hre, him⟩ := flatMap_pair_getD ys k
  have hreAddr : bufAddr f k = bufAddr f 0 + 8 * (2 * k) := by unfold bufAddr; omega
  have himAddr : bufAddr f k + 8 = bufAddr f 0 + 8 * (2 * k + 1) := by unfold bufAddr; omega
  rw [State.bufWrite_mem, himAddr, hreAddr, Mem.byteAt_storeWords_inside _ _ _ (by omega) hj,
    Mem.byteAt_storeWords_inside _ _ _ (by omega) hj, hre, him]
  exact ⟨rfl, rfl⟩

/-- Which bytes of real parts are cleared. -/
theorem cleared_re_iff {n c : Nat} (hc : 1 ≤ c) (bd : BitVec 2) (k : Nat) {j : Nat} (hj : j < 8) :
    Cleared n bd c (bufAddr bd k + j) ↔ c ≤ k ∧ k ≤ n - c := by
  unfold Cleared InEntries bufAddr
  omega

/-- Which bytes of imaginary parts are cleared. -/
theorem cleared_im_iff (n c : Nat) (bd : BitVec 2) (k : Nat) {j : Nat} (hj : j < 8) :
    Cleared n bd c (bufAddr bd k + 8 + j) ↔ k = 0 ∨ (c ≤ k ∧ k ≤ n - c) := by
  unfold Cleared InEntries bufAddr
  omega

theorem Cleared.inEntries {n c : Nat} (hn : 1 ≤ n) (hc : 1 ≤ c) {bd : BitVec 2} {x : Nat} (h : Cleared n bd c x) :
    InEntries bd 0 n x := by
  unfold Cleared InEntries bufAddr at h
  unfold InEntries bufAddr
  omega

/-- A byte of a buffer is a byte of the real or of the imaginary part of one of its entries. -/
theorem InEntries.exists_part {f : BitVec 2} {n x : Nat} (h : InEntries f 0 n x) :
    ∃ k j, k < n ∧ j < 8 ∧ (x = bufAddr f k + j ∨ x = bufAddr f k + 8 + j) := by
  unfold InEntries bufAddr at h
  refine ⟨(x - bufAddr f 0) / 16, (x - bufAddr f 0) % 8, ?_⟩
  unfold bufAddr
  omega

theorem wordBytes_zero_getD : ∀ j < 8, (wordBytes 0#64).getD j 0#8 = 0#8 := by decide

/-- The byte of a word that `MASK` clears when `P` holds. -/
theorem maskBuffer_byteAt_of_word {s : State} {c : Nat} (h : cutoff s.build s.sr s.farg = some c) {bd : BitVec 2} {x : Nat}
    {P : Prop} [Decidable P] (hP : Cleared s.build.n bd c x ↔ P) {v : Word} {j : Nat} (hj : j < 8)
    (hv : s.mem.byteAt x = (wordBytes v).getD j 0#8) :
    (maskBuffer bd s).mem.byteAt x = (wordBytes (if P then 0#64 else v)).getD j 0#8 := by
  split
  · next hp => rw [maskBuffer_byteAt_cleared h (hP.mpr hp), wordBytes_zero_getD j hj]
  · next hp => rw [maskBuffer_byteAt_kept h (mt hP.mp hp), hv]

/-- Masking a buffer that was written whole leaves the bytes of the masked spectrum. -/
theorem maskBuffer_bufWrite_byteAt {s : State} {bd : BitVec 2} {ys : List Cplx} {c : Nat}
    (hcut : cutoff s.build s.sr s.farg = some c) (hlen : ys.length = s.build.n) (x : Nat) :
    (maskBuffer bd (s.bufWrite bd 0 ys)).mem.byteAt x =
      (s.bufWrite bd 0 (maskFn s.build.n (some c) ys)).mem.byteAt x := by
  have hc := one_le_cutoff hcut
  have hlen' : (maskFn s.build.n (some c) ys).length = s.build.n := by rw [maskFn_length, hlen]
  have hcut' : cutoff (s.bufWrite bd 0 ys).build (s.bufWrite bd 0 ys).sr (s.bufWrite bd 0 ys).farg = some c := hcut
  by_cases hx : InEntries bd 0 s.build.n x
  · obtain ⟨k, j, hk, hj, hx⟩ := hx.exists_part
    obtain ⟨hre, him⟩ := s.byteAt_bufWrite_inside bd ys (hlen.symm ▸ hk) hj
    obtain ⟨hre', him'⟩ := s.byteAt_bufWrite_inside bd (maskFn s.build.n (some c) ys) (hlen'.symm ▸ hk) hj
    rcases hx with rfl | rfl
    · rw [hre', maskFn_getD_re hc]
      exact maskBuffer_byteAt_of_word hcut' (cleared_re_iff hc bd k hj) hj hre
    · rw [him', maskFn_getD_im]
      exact maskBuffer_byteAt_of_word hcut' (cleared_im_iff _ c bd k hj) hj him
  · have hout : ∀ zs : List Cplx, zs.length = s.build.n → (s.bufWrite bd 0 zs).mem.byteAt x = s.mem.byteAt x := by
      intro zs hzs
      refine s.byteAt_bufWrite_outside bd 0 zs ?_
      unfold InEntries bufAddr at hx
      unfold bufAddr
      omega
    rw [maskBuffer_byteAt_kept hcut' fun h => hx (h.inEntries (Nat.two_pow_pos _) hc), hout ys hlen, hout _ hlen']

/-- Masking a buffer that was written whole is writing it masked. -/
theorem maskBuffer_bufWrite {s : State} (hs : s.StoredSound) (bd : BitVec 2) {ys : List Cplx}
    (hlen : ys.length = s.build.n) :
    maskBuffer bd (s.bufWrite bd 0 ys) = s.bufWrite bd 0 (maskFn s.build.n (cutoff s.build s.sr s.farg) ys) := by
  cases hcut : cutoff s.build s.sr s.farg with
  | none => exact maskBuffer_none (s := s.bufWrite bd 0 ys) hcut bd
  | some c =>
    have hmem : (maskBuffer bd (s.bufWrite bd 0 ys)).mem = (s.bufWrite bd 0 (maskFn s.build.n (some c) ys)).mem :=
      Mem.eq_of_bytes ((hs.bufWrite bd 0 ys).maskBuffer bd).mem_wf (hs.bufWrite ..).mem_wf
        (maskBuffer_bufWrite_byteAt hcut hlen)
    rw [maskBuffer_writes_mem, hmem]
    rfl

/-- Settles O32: after the copy `MASK` leaves the truncated spectrum in `BD`, where `FFT.INVR` finds it. -/
theorem buildEqualsCopyMaskInvrTag : Obligations.BuildEqualsCopyMaskInvrTag := by
  intro s t bs bd slot w hs hi hc ht
  obtain ⟨hbd, hslot, hmask⟩ := checkBuild_none hc
  have hmasked : maskBuffer bd (s.bufWrite bd 0 (s.bufEntries bs)) = s.bufWrite bd 0 (bandSpectrum bs s) :=
    maskBuffer_bufWrite hs.stored bd (bufEntries_length s bs)
  have hspectrum := bufEntries_bufWrite s bd _ (bandSpectrum_length bs s) (bandSpectrum_laid bs s)
  have hexec : exec (.build bs bd slot) s = .next (buildBand bs bd slot s).finish := exec_completes hi hc
  obtain rfl : (buildBand bs bd slot s).finish = t := Host.Outcome.next.inj (hexec.symm.trans ht)
  refine ⟨(s.bufWrite bd 0 (bandSpectrum bs s)).finish,
    (inverseReal (bandSpectrum bs s) slot { (s.bufWrite bd 0 (bandSpectrum bs s)).finish with inflight := some w }).finish,
    ?_, ?_, rfl⟩
  · rw [← hmasked]
    exact exec_completes (i := .mask bd) hi hmask
  · have hinvr : operandFault (.fftInvr bd slot) { (s.bufWrite bd 0 (bandSpectrum bs s)).finish with inflight := some w } =
        none := (checkInvr_eq s.build bd slot).trans (by simp [hbd, hslot])
    have hentries : State.bufEntries { (s.bufWrite bd 0 (bandSpectrum bs s)).finish with inflight := some w } bd =
      bandSpectrum bs s := hspectrum
    rw [exec_completes rfl hinvr, effectOf, hentries]

end Sys2Proof.Machine

/-! ## The phase step (R171) -/

namespace Sys2Proof.Machine

/-- The new position is the sum modulo the length: at most one length is taken off. -/
theorem advPos_eq_mod {b : Build} {r : Channel} (h : r.pos.toNat < lengthFx b r) (hi : r.inc.toNat ≤ lengthFx b r) :
    advPos b r = (r.pos.toNat + r.inc.toNat) % lengthFx b r := by
  have hlt := advPos_lt h hi
  unfold advPos at hlt ⊢
  simp only at hlt ⊢
  split at hlt
  · next hle => rw [if_pos hle, Nat.mod_eq_sub_mod hle, Nat.mod_eq_of_lt hlt]
  · next hle => rw [if_neg hle, Nat.mod_eq_of_lt hlt]

/-- Settles O45: the sum lies below twice the length. -/
theorem advanceIsAdditionModuloTheLength : Obligations.AdvanceIsAdditionModuloTheLength := by
  refine fun b r h hi => ⟨advPos_lt h hi, advPos_eq_mod h hi, fun hinc => ?_⟩
  rw [advPos_eq_mod h hi, hinc, Nat.add_mod_right, Nat.mod_eq_of_lt h]

end Sys2Proof.Machine

/-! ## OSC.ADV and OSC.RETRIG (R172, R173) -/

namespace Sys2Proof.Machine

theorem checkTable_eq (c : Chan) (s : State) :
    checkTable c s = if (s.chan c).valid = false then some .noTable else none := by
  simp [checkTable, firstFault]

/-- Settles O34: the advanced position fits `POS`, and the effect of `OSC.ADV` is the move and the event. -/
theorem oscAdvMovesAndEmits : Obligations.OscAdvMovesAndEmits := by
  refine fun s c w => ⟨checkTable_eq c s, fun hs hi hv => ?_⟩
  have hr := hs.stored.chan c
  obtain ⟨-, hmax, -⟩ := hr.selected hv
  have hpos : advPos s.build (s.chan c) < 2 ^ s.build.pw :=
    Nat.lt_of_lt_of_le (hr.advPos_lt hv) (length_le_phase hmax)
  refine ⟨posWord s.build (advPos s.build (s.chan c)), posWord_toNat hs.legal hpos, ?_⟩
  rw [exec_completes (i := .oscAdv c) hi (checkTable_eq_none.mpr hv)]
  simp only [effectOf, State.finish, State.emit, State.moveTo_out]
  rfl

theorem posWord_zero (b : Build) : posWord b 0 = 0#64 := by simp [posWord]

/-- Settles O35: the effect of `OSC.RETRIG` is the move to position 0. -/
theorem oscRetrigRestartsAtZero : Obligations.OscRetrigRestartsAtZero := by
  refine fun s c w => ⟨checkTable_eq c s, fun hi hv => ?_⟩
  rw [exec_completes (i := .oscRetrig c) hi (checkTable_eq_none.mpr hv), effectOf, State.moveTo, posWord_zero]
  rfl

end Sys2Proof.Machine

/-! ## The scan (R165) -/

namespace Sys2Proof.Machine

/-- The scan passes over a slot only when its bound is not at least `f`. -/
theorem scanFrom_passes {p : Prec} {slots : List SlotDesc} {f : F} {n t u : Nat} (ht : t ≤ u)
    (hu : u < scanFrom p slots f n t) : fge p (slotOf slots u).maxf f = false := by
  induction n generalizing t with
  | zero => simp only [scanFrom] at hu; omega
  | succ n ih =>
    simp only [scanFrom] at hu
    split at hu
    · omega
    · next hmiss =>
      rcases Nat.eq_or_lt_of_le ht with rfl | hlt
      · simpa using hmiss
      · exact ih hlt hu

/-- The scan stops at a bound that is at least `f`, or at the last slot. -/
theorem scanFrom_hits_or_last (p : Prec) (slots : List SlotDesc) (f : F) (n t : Nat) :
    fge p (slotOf slots (scanFrom p slots f n t)).maxf f = true ∨ scanFrom p slots f n t = t + n - 1 := by
  induction n generalizing t with
  | zero => exact .inr rfl
  | succ n ih =>
    simp only [scanFrom]
    split
    · next hit => exact .inl hit
    · rw [show t + (n + 1) - 1 = t + 1 + n - 1 by omega]
      exact ih (t + 1)

section Scan
variable {p : Prec} {slots : List SlotDesc} {r : Channel} {f : F}

theorem scan_range (hn : 1 ≤ r.setcnt.toNat) : r.setbase.toNat ≤ scan p slots r f ∧
    scan p slots r f ≤ r.setbase.toNat + r.setcnt.toNat - 1 := by
  have h := scanFrom_range p slots f r.setcnt.toNat r.setbase.toNat hn
  exact ⟨h.1, Nat.le_sub_one_of_lt h.2⟩

theorem scan_passes {u : Nat} (hb : r.setbase.toNat ≤ u) (hu : u < scan p slots r f) :
    fge p (slotOf slots u).maxf f = false := scanFrom_passes hb hu

/-- When a slot of the set has a bound of at least `f`, so has the slot picked: the scan does not pass over it, and past
the last slot there is none. -/
theorem scan_hits {u : Nat} (hb : r.setbase.toNat ≤ u) (hu : u ≤ r.setbase.toNat + r.setcnt.toNat - 1)
    (hit : fge p (slotOf slots u).maxf f = true) : fge p (slotOf slots (scan p slots r f)).maxf f = true := by
  rcases scanFrom_hits_or_last p slots f r.setcnt.toNat r.setbase.toNat with h | hlast
  · exact h
  · have hle : u ≤ scan p slots r f := hu.trans_eq hlast.symm
    rcases Nat.eq_or_lt_of_le hle with rfl | hlt
    · exact hit
    · rw [scan_passes hb hlt] at hit
      cases hit

/-- A slot picked although its bound is below `f` is the last of the set. -/
theorem scan_eq_last (hmiss : fge p (slotOf slots (scan p slots r f)).maxf f = false) :
    scan p slots r f = r.setbase.toNat + r.setcnt.toNat - 1 :=
  (scanFrom_hits_or_last p slots f r.setcnt.toNat r.setbase.toNat).resolve_left (Bool.eq_false_iff.mp hmiss)

end Scan

/-- Settles O41: the scan passes over misses only, and stops at a hit or at the last slot. -/
theorem scanPicksTheFirstBoundAtLeastF : Obligations.ScanPicksTheFirstBoundAtLeastF := by
  intro p slots r f hn b n t
  obtain ⟨hb, ht⟩ : b ≤ t ∧ t ≤ b + n - 1 := scan_range hn
  exact ⟨hb, ht, fun u hbu hut => scan_passes hbu hut, fun ⟨u, hbu, hu, hit⟩ => scan_hits hbu hu hit,
    fun hnone => scan_eq_last (hnone t hb ht)⟩

end Sys2Proof.Machine

/-! ## The window of a selection (R164, R166) -/

namespace Sys2Proof.Machine

theorem toF_zero (p : Prec) : toF p 0 = 0#64 := by cases p <;> rfl

theorem inWindow_iff {p : Prec} {r : Channel} {f : F} :
    inWindow p r f = true ↔ flt p r.bottom f = true ∧ fge p r.top f = true := Bool.and_eq_true_iff

theorem inWindow_of_above_top {p : Prec} {r : Channel} {f : F} (h : fge p r.top f = false) : inWindow p r f = false :=
  Bool.eq_false_iff.mpr fun hw => absurd (inWindow_iff.mp hw).2 (Bool.eq_false_iff.mp h)

/-- A bound that is a number and not at least the frequency lies below it. -/
theorem flt_of_not_fge {p : Prec} {a f : F} (ha : isNaN p a = false) (hf : isNaN p f = false) (h : fge p a f = false) :
    flt p a f = true := by
  have hle : ¬orderKey p f ≤ orderKey p a := fun hle => Bool.eq_false_iff.mp h (fle_iff.mpr ⟨hf, ha, hle⟩)
  exact flt_iff.mpr ⟨ha, hf, not_le.mp hle⟩

theorem not_fge_of_flt {p : Prec} {a g : F} (h : flt p a g = true) : fge p a g = false :=
  Bool.eq_false_iff.mpr fun hge => absurd (flt_iff.mp h).2.2 (not_lt.mpr (fle_iff.mp hge).2.2)

theorem flt_trans {p : Prec} {a b c : F} (hab : flt p a b = true) (hbc : flt p b c = true) : flt p a c = true := by
  obtain ⟨ha, -, hab⟩ := flt_iff.mp hab
  obtain ⟨-, hc, hbc⟩ := flt_iff.mp hbc
  exact flt_iff.mpr ⟨ha, hc, hab.trans hbc⟩

/-- The bounds of a channel's set rise from slot to slot (R166). -/
def Ascending (p : Prec) (slots : List SlotDesc) (r : Channel) : Prop :=
  ∀ u v, r.setbase.toNat ≤ u → u < v → v ≤ r.setbase.toNat + r.setcnt.toNat - 1 →
    flt p (slotOf slots u).maxf (slotOf slots v).maxf = true

section Selection
variable {b : Build} {slots : List SlotDesc} {r : Channel} {f : F}

/-- The window's lower end lies below the frequency: it is `+0.0`, or the bound of a slot that the scan passed over. -/
theorem selectSlot_bottom_lt (hn : 1 ≤ r.setcnt.toNat) (hasc : Ascending b.prec slots r)
    (hf : flt b.prec (toF b.prec 0) f = true) :
    flt b.prec (selectSlot b slots r (scan b.prec slots r f)).bottom f = true := by
  obtain ⟨hbase, hlast⟩ : _ ≤ scan b.prec slots r f ∧ _ := scan_range hn
  simp only [selectSlot]
  split
  · rwa [toF_zero] at hf
  · next hne =>
    have hbefore : r.setbase.toNat ≤ scan b.prec slots r f - 1 := by omega
    have hlt : scan b.prec slots r f - 1 < scan b.prec slots r f := by omega
    obtain ⟨hnum, -⟩ := flt_iff.mp (hasc _ _ hbefore hlt hlast)
    obtain ⟨-, hfnum, -⟩ := flt_iff.mp hf
    exact flt_of_not_fge hnum hfnum (scan_passes hbefore hlt)

/-- A frequency above the bound of the last slot of an ascending set scans to the last slot. -/
theorem scan_of_above_last {p : Prec} {g : F} (hn : 1 ≤ r.setcnt.toNat) (hasc : Ascending p slots r)
    (hg : flt p (slotOf slots (r.setbase.toNat + r.setcnt.toNat - 1)).maxf g = true) :
    scan p slots r g = r.setbase.toNat + r.setcnt.toNat - 1 := by
  obtain ⟨hbase, hlast⟩ : _ ≤ scan p slots r g ∧ _ := scan_range hn
  rcases Nat.eq_or_lt_of_le hlast with heq | hlt
  · exact heq
  · -- a slot before the last has a lower bound still, so the scan does not stop there
    exact scan_eq_last (not_fge_of_flt (flt_trans (hasc _ _ hbase hlt le_rfl) hg))

end Selection

/-- Settles O42: without fallback the frequency lies above the slot passed over last and not above the top; the top of a
fallback is the bound of the last slot. -/
theorem selectedFrequencyIsInsideItsWindow : Obligations.SelectedFrequencyIsInsideItsWindow := by
  intro b slots r f t r'
  refine ⟨rfl, rfl, fun hn hasc hf => ⟨fun hit => ?_, fun hmiss => ⟨inWindow_of_above_top hmiss, fun g hg => ?_⟩⟩⟩
  · exact inWindow_iff.mpr ⟨selectSlot_bottom_lt hn hasc hf, hit⟩
  · have hlast : t = r.setbase.toNat + r.setcnt.toNat - 1 := scan_eq_last hmiss
    refine ⟨inWindow_of_above_top (not_fge_of_flt hg), ?_⟩
    rw [hlast] at hg ⊢
    exact scan_of_above_last (r := r') hn hasc hg

end Sys2Proof.Machine

/-! ## OSC.SETF (R170, R176) -/

namespace Sys2Proof.Machine

theorem badFreq_eq_true {p : Prec} {f sr : F} :
    badFreq p f sr = true ↔ isNaN p f = true ∨ flt p f (toF p 0) = true ∨ fge p f sr = true := by
  simp only [badFreq, Bool.or_eq_true, or_assoc]

/-- The five checks of R170 in order, those of the slot only when the frequency is outside the window. -/
theorem checkSetf_eq (b : Build) (slots : List SlotDesc) (sr f : F) (r : Channel) : checkSetf b slots sr f r =
    let d := slotOf slots (scan b.prec slots r f)
    if isFinite b.prec sr = false ∨ fgt b.prec sr (toF b.prec 0) = false then some .badSr
    else if isNaN b.prec f = true ∨ flt b.prec f (toF b.prec 0) = true ∨ fge b.prec f sr = true then some .freqRange
    else if r.setcnt.toNat = 0 ∨ b.tslots < r.setbase.toNat + r.setcnt.toNat then some .badSet
    else if inWindow b.prec r f = true then none
    else if d.len.toNat = 0 ∨ b.lmax < d.len.toNat then some .badLen
    else if d.kern = 3#2 then some .badKern else none := by
  cases hw : inWindow b.prec r f <;>
    simp [checkSetf, firstFault, badSr_eq_true, badFreq_eq_true, badSet, badLen, badKern, hw]

theorem setf_of_inWindow {b : Build} {slots : List SlotDesc} {sr f : F} {r : Channel} (h : inWindow b.prec r f = true) :
    setf b slots sr f r = retune b f sr r := by simp [setf, h]

theorem setf_of_not_inWindow {b : Build} {slots : List SlotDesc} {sr f : F} {r : Channel}
    (h : inWindow b.prec r f = false) :
    setf b slots sr f r = retune b f sr (selectSlot b slots r (scan b.prec slots r f)) := by simp [setf, h]

theorem setf_keeps (b : Build) (slots : List SlotDesc) (sr f : F) (r : Channel) :
    (setf b slots sr f r).freq = f ∧ (setf b slots sr f r).cur = r.cur ∧
      (setf b slots sr f r).setbase = r.setbase ∧ (setf b slots sr f r).setcnt = r.setcnt := by
  unfold setf
  split <;> exact ⟨rfl, rfl, rfl, rfl⟩

/-- A channel whose frequency was set has a table: the one it had, or the one it selected. -/
theorem Channel.Sound.setf_valid {b : Build} {r : Channel} (h : r.Sound b) (slots : List SlotDesc) (sr f : F) :
    (Machine.setf b slots sr f r).valid = true := by
  cases hw : inWindow b.prec r f with
  | true => rw [setf_of_inWindow hw]; exact h.valid_of_inWindow hw
  | false => rw [setf_of_not_inWindow hw]; rfl

theorem selectSlot_sel {b : Build} (hb : b.Legal) (slots : List SlotDesc) (r : Channel) {t : Nat} (ht : t < b.tslots) :
    (selectSlot b slots r t).sel.toNat = t :=
  Nat.mod_eq_of_lt (Nat.lt_of_lt_of_le ht hb.tslots_le)

/-- A channel that had a table keeps its place in the new one (R167). -/
theorem selectSlot_pos {b : Build} (hb : b.Legal) {slots : List SlotDesc} {r : Channel} (hv : r.valid = true) {t : Nat}
    (h1 : 1 ≤ (slotOf slots t).len.toNat) (hmax : (slotOf slots t).len.toNat ≤ b.lmax) :
    (selectSlot b slots r t).pos.toNat = rescale b r.pos.toNat r.curlen.toNat (slotOf slots t).len.toNat := by
  simp only [selectSlot, hv, if_true]
  exact posWord_toNat hb (Nat.lt_of_lt_of_le (rescale_lt h1) (length_le_phase hmax))

theorem kernelOf_code : ∀ k : BitVec 2, k ≠ 3#2 → (kernelOf k).code = k := by decide

/-- Settles O33: inside the window `setf` only retunes the channel, outside it also selects the scanned slot. -/
theorem oscSetfSelectsAndRetunes : Obligations.OscSetfSelectsAndRetunes := by
  intro s c w p f r k d
  refine ⟨checkSetf_eq s.build s.slots s.sr f r, fun hs hi hc => ?_⟩
  have hr : r.Sound s.build := hs.stored.chan c
  have hvalid : (setf s.build s.slots s.sr f r).valid = true := hr.setf_valid s.slots s.sr f
  obtain ⟨-, hcurlen, -⟩ := (hr.setf hs.legal hs.slots_laid hs.stored.farg_laid hc).selected hvalid
  obtain ⟨hfreq, hcur, hbase, hcnt⟩ := setf_keeps s.build s.slots s.sr f r
  refine ⟨setf s.build s.slots s.sr f r, exec_completes hi hc, hfreq, hcur, hbase, hcnt, hvalid,
    incWord_incOf hs.legal hcurlen, fun hw => ?_, fun hw => ?_⟩
  · rw [setf_of_inWindow hw]
    exact ⟨rfl, rfl, rfl, rfl, rfl, rfl⟩
  · obtain ⟨hset, htslots, hslot⟩ := checkSetf_none hc
    obtain ⟨h1, hmax, hkern⟩ := hslot hw
    have hk : k < s.build.tslots := by
      have hlast : k ≤ _ := (scan_range hset).2
      omega
    rw [setf_of_not_inWindow hw]
    exact ⟨selectSlot_sel hs.legal s.slots r hk, rfl, kernelOf_code _ hkern, rfl, rfl,
      fun hv => selectSlot_pos hs.legal hv h1 hmax,
      fun hv => (if_neg (Bool.eq_false_iff.mp hv)).trans (hr.unselected hv).1⟩

/-- A completed `OSC.SETF` whose frequency is in the window retunes its channel and moves no build parameter. -/
theorem exec_oscSetf_inWindow {c : Chan} {s t : State} {w : Word32} (hi : s.inflight = some w)
    (hw : inWindow s.build.prec (s.chan c) s.farg = true) (h : exec (.oscSetf c) s = .next t) :
    t.build = s.build ∧ t.chan c = retune s.build s.farg s.sr (s.chan c) := by
  rcases exec_next_cases h with ⟨hidle, -⟩ | ⟨w', -, -, rfl⟩
  · rw [hi] at hidle; cases hidle
  · rw [effectOf, setf_of_inWindow hw]
    simp

/-- Settles O47: retuning moves neither the table nor its window, so the second frequency meets the same window. -/
theorem frequenciesInTheWindowKeepTheTable : Obligations.FrequenciesInTheWindowKeepTheTable := by
  intro s t u c w f g hf hg ht hu
  obtain ⟨hbuild, hchan⟩ : t.build = s.build ∧ t.chan c = retune s.build f s.sr (s.chan c) :=
    exec_oscSetf_inWindow (s := { s with farg := f, inflight := some w }) rfl hf ht
  have hg' : inWindow t.build.prec (t.chan c) g = true := by rw [hbuild, hchan]; exact hg
  obtain ⟨-, hchan'⟩ : u.build = t.build ∧ u.chan c = retune t.build g t.sr (t.chan c) :=
    exec_oscSetf_inWindow (s := { t with farg := g, inflight := some w }) rfl hg' hu
  rw [hchan', hchan]
  exact ⟨rfl, rfl, rfl, rfl, rfl, rfl⟩

end Sys2Proof.Machine

/-! ## NOP (R200) -/

namespace Sys2Proof.Machine

/-- Settles O25: `NOP` has no check to fail and no effect, so only the lifecycle is left. -/
theorem nopOnlyGoesThroughTheLifecycle : Obligations.NopOnlyGoesThroughTheLifecycle := by
  refine fun s => ⟨fun hi hf => ?_, fun hi hf => ?_, fun w hi => exec_completes hi rfl⟩
  · rw [exec_idle hi]
    exact congrArg Host.Outcome.next (State.issue_accepts hf _)
  · rw [exec_idle hi, State.issue_of_fault (Option.isSome_iff_ne_none.mpr hf)]

end Sys2Proof.Machine

/-! ## MORPH.ADV (R203) -/

namespace Sys2Proof.Machine

theorem checkMorphAdv_eq (s : State) :
    checkMorphAdv s = if s.ch0.valid = false ∨ s.ch1.valid = false then some .noTable else none := by
  simp [checkMorphAdv, firstFault]

/-- `POS` holds the advanced position of a channel with a table (R42, R171). -/
theorem Channel.Sound.posWord_advPos {b : Build} (hb : b.Legal) {r : Channel} (h : r.Sound b) (hv : r.valid = true) :
    (posWord b (advPos b r)).toNat = advPos b r := by
  obtain ⟨-, hmax, -⟩ := h.selected hv
  exact posWord_toNat hb (Nat.lt_of_lt_of_le (h.advPos_lt hv) (length_le_phase hmax))

/-- Settles O37: both advanced positions fit `POS`, and the effect is `morphAdvance`, whose blend is written out. -/
theorem morphAdvAdvancesBothAndEmitsTheBlend : Obligations.MorphAdvAdvancesBothAndEmitsTheBlend := fun s _ =>
  ⟨checkMorphAdv_eq s, fun hs hi h0 h1 =>
    ⟨posWord s.build (advPos s.build s.ch0), posWord s.build (advPos s.build s.ch1),
      hs.chan0.posWord_advPos hs.legal h0, hs.chan1.posWord_advPos hs.legal h1,
      exec_completes hi (checkMorphAdv_eq_none.mpr ⟨h0, h1⟩)⟩⟩

end Sys2Proof.Machine

/-! ## The output history (R205) -/

namespace Sys2Proof.Machine

/-- The events a command emits at its completion (R205). -/
def emitted (i : Instr) (s : State) : List OutEvent :=
  match i with
  | .oscAdv c => [⟨chanTag c, s.sampleAt c (advPos s.build (s.chan c))⟩]
  | .morphAdv => [⟨.morph, (morphAdvance s).morphOut⟩]
  | _ => []

/-- A command's effect appends its events to the history, and does nothing else to it. -/
theorem effectOf_out (i : Instr) (s : State) : (effectOf i s).out = s.out ++ emitted i s := by
  cases i with
  | oscAdv c => simp [effectOf, emitted]
  | morphAdv => rfl
  | mask bd =>
    rw [effectOf, maskBuffer_writes_mem]
    exact (List.append_nil _).symm
  | fftInvr bs slot | build bs bd slot => exact (List.append_nil _).symm
  | _ => simp [effectOf, emitted]

@[simp] theorem State.emit_chan (s : State) (t : Tag) (v : F) (c : Chan) : (s.emit t v).chan c = s.chan c := by
  cases c <;> rfl

@[simp] theorem State.moveTo_cur (s : State) (c : Chan) (p : Nat) : ((s.moveTo c p).chan c).cur = s.sampleAt c p := by
  simp [State.moveTo]

/-- The write of a command word emits nothing: it issues a command at most. -/
theorem onCmdWrite_out {v : Word} {s t : State} (h : onCmdWrite v s = .next t) : t.out = s.out := by
  rcases onCmdWrite_cases v s with ⟨-, hw⟩ | ⟨-, -, hw⟩ | ⟨-, -, -, hw⟩ | ⟨-, -, i, -, hw⟩ <;>
    obtain rfl := Host.Outcome.next.inj (hw.symm.trans h)
  · rfl
  · exact State.raise_out ..
  · exact State.raise_out ..
  · exact State.issue_out ..

theorem hostWrite_out {a : Word32} {v : Word} {s t : State} (h : hostWrite a v s = .next t) : t.out = s.out := by
  cases hr : s.rst with
  | true =>
    obtain rfl := Host.Outcome.next.inj ((hostWrite_inReset hr).symm.trans h)
    rfl
  | false =>
    obtain ⟨-, -, -, -, -, hloc, -⟩ := s.writeLoc_keeps (locate s.build a) v
    rcases hostWrite_cases a v hr with ⟨-, hw⟩ | ⟨-, hw⟩ | ⟨-, -, -, -, hw⟩ | ⟨-, -, -, -, hw⟩ <;> rw [hw] at h
    · exact onCmdWrite_out h
    · exact Host.Outcome.next.inj h ▸ hloc
    · exact Host.Outcome.next.inj h ▸ State.raise_out ..
    · exact Host.Outcome.next.inj h ▸ hloc

@[simp] theorem hostRead_out (a : Word32) (s : State) : (hostRead a s).out = s.out := by
  rcases hostRead_cases a s with ⟨hread, -⟩ | ⟨hread, -⟩ <;> rw [hread] <;> rfl

theorem hostAccess_out {x : Access} {s t : State} (h : hostAccess x s = .next t) : t.out = s.out := by
  rcases hostAccess_cases x s with ⟨-, hx⟩ | ⟨-, -, hx⟩ | ⟨-, v, -, hx⟩ <;> rw [hx] at h
  · cases h
  · exact Host.Outcome.next.inj h ▸ hostRead_out ..
  · exact hostWrite_out h

/-- The engine's turn appends what the command in flight emits, or nothing. -/
theorem engineTurn_out {s t : State} (h : engineTurn s = .next t) : s.out <+: t.out := by
  rcases engineTurn_next_cases h with ⟨-, rfl⟩ | ⟨w, i, -, -, -, rfl⟩
  · exact ⟨[], List.append_nil _⟩
  · exact ⟨emitted i s, (effectOf_out i s).symm⟩

/-- Every move of R270, an assertion of `RST` included, only appends to the history. -/
theorem step_out {s t : State} (h : step s = .next t) : s.out <+: t.out := by
  rcases step_next_cases h with ⟨-, h⟩ | ⟨x, rest, -, h⟩ | ⟨rest, -, -, h⟩ | ⟨rest, -, -, rfl⟩ | ⟨rest, -, h⟩ |
    ⟨cells, scr, rest, -, rfl⟩ | ⟨rest, -, rfl⟩
  · exact engineTurn_out h
  · rw [hostAccess_out h]
  · exact engineTurn_out h
  · rw [hostRead_out]
  · exact engineTurn_out (s := { s with turns := rest }) h
  · exact ⟨[], List.append_nil _⟩
  · exact ⟨[], List.append_nil _⟩

/-- Settles O39: the issue leaves the history alone, the completion appends `emitted`, and every step appends. -/
theorem onlyAdvancesEmitOneEvent : Obligations.OnlyAdvancesEmitOneEvent := by
  refine ⟨fun i s t h => ?_, fun s t h => (step_out h).imp fun _ => Eq.symm⟩
  rcases exec_next_cases h with ⟨hi, rfl⟩ | ⟨w, hi, -, rfl⟩
  · exact ⟨fun _ => State.issue_out .., fun hbusy => absurd hi hbusy⟩
  · refine ⟨fun hidle => absurd (hi.symm.trans hidle) (Option.some_ne_none w), fun _ => ?_⟩
    have hout : (effectOf i s).finish.out = s.out ++ emitted i s := effectOf_out i s
    cases i with
    | oscAdv c =>
      refine ⟨_, hout, ?_, ?_⟩
      · simp [effectOf]
      · cases c <;> rfl
    | morphAdv => exact ⟨_, hout, rfl, rfl⟩
    | _ => exact hout.trans (List.append_nil _)

end Sys2Proof.Machine

/-! ## A word that decodes is the word of its command (R93, R94) -/

namespace Sys2Proof

/-- A word is made of its seven fields, the two reserved ones included (R91). -/
theorem packFields_eq_word {w : Word32} {op : BitVec 8} {bs bd : BitVec 2} {ch : BitVec 1} {slot : BitVec 8}
    (hop : w.extractLsb' 0 8 = op) (hbs : w.extractLsb' 8 2 = bs) (hbd : w.extractLsb' 10 2 = bd)
    (hch : w.extractLsb' 12 1 = ch) (hmid : w.extractLsb' 13 3 = 0#3) (hslot : w.extractLsb' 16 8 = slot)
    (hhigh : w.extractLsb' 24 8 = 0#8) : packFields op bs bd ch slot = w := by
  unfold packFields
  rw [← hop, ← hbs, ← hbd, ← hch, ← hmid, ← hslot, ← hhigh]
  iterate 6 rw [BitVec.extractLsb'_append_extractLsb'_eq_extractLsb']
  exact BitVec.extractLsb'_eq_self
  all_goals rfl

/-- A word that matches a row agrees with the row's value on every field that the row's mask covers. -/
theorem Row.field_of_hits {w : Word32} {r : Row} (h : r.hits w = true) {start len : Nat}
    (hmask : r.mask.extractLsb' start len = BitVec.allOnes len) :
    w.extractLsb' start len = r.value.extractLsb' start len := by
  calc w.extractLsb' start len = w.extractLsb' start len &&& r.mask.extractLsb' start len := by
        rw [hmask, BitVec.and_allOnes]
    _ = (w &&& r.mask).extractLsb' start len := BitVec.extractLsb'_and.symm
    _ = r.value.extractLsb' start len := by rw [beq_iff_eq.mp h]

theorem chField_bit (w : Word32) : (chField w).bit = w.extractLsb' 12 1 := by
  refine BitVec.eq_of_getLsbD_eq fun i hi => ?_
  obtain rfl : i = 0 := by omega
  unfold chField
  cases hbit : w.getLsbD 12 <;> simpa [Chan.bit] using hbit.symm

/-- The command a matching row makes has the word it was made from: each field is used by the command or covered by the
row's mask. -/
theorem encode_make {w : Word32} {r : Row} (hr : r ∈ rows) (h : r.hits w = true) : encode (r.make w) = w := by
  have field {start len : Nat} := Row.field_of_hits h (start := start) (len := len)
  simp only [rows, List.mem_cons, List.not_mem_nil, or_false] at hr
  rcases hr with rfl | rfl | rfl | rfl | rfl | rfl | rfl | rfl | rfl | rfl | rfl | rfl
  · exact packFields_eq_word (field rfl) (field rfl) (field rfl) (field rfl) (field rfl) (field rfl) (field rfl)
  · exact packFields_eq_word (field rfl) rfl rfl (field rfl) (field rfl) (field rfl) (field rfl)
  · exact packFields_eq_word (field rfl) rfl rfl (field rfl) (field rfl) (field rfl) (field rfl)
  · exact packFields_eq_word (field rfl) rfl rfl (field rfl) (field rfl) (field rfl) (field rfl)
  · exact packFields_eq_word (field rfl) rfl (field rfl) (field rfl) (field rfl) rfl (field rfl)
  · exact packFields_eq_word (field rfl) (field rfl) rfl (field rfl) (field rfl) (field rfl) (field rfl)
  · exact packFields_eq_word (field rfl) rfl rfl (field rfl) (field rfl) rfl (field rfl)
  · exact packFields_eq_word (field rfl) (field rfl) (field rfl) (chField_bit w).symm (field rfl) (field rfl) (field rfl)
  · exact packFields_eq_word (field rfl) (field rfl) (field rfl) (chField_bit w).symm (field rfl) (field rfl) (field rfl)
  · exact packFields_eq_word (field rfl) (field rfl) (field rfl) (chField_bit w).symm (field rfl) (field rfl) (field rfl)
  · exact packFields_eq_word (field rfl) (field rfl) (field rfl) (field rfl) (field rfl) (field rfl) (field rfl)
  · exact packFields_eq_word (field rfl) (field rfl) (field rfl) (field rfl) (field rfl) (field rfl) (field rfl)

/-- A decoded word matches a row, and is the word of the command the row makes of it (R95). -/
theorem encode_of_decode {w : Word32} {i : Instr} (h : decode w = .ok i) : encode i = w := by
  unfold decode at h
  split at h
  · next r hfind =>
    obtain rfl := Except.ok.inj h
    exact encode_make (List.mem_of_find?_eq_some hfind) (List.find?_some hfind)
  · split at h <;> cases h

end Sys2Proof

/-! ## The write of a command word (R224) -/

namespace Sys2Proof.Machine

theorem State.faulted_eq_false {s : State} (h : s.fault = none) : s.faulted = false := by simp [State.faulted, h]

theorem State.faulted_eq_true {s : State} (h : s.fault ≠ none) : s.faulted = true := Option.isSome_iff_ne_none.mpr h

theorem State.busy_eq_false {s : State} (h : s.inflight = none) : s.busy = false := by simp [State.busy, h]

theorem State.busy_eq_true {s : State} (h : s.inflight ≠ none) : s.busy = true := Option.isSome_iff_ne_none.mpr h

/-- While a fault is recorded a write to `CMD` is ignored, `RST` asserted or not (R227). -/
theorem hostWrite_cmd_faulted {s : State} (hf : s.fault ≠ none) (v : Word) : hostWrite 0x020#32 v s = .next s := by
  cases hr : s.rst with
  | true => exact hostWrite_inReset hr
  | false => rw [hostWrite_cmd hr, onCmdWrite_faulted (State.faulted_eq_true hf)]

section CommandWord
variable {s : State} {v : Word} {w : Word32} (hw : v.setWidth 32 = w) (hr : s.rst = false) (hf : s.fault = none)
include hw hr hf

theorem hostWrite_cmd_busy (hi : s.inflight ≠ none) :
    hostWrite 0x020#32 v s = .next { s with fault := some .cmdBusy, finfo := w.setWidth 64 } := by
  rw [hostWrite_cmd hr, onCmdWrite_busy (State.faulted_eq_false hf) (State.busy_eq_true hi), State.raise_of_none hf, hw]

theorem hostWrite_cmd_undecoded (hi : s.inflight = none) (hd : ∃ e, decode w = .error e) :
    hostWrite 0x020#32 v s = .next { s with fault := some .illegalCmd, finfo := w.setWidth 64 } := by
  obtain ⟨e, he⟩ := hd
  rw [hostWrite_cmd hr, onCmdWrite_illegal (State.faulted_eq_false hf) (State.busy_eq_false hi) (hw ▸ he),
    State.raise_of_none hf, hw]

/-- A word that decodes is issued under its own bits: it is the word of its command (R93, R224). -/
theorem hostWrite_cmd_decoded {i : Instr} (hi : s.inflight = none) (hd : decode w = .ok i) :
    hostWrite 0x020#32 v s = .next (s.issue w (operandFault i s)) := by
  rw [hostWrite_cmd hr, onCmdWrite_decoded (State.faulted_eq_false hf) (State.busy_eq_false hi) (hw ▸ hd),
    exec_idle hi, encode_of_decode hd]

end CommandWord

/-- Settles O13, branch by branch of `onCmdWrite`; what is accepted is a word in flight that decodes. -/
theorem cmdWriteChecksAndAccepts : Obligations.CmdWriteChecksAndAccepts := by
  intro s v hr w
  have hw : v.setWidth 32 = w := BitVec.setWidth_eq_extractLsb' (by decide)
  refine ⟨fun hf => hostWrite_cmd_faulted hf v, hostWrite_cmd_busy hw hr, hostWrite_cmd_undecoded hw hr,
    fun i c hf hi hd hc => ?_, fun i hf hi hd hc => ⟨?_, engineTurn_decoded rfl hd⟩⟩
  · rw [hostWrite_cmd_decoded hw hr hf hi hd, hc, State.issue_faults hf]
  · rw [hostWrite_cmd_decoded hw hr hf hi hd, hc, State.issue_accepts hf]

end Sys2Proof.Machine

/-! ## The operand faults that apply to a command (R221, R222, R229) -/

namespace Sys2Proof.Machine

/-- The answer of a command's checks when the faults in `P` apply to it: none of them, or the one of lowest code. -/
def LowestOf (P : FaultCode → Prop) : Option FaultCode → Prop
  | none => ∀ d, ¬ P d
  | some c => P c ∧ ∀ d, P d → c.code.toNat ≤ d.code.toNat

theorem LowestOf.eq_some_iff {P : FaultCode → Prop} {x : Option FaultCode} (h : LowestOf P x) {c : FaultCode} :
    x = some c ↔ P c ∧ ∀ d, P d → c.code.toNat ≤ d.code.toNat := by
  refine ⟨fun hx => by rwa [hx] at h, fun ⟨hc, hmin⟩ => ?_⟩
  cases x with
  | none => exact absurd hc (h c)
  | some e =>
    obtain ⟨he, hemin⟩ := h
    rw [FaultCode.code_injective (BitVec.eq_of_toNat_eq (Nat.le_antisymm (hemin c hc) (hmin e he)))]

/-- Checks made in ascending code order find the lowest code among the causes they test (R222). -/
theorem lowestOf_firstFault {P : FaultCode → Prop} {l : List (Bool × FaultCode)}
    (hl : l.Pairwise fun x y => x.2.code.toNat ≤ y.2.code.toNat) (hP : ∀ d, (true, d) ∈ l ↔ P d) :
    LowestOf P (firstFault l) := by
  cases hx : firstFault l with
  | none => exact fun d hd => nomatch firstFault_eq_none.mp hx _ ((hP d).mpr hd)
  | some c => simpa only [LowestOf, hP] using (firstFault_eq_some hl).mp hx

/-- The lower of two faults is the lowest that applies on either side (R229). -/
theorem LowestOf.lowerFault {P Q : FaultCode → Prop} {x y : Option FaultCode} (hx : LowestOf P x) (hy : LowestOf Q y) :
    LowestOf (fun d => P d ∨ Q d) (lowerFault x y) := by
  cases x with
  | none =>
    cases y with
    | none => exact fun d hd => hd.elim (hx d) (hy d)
    | some b =>
      obtain ⟨hb, hbmin⟩ := hy
      exact ⟨.inr hb, fun d hd => hbmin d (hd.resolve_left (hx d))⟩
  | some a =>
    obtain ⟨ha, hamin⟩ := hx
    cases y with
    | none => exact ⟨.inl ha, fun d hd => hamin d (hd.resolve_right (hy d))⟩
    | some b =>
      obtain ⟨hb, hbmin⟩ := hy
      unfold Machine.lowerFault
      dsimp only
      split
      · next hle => exact ⟨.inl ha, fun d hd => hd.elim (hamin d) fun hd => hle.trans (hbmin d hd)⟩
      · next hlt => exact ⟨.inr hb, fun d hd => hd.elim (fun hd => (Nat.le_of_not_le hlt).trans (hamin d hd)) (hbmin d)⟩

/-- A fault applies to `MORPH.SETF` when it applies to `OSC.SETF` of either channel (R201). -/
theorem applies_morphSetf (s : State) :
    Applies .morphSetf s = fun d => Applies (.oscSetf .c0) s d ∨ Applies (.oscSetf .c1) s d := by
  funext d
  cases d <;> simp [Applies]

theorem lowestOf_oscSetf (s : State) (c : Chan) : LowestOf (Applies (.oscSetf c) s) (operandFault (.oscSetf c) s) := by
  refine lowestOf_firstFault (by simp [FaultCode.code]) fun d => ?_
  cases d <;> simp [Applies, Applies.SelectsSlot, State.slot, badFreq_eq_true, badLen, badKern, badSr_eq_true]

/-- The checks of every command test the causes of R221 that apply to it. -/
theorem lowestOf_operandFault (i : Instr) (s : State) : LowestOf (Applies i s) (operandFault i s) := by
  cases i with
  | nop => exact fun d => by cases d <;> exact id
  | fftFwd bs bd | fftFwdr bs bd | fftInv bs bd | fftInvr bs slot | mask bd | build bs bd slot =>
    refine lowestOf_firstFault (by simp [FaultCode.code]) fun d => ?_
    cases d <;> simp [Applies, badBuffer, badSlot, badSr_eq_true, badFarg_eq_true]
  | oscSetf c => exact lowestOf_oscSetf s c
  | oscAdv c | oscRetrig c | morphAdv =>
    refine lowestOf_firstFault (by simp) fun d => ?_
    cases d <;> simp [Applies]
  | morphSetf =>
    rw [applies_morphSetf]
    exact (lowestOf_oscSetf s .c0).lowerFault (lowestOf_oscSetf s .c1)

/-- Settles O14: the checks answer the lowest code that applies, and the codes tell the faults apart. -/
theorem operandFaultIsTheLowestThatApplies : Obligations.OperandFaultIsTheLowestThatApplies :=
  fun i s _ => (lowestOf_operandFault i s).eq_some_iff

end Sys2Proof.Machine

/-! ## A command in flight and the fault registers (R228) -/

namespace Sys2Proof.Machine

/-- No effect depends on the fault registers: a fault recorded before a command's effect is there after it, and the
effect is the same. -/
theorem effectOf_withFault (i : Instr) (s : State) (o : Option FaultCode) (info : Word) :
    effectOf i { s with fault := o, finfo := info } = { effectOf i s with fault := o, finfo := info } := by
  cases i with
  | mask bd => unfold effectOf maskBuffer; dsimp only; split <;> rfl
  | oscSetf c | oscAdv c | oscRetrig c => cases c <;> rfl
  | _ => rfl

theorem engineTurn_completes {s : State} {w : Word32} {i : Instr} (hi : s.inflight = some w) (hd : decode w = .ok i)
    (hc : operandFault i s = none) : engineTurn s = .next (effectOf i s).finish :=
  (engineTurn_decoded hi hd).trans (exec_completes hi hc)

/-- Settles O16: neither the checks nor the effect of the command in flight look at the fault registers or write them. -/
theorem commandsInFlightCompleteWhateverFaults : Obligations.CommandsInFlightCompleteWhateverFaults := by
  intro s w h hi
  obtain ⟨i, hd, hc⟩ := h.inflight_checked w hi
  obtain ⟨hfault, hinfo, -⟩ := effectOf_keeps i s
  refine ⟨_, engineTurn_completes hi hd hc, rfl, rfl, hfault, hinfo, fun c info => ?_⟩
  have hc' : operandFault i { s with fault := some c, finfo := info } = none :=
    (operandFault_congr rfl rfl rfl rfl rfl rfl i).trans hc
  rw [engineTurn_completes (s := { s with fault := some c, finfo := info }) hi hd hc', effectOf_withFault]
  rfl

end Sys2Proof.Machine

/-! ## A recorded fault (R227) -/

namespace Sys2Proof.Machine

/-- No address but `0x020`, aligned or not, is that of `CMD` (R28, R62). -/
theorem eq_cmdAddr_of_locate {b : Build} {a : Word32} (h : locate b a = .cmd) : a = 0x020#32 := by
  unfold locate at h
  dsimp only at h
  split at h
  · next hregion =>
    have hoff : a.toNat % 2 ^ 28 = (registerAt (a.toNat % 2 ^ 28)).address := registerAt_address (by rw [h]; nofun)
    rw [h, Loc.address] at hoff
    refine BitVec.eq_of_toNat_eq ?_
    simp
    omega
  · unfold descriptorAt at h
    dsimp only at h
    repeat' split at h
    all_goals cases h

theorem State.writeLoc_withFault (s : State) (o : Option FaultCode) (l : Loc) (v : Word) :
    State.writeLoc { s with fault := o } l v = { s.writeLoc l v with fault := o } := by
  cases l with
  | chan c r => cases c <;> rfl
  | _ => rfl

/-- `STATUS` is the one location whose read shows the fault code. -/
theorem State.readLoc_withFault (s : State) (o : Option FaultCode) {l : Loc} (h : l ≠ .status) :
    State.readLoc { s with fault := o } l = s.readLoc l := by
  cases l with
  | status => exact absurd rfl h
  | chan c r => cases c <;> rfl
  | _ => rfl

theorem hostRead_exact {a : Word32} {s : State} (h : s.busy = false ∨ (locate s.build a).stableWhileBusy = true) :
    hostRead a s = s.answer a (s.readLoc (locate s.build a)) := by
  rcases hostRead_cases a s with ⟨hread, -⟩ | ⟨-, hb, hunstable⟩
  · exact hread
  · simp [hb, hunstable] at h

theorem hostRead_free {a : Word32} {s : State} (hb : s.busy = true) (hl : (locate s.build a).stableWhileBusy = false) :
    hostRead a s = { s.answer a (Config.busyRead s.draws) with draws := s.draws + 1 } := by
  rcases hostRead_cases a s with ⟨-, hexact⟩ | ⟨hread, -⟩
  · simp [hb, hl] at hexact
  · exact hread

theorem hostRead_withFault {s : State} {a : Word32} (h : locate s.build a ≠ .status) (o : Option FaultCode) :
    hostRead a { s with fault := o } = { hostRead a s with fault := o } := by
  rcases hostRead_cases a s with ⟨hread, hexact⟩ | ⟨hread, hb, hl⟩
  · rw [hread, hostRead_exact (s := { s with fault := o }) hexact, State.readLoc_withFault s o h]
    rfl
  · rw [hread, hostRead_free (s := { s with fault := o }) hb hl]
    rfl

/-- A write to any location but `CMD` of an idle machine does the same whatever fault is recorded. -/
theorem hostWrite_withFault {s : State} {a : Word32} (ha : a ≠ 0x020#32) (hi : s.inflight = none) (v : Word)
    (o : Option FaultCode) :
    ∃ t, hostWrite a v s = .next t ∧ hostWrite a v { s with fault := o } = .next { t with fault := o } := by
  cases hr : s.rst with
  | true => exact ⟨s, hostWrite_inReset hr, hr ▸ hostWrite_inReset (s := { s with fault := o }) hr⟩
  | false =>
    have hl : locate s.build a ≠ .cmd := fun h => ha (eq_cmdAddr_of_locate h)
    refine ⟨_, hostWrite_idle hr hi hl, ?_⟩
    rw [← State.writeLoc_withFault, ← hr]
    exact hostWrite_idle (s := { s with fault := o }) hr hi hl

/-- The fault registers `FAULT`, `FCODE` and `FINFO` (R27, R29) are the same in both states. -/
def State.SameFault (s t : State) : Prop := t.fault = s.fault ∧ t.finfo = s.finfo

/-- After a fault the writes of a host record no other (R227, R229). -/
theorem hostWrite_sameFault {a : Word32} {v : Word} {s t : State} (hf : s.fault ≠ none)
    (h : hostWrite a v s = .next t) : s.SameFault t := by
  have hfaulted := State.faulted_eq_true hf
  obtain ⟨-, -, hfault, hinfo, -⟩ := s.writeLoc_keeps (locate s.build a) v
  cases hr : s.rst with
  | true =>
    obtain rfl := Host.Outcome.next.inj ((hostWrite_inReset hr).symm.trans h)
    exact ⟨rfl, rfl⟩
  | false =>
    rcases hostWrite_cases a v hr with ⟨-, hw⟩ | ⟨-, hw⟩ | ⟨-, -, -, -, hw⟩ | ⟨-, -, -, -, hw⟩
    · obtain rfl := Host.Outcome.next.inj ((onCmdWrite_faulted hfaulted).symm.trans (hw.symm.trans h))
      exact ⟨rfl, rfl⟩
    · obtain rfl := Host.Outcome.next.inj (hw.symm.trans h)
      exact ⟨hfault, hinfo⟩
    · obtain rfl := Host.Outcome.next.inj (hw.symm.trans h)
      rw [State.raise_of_fault hfaulted]
      exact ⟨rfl, rfl⟩
    · obtain rfl := Host.Outcome.next.inj (hw.symm.trans h)
      exact ⟨hfault, hinfo⟩

theorem hostRead_sameFault (a : Word32) (s : State) : s.SameFault (hostRead a s) := by
  rcases hostRead_cases a s with ⟨hread, -⟩ | ⟨hread, -⟩ <;> rw [hread] <;> exact ⟨rfl, rfl⟩

theorem hostAccess_sameFault {x : Access} {s t : State} (hf : s.fault ≠ none) (h : hostAccess x s = .next t) :
    s.SameFault t := by
  rcases hostAccess_cases x s with ⟨-, hx⟩ | ⟨-, -, hx⟩ | ⟨-, v, -, hx⟩ <;> rw [hx] at h
  · cases h
  · exact Host.Outcome.next.inj h ▸ hostRead_sameFault ..
  · exact hostWrite_sameFault hf h

/-- The engine records no fault: the checks of R221 are made at the issue of a command (R228). -/
theorem engineTurn_sameFault {s t : State} (h : engineTurn s = .next t) : s.SameFault t := by
  rcases engineTurn_next_cases h with ⟨-, rfl⟩ | ⟨w, i, -, -, -, rfl⟩
  · exact ⟨rfl, rfl⟩
  · obtain ⟨hfault, hinfo, -⟩ := effectOf_keeps i s
    exact ⟨hfault, hinfo⟩

/-- After a fault every move of R270 but an assertion of `RST` keeps the fault registers (R227). -/
theorem step_sameFault {s t : State} (hf : s.fault ≠ none) (hrst : ∀ cells scr rest, s.turns ≠ .rst cells scr :: rest)
    (h : step s = .next t) : s.SameFault t := by
  rcases step_next_cases h with ⟨-, h⟩ | ⟨x, rest, -, h⟩ | ⟨rest, -, -, h⟩ | ⟨rest, -, -, rfl⟩ | ⟨rest, -, h⟩ |
    ⟨cells, scr, rest, ht, -⟩ | ⟨rest, -, rfl⟩
  · exact engineTurn_sameFault h
  · exact hostAccess_sameFault (s := { s with turns := rest }) hf h
  · exact engineTurn_sameFault h
  · exact hostRead_sameFault _ { s with turns := rest }
  · exact engineTurn_sameFault (s := { s with turns := rest }) h
  · exact absurd ht (hrst cells scr rest)
  · exact ⟨rfl, rfl⟩

/-- Settles O15: a faulted machine is the fault-free one with the fault put back, and no move but `RST` clears it. -/
theorem faultsAreFinal : Obligations.FaultsAreFinal := by
  intro s c hf
  have hne : s.fault ≠ none := by rw [hf]; nofun
  have hback : ({ { s with fault := none } with fault := some c } : State) = s := by rw [← hf]
  refine ⟨hostWrite_cmd_faulted hne, fun a v ha hi => ?_, fun a hl => ?_, fun t hrst h => ?_⟩
  · obtain ⟨t, ht, ht'⟩ := hostWrite_withFault (s := { s with fault := none }) ha hi v (some c)
    exact ⟨t, ht, hback ▸ ht'⟩
  · have hread := hostRead_withFault (s := { s with fault := none }) hl (some c)
    exact hback ▸ hread
  · obtain ⟨hfault, hinfo⟩ := step_sameFault hne hrst h
    exact ⟨hfault.trans hf, hinfo⟩

end Sys2Proof.Machine

/-! ## The interrupt line (R230) -/

namespace Sys2Proof.Machine

theorem State.irq_iff (s : State) :
    s.irq = true ↔ (s.ctrl.getLsbD 0 = true ∧ s.done = true) ∨ (s.ctrl.getLsbD 1 = true ∧ s.fault ≠ none) := by
  simp [State.irq, State.ieDone, State.ieFault, State.faulted, Option.isSome_iff_ne_none]

/-- Without a fault only the completion source can raise the line. -/
theorem State.irq_of_no_fault {s : State} (hf : s.fault = none) : s.irq = (s.ctrl.getLsbD 0 && s.done) := by
  simp [State.irq, State.ieDone, State.faulted, hf]

theorem hostWrite_ctrl (v : Word) {s : State} (hr : s.rst = false) :
    hostWrite 0x010#32 v s = .next { s with ctrl := v.setWidth 2 } := by
  simp [hostWrite, hr, State.writeLoc]

theorem hostWrite_status (v : Word) {s : State} (hr : s.rst = false) :
    hostWrite 0x018#32 v s = .next { s with done := s.done && !v.getLsbD 1 } := by
  simp [hostWrite, hr, State.writeLoc]

/-- The write of a command word that leaves an idle, fault-free machine without a fault was the acceptance of a command,
which clears `DONE` (R224). -/
theorem hostWrite_cmd_clears_done {s t : State} {v : Word} (hr : s.rst = false) (hf : s.fault = none)
    (hi : s.inflight = none) (h : hostWrite 0x020#32 v s = .next t) (ht : t.fault = none) : t.done = false := by
  cases hd : decode (v.setWidth 32) with
  | error e =>
    obtain rfl := Host.Outcome.next.inj ((hostWrite_cmd_undecoded rfl hr hf hi ⟨e, hd⟩).symm.trans h)
    cases ht
  | ok i =>
    obtain rfl := Host.Outcome.next.inj ((hostWrite_cmd_decoded rfl hr hf hi hd).symm.trans h)
    cases hc : operandFault i s with
    | none => rw [State.issue_accepts hf]
    | some c =>
      rw [hc, State.issue_faults hf] at ht
      cases ht

/-- Settles O18: each source is a fault-free or a faulted case of `State.irq`, and no step but `RST` clears a fault. -/
theorem interruptLineFollowsCtrlAndStatus : Obligations.InterruptLineFollowsCtrlAndStatus := by
  refine fun s => ⟨s.irq_iff, fun hr hf => ⟨fun t v hv h => ?_, fun t v hv h => ?_, fun t v hi h ht => ?_⟩,
    fun hf => ⟨fun t v hr hv h => ?_, fun cells scr => (State.irq_of_no_fault rfl).trans (Bool.and_false _),
      fun t hrst h hctrl => ?_⟩⟩
  · obtain rfl := Host.Outcome.next.inj ((hostWrite_status v hr).symm.trans h)
    simp [State.irq_of_no_fault, hf, hv]
  · obtain rfl := Host.Outcome.next.inj ((hostWrite_ctrl v hr).symm.trans h)
    rw [BitVec.getLsbD_eq_getElem (by decide)] at hv
    simp [State.irq_of_no_fault, hf, hv]
  · simp [State.irq_of_no_fault ht, hostWrite_cmd_clears_done hr hf hi h ht]
  · obtain rfl := Host.Outcome.next.inj ((hostWrite_ctrl v hr).symm.trans h)
    rw [BitVec.getLsbD_eq_getElem (by decide)] at hv
    simp [State.irq_iff, hv]
  · obtain ⟨hfault, -⟩ := step_sameFault hf hrst h
    exact t.irq_iff.mpr (.inr ⟨hctrl, hfault ▸ hf⟩)

end Sys2Proof.Machine

/-! ## The decoder and the encoder are inverse to each other (R93 to R95) -/

namespace Sys2Proof

/-- Settles O1: the word of a command matches the command's row, which reads the fields back. -/
theorem decodeOfEncodeIsTheCommand : Obligations.DecodeOfEncodeIsTheCommand := decode_encode

/-- Settles O2: every field is used by the command or covered by the mask of its row. -/
theorem encodeOfDecodeIsTheWord : Obligations.EncodeOfDecodeIsTheWord := fun _ _ => encode_of_decode

/-- Settles O4: the legal words are those of commands, the others are searched for in the table. -/
theorem listedWordsDecodeAsListed : Obligations.ListedWordsDecodeAsListed :=
  ⟨decode_encode .nop, decode_encode (.fftFwdr 0#2 1#2), decode_encode (.fftInv 1#2 2#2),
    decode_encode (.fftInvr 1#2 0#8), decode_encode (.build 1#2 2#2 3#8), decode_encode (.oscSetf .c1),
    rfl, rfl, rfl, rfl, rfl, rfl⟩

end Sys2Proof

/-! ## `STATUS` (R27) -/

namespace Sys2Proof.Machine

/-- The fields of `STATUS` (R27): each is read back from its place, past the narrower fields below it. -/
theorem State.statusWord_fields (s : State) :
    s.statusWord.extractLsb' 0 1 = BitVec.ofBool s.busy ∧ s.statusWord.extractLsb' 1 1 = BitVec.ofBool s.done ∧
    s.statusWord.extractLsb' 2 1 = BitVec.ofBool s.faulted ∧ s.statusWord.extractLsb' 3 5 = 0#5 ∧
    s.statusWord.extractLsb' 8 8 = s.fcode ∧ s.statusWord.extractLsb' 16 48 = 0#48 := by
  unfold State.statusWord
  refine ⟨?_, ?_, ?_, ?_, ?_, ?_⟩ <;> repeat rw [BitVec.extractLsb'_append_eq_of_le (by decide)]
  case refine_6 => rfl
  all_goals exact BitVec.extractLsb'_append_eq_right

/-- A bit that is a field of its own. -/
theorem getLsbD_of_extractLsb'_one {w : Word} {k : Nat} {b : Bool} (h : w.extractLsb' k 1 = BitVec.ofBool b) :
    w.getLsbD k = b := by
  simpa using congrArg (BitVec.getLsbD · 0) h

/-- `STATUS` reads exactly, busy or not, and a write clears `DONE` by a 1. -/
theorem hostWrite_status_w1c (v : Word) {s : State} (hr : s.rst = false) :
    hostWrite 0x018#32 v s = .next { s with done := if v.getLsbD 1 then false else s.done } := by
  rw [hostWrite_status v hr]
  cases v.getLsbD 1 <;> simp

/-- Settles O7: the bits are the fields of `statusWord`, and the codes those of R221. -/
theorem statusBitsAndWriteOneToClear : Obligations.StatusBitsAndWriteOneToClear := by
  intro s
  obtain ⟨hbusy, hdone, hfault, hlow, hcode, hhigh⟩ := s.statusWord_fields
  refine ⟨hostRead_stable rfl, getLsbD_of_extractLsb'_one hbusy, getLsbD_of_extractLsb'_one hdone,
    getLsbD_of_extractLsb'_one hfault, hlow, ?_, hhigh, fun v hr => hostWrite_status_w1c v hr⟩
  rw [hcode, State.fcode]
  cases s.fault with
  | none => rfl
  | some c => cases c <;> rfl

end Sys2Proof.Machine

/-! ## Writes of `SETBASE` and `SETCNT` (R36, R37) -/

namespace Sys2Proof.Machine

/-- A host write of a channel register of an idle machine out of reset (R35). -/
theorem hostWrite_channel {s : State} (hr : s.rst = false) (hi : s.inflight = none) {x : Word32} {c : Chan} {k : ChanReg}
    (hx : x.toNat = chanBase c + k.offset) (v : Word) :
    hostWrite x v s = .next (s.setChan c ((s.chan c).writeReg k v)) := by
  have hl : locate s.build x = .chan c k := locate_channel s.build c k hx
  rw [hostWrite_idle hr hi (by rw [hl]; nofun), hl]
  rfl

/-- After a write of `SETBASE` or `SETCNT` no frequency is inside the channel's window. -/
theorem not_inWindow_of_set_write {s t : State} (hr : s.rst = false) (hi : s.inflight = none) {x : Word32} {c : Chan}
    {k : ChanReg} (hx : x.toNat = chanBase c + k.offset) (hk : k = .setbase ∨ k = .setcnt) {v : Word}
    (ht : hostWrite x v s = .next t) (f : F) : inWindow t.build.prec (t.chan c) f = false := by
  obtain rfl := Host.Outcome.next.inj ((hostWrite_channel hr hi hx v).symm.trans ht)
  rw [State.setChan_chan]
  rcases hk with rfl | rfl <;> exact inWindow_empty rfl rfl f

/-- Settles O10: both writes are those of a channel register, and leave the window empty. -/
theorem setWritesEmptyTheWindow : Obligations.SetWritesEmptyTheWindow := by
  refine fun s c v hr hi => ⟨hostWrite_channel hr hi (k := .setbase) (by cases c <;> rfl) v,
    hostWrite_channel hr hi (k := .setcnt) (by cases c <;> rfl) v, fun t ht f => ?_⟩
  rcases ht with ht | ht
  · exact not_inWindow_of_set_write hr hi (by cases c <;> rfl) (.inl rfl) ht f
  · exact not_inWindow_of_set_write hr hi (by cases c <;> rfl) (.inr rfl) ht f

end Sys2Proof.Machine

/-! ## The reset state, and what a sound state's step can answer (R53, R61, R228) -/

namespace Sys2Proof.Machine

theorem Build.standard_legal : Build.standard.Legal := by constructor <;> decide

/-- The reset state of a legal build is sound: what it stores is, and no command is in flight. -/
theorem State.afterReset_sound {b : Build} {m : Mem} {scr : List Cplx} (hb : b.Legal) (hm : m.wf)
    (hscr : scr.length = b.n) : (State.afterReset b m scr).Sound :=
  (State.afterReset_stored hb hm hscr).sound_of_idle rfl (fun _ => rfl) nofun

/-- Settles O21: `State.reset` is the reset state of the standard build. -/
theorem resetStateIsSound : Obligations.ResetStateIsSound :=
  ⟨State.afterReset_sound Build.standard_legal Mem.wf_nil List.length_replicate, fun _ _ _ => State.afterReset_sound⟩

/-- In a sound state the command in flight decodes and passes its checks, so the engine's turn answers a next state. -/
theorem State.Sound.engineTurn_answers {s : State} (h : s.Sound) : ∃ t, Machine.engineTurn s = .next t := by
  cases hi : s.inflight with
  | none => exact ⟨s, engineTurn_idle hi⟩
  | some w =>
    obtain ⟨i, hd, hc⟩ := h.inflight_checked w hi
    exact ⟨_, engineTurn_completes hi hd hc⟩

/-- A step of a sound state answers a next state, or is refused for an access that the host port does not serve. -/
theorem State.Sound.step_answers {s : State} (h : s.Sound) : (∃ t, Machine.step s = .next t) ∨
    (Machine.step s = .refused .busError ∧ ∃ x rest, s.turns = .host x :: rest ∧ x.served = false) := by
  unfold Machine.step
  split
  · exact .inl h.engineTurn_answers
  · next x rest ht =>
    cases hx : x.served with
    | true => exact .inl (hostAccess_answers_of_served hx _)
    | false => exact .inr ⟨hostAccess_of_not_served hx _, x, rest, ht, hx⟩
  · next rest ht =>
    unfold waitTurn
    split
    · exact .inl h.engineTurn_answers
    · exact .inl ⟨_, rfl⟩
  · next rest ht => exact .inl (h.withTurns rest).engineTurn_answers
  · exact .inl ⟨_, rfl⟩
  · exact .inl ⟨_, rfl⟩

/-- Settles O23, by the two answers a step of a sound state has. -/
theorem soundStatesStopOnlyOnBusErrors : Obligations.SoundStatesStopOnlyOnBusErrors := by
  intro s h
  rcases h.step_answers with ⟨t, ht⟩ | ⟨hrefused, x, rest, hturns, hx⟩
  · rw [ht]
    exact ⟨nofun, nofun⟩
  · rw [hrefused]
    exact ⟨nofun, fun r hr => ⟨(Host.Outcome.refused.inj hr).symm, x, rest, hturns, x.served_eq_false_iff.mp hx⟩⟩

end Sys2Proof.Machine

/-! ## The steps that run a command (R270) -/

namespace Sys2Proof.Machine

/-- Settles O24: the issue goes through the host port, the completion through the engine's turn. -/
theorem stepRunsTheDecodedCommand : Obligations.StepRunsTheDecodedCommand := by
  refine fun s i => ⟨fun v rest ht hr hf hi hd => ?_, fun w hi hd => ⟨fun ht => ?_, fun rest ht => ?_, fun rest ht => ?_⟩⟩
  · have hstep : step s = hostWrite 0x020#32 v { s with turns := rest } := by simp [step, ht, hostAccess, Access.served]
    rw [hstep, hostWrite_cmd (s := { s with turns := rest }) hr]
    refine onCmdWrite_decoded (State.faulted_eq_false hf) (State.busy_eq_false hi) ?_
    rwa [BitVec.setWidth_eq_extractLsb' (by decide)]
  · rw [← engineTurn_decoded hi hd, step, ht]
  · have hb : s.busy = true := State.busy_eq_true (by rw [hi]; nofun)
    rw [← engineTurn_decoded hi hd, step, ht]
    exact if_pos hb
  · rw [← engineTurn_decoded (s := { s with turns := rest }) hi hd, step, ht]

end Sys2Proof.Machine

/-! ## MORPH.SETF (R201) -/

namespace Sys2Proof.Machine

/-- A command to which no fault of R221 applies passes its checks. -/
theorem operandFault_eq_none_of_applies {i : Instr} {s : State} (h : ∀ f, ¬Applies i s f) : operandFault i s = none := by
  have hlowest := lowestOf_operandFault i s
  cases hc : operandFault i s with
  | none => rfl
  | some c =>
    rw [hc] at hlowest
    exact absurd hlowest.1 (h c)

/-- Settles O36: `OSC.SETF C0` leaves all that the checks and the effect of `OSC.SETF C1` look at. -/
theorem morphSetfIsSetfOfC0ThenC1 : Obligations.MorphSetfIsSetfOfC0ThenC1 := by
  intro s w hi happlies
  have hc : operandFault .morphSetf s = none := operandFault_eq_none_of_applies happlies
  obtain ⟨hc0, hc1⟩ := lowerFault_eq_none.mp hc
  let t := (effectOf (.oscSetf .c0) s).finish
  have hfirst : exec (.oscSetf .c0) s = .next t := exec_completes hi hc0
  have hsecond := exec_completes (i := .oscSetf .c1) (s := { t with inflight := some w }) rfl hc1
  exact ⟨t, _, hfirst, hsecond, exec_completes hi hc⟩

end Sys2Proof.Machine

/-! ## What commands leave alone (R26, R30 to R32, R35, R49, R75) -/

namespace Sys2Proof.Machine

/-- What only the host writes, the build and the model's inputs are the same in both states. -/
structure State.SameHostOwned (s t : State) : Prop where
  ctrl : t.ctrl = s.ctrl
  farg : t.farg = s.farg
  sr : t.sr = s.sr
  morphP : t.morphP = s.morphP
  sets : ∀ c, (t.chan c).setbase = (s.chan c).setbase ∧ (t.chan c).setcnt = (s.chan c).setcnt
  kern : ∀ k, (t.slot k).kern = (s.slot k).kern
  slots_length : t.slots.length = s.slots.length
  build : t.build = s.build
  reads : t.reads = s.reads
  draws : t.draws = s.draws
  turns : t.turns = s.turns

/-- Writing a channel's other registers leaves the sets of both channels alone. -/
theorem State.setChan_sets {s : State} {c : Chan} {r : Channel}
    (h : r.setbase = (s.chan c).setbase ∧ r.setcnt = (s.chan c).setcnt) (d : Chan) :
    ((s.setChan c r).chan d).setbase = (s.chan d).setbase ∧ ((s.setChan c r).chan d).setcnt = (s.chan d).setcnt := by
  by_cases hd : d = c
  · subst hd
    rwa [State.setChan_chan]
  · rw [State.setChan_chan_ne s hd]
    exact ⟨rfl, rfl⟩

theorem State.sameHostOwned_setChan (s : State) {c : Chan} {r : Channel}
    (h : r.setbase = (s.chan c).setbase ∧ r.setcnt = (s.chan c).setcnt) : s.SameHostOwned (s.setChan c r) where
  sets := State.setChan_sets h
  kern := fun k => by rw [State.slot, State.setChan_slots]; rfl
  ctrl := State.setChan_ctrl ..
  farg := State.setChan_farg ..
  sr := State.setChan_sr ..
  morphP := State.setChan_morphP ..
  slots_length := congrArg List.length (State.setChan_slots ..)
  build := State.setChan_build ..
  reads := State.setChan_reads ..
  draws := State.setChan_draws ..
  turns := State.setChan_turns ..

theorem State.sameHostOwned_moveTo (s : State) (c : Chan) (p : Nat) : s.SameHostOwned (s.moveTo c p) :=
  State.sameHostOwned_setChan s ⟨rfl, rfl⟩

/-- Writing a descriptor's other fields leaves every `KERN` alone, whether the slot exists or not. -/
theorem State.setSlot_kern {s : State} {k : Nat} {d : SlotDesc} (h : d.kern = (s.slot k).kern) (j : Nat) :
    ((s.setSlot k d).slot j).kern = (s.slot j).kern := by
  by_cases hj : j = k
  · subst hj
    by_cases hlen : j < s.slots.length
    · rw [State.slot_setSlot_same s hlen, h]
    · rw [State.setSlot, List.set_eq_of_length_le (Nat.le_of_not_lt hlen)]
  · rw [State.slot_setSlot_other s hj]

theorem State.sameHostOwned_setSlot (s : State) {k : Nat} {d : SlotDesc} (h : d.kern = (s.slot k).kern) :
    s.SameHostOwned (s.setSlot k d) where
  sets := fun c => by cases c <;> exact ⟨rfl, rfl⟩
  kern := State.setSlot_kern h
  slots_length := List.length_set
  ctrl := rfl
  farg := rfl
  sr := rfl
  morphP := rfl
  build := rfl
  reads := rfl
  draws := rfl
  turns := rfl

namespace State.SameHostOwned

theorem refl (s : State) : s.SameHostOwned s :=
  ⟨rfl, rfl, rfl, rfl, fun _ => ⟨rfl, rfl⟩, fun _ => rfl, rfl, rfl, rfl, rfl, rfl⟩

theorem trans {s t u : State} (h : s.SameHostOwned t) (g : t.SameHostOwned u) : s.SameHostOwned u where
  ctrl := g.ctrl.trans h.ctrl
  farg := g.farg.trans h.farg
  sr := g.sr.trans h.sr
  morphP := g.morphP.trans h.morphP
  sets := fun c => ⟨(g.sets c).1.trans (h.sets c).1, (g.sets c).2.trans (h.sets c).2⟩
  kern := fun k => (g.kern k).trans (h.kern k)
  slots_length := g.slots_length.trans h.slots_length
  build := g.build.trans h.build
  reads := g.reads.trans h.reads
  draws := g.draws.trans h.draws
  turns := g.turns.trans h.turns

/-- The memories, `SCR`, the histories and the lifecycle are not the host's registers. -/
theorem withOthers (s : State) (m : Mem) (scr : List Cplx) (out : List OutEvent) (o : F) (i : Option Word32) (d : Bool)
    (f : Option FaultCode) (w : Word32) (v : Word) :
    s.SameHostOwned { s with mem := m, scr := scr, out := out, morphOut := o, inflight := i, done := d, fault := f,
                             lastcmd := w, finfo := v } where
  sets := fun c => by cases c <;> exact ⟨rfl, rfl⟩
  kern := fun _ => rfl
  ctrl := rfl
  farg := rfl
  sr := rfl
  morphP := rfl
  slots_length := rfl
  build := rfl
  reads := rfl
  draws := rfl
  turns := rfl

theorem issue (s : State) (w : Word32) (o : Option FaultCode) : s.SameHostOwned (s.issue w o) := by
  cases hf : s.fault with
  | some c => rw [State.issue_of_fault (State.faulted_eq_true (by rw [hf]; nofun))]; exact refl s
  | none =>
    cases o with
    | some c => rw [State.issue_faults hf]; exact withOthers s ..
    | none => rw [State.issue_accepts hf]; exact withOthers s ..

theorem inverseReal (x : List Cplx) (slot : BitVec 8) (s : State) : s.SameHostOwned (inverseReal x slot s) :=
  (withOthers s ..).trans (State.sameHostOwned_setSlot _ rfl)

/-- No command's effect writes what only the host writes. -/
theorem effectOf (i : Instr) (s : State) : s.SameHostOwned (effectOf i s) := by
  cases i with
  | nop => exact refl s
  | fftFwd bs bd | fftFwdr bs bd | fftInv bs bd => exact withOthers s ..
  | fftInvr bs slot => exact inverseReal ..
  | mask bd => rw [Machine.effectOf, maskBuffer_writes_mem]; exact withOthers s ..
  | build bs bd slot =>
    exact ((withOthers s ..).trans (inverseReal ..)).trans (State.sameHostOwned_setSlot _ rfl)
  | oscSetf c =>
    obtain ⟨-, -, hbase, hcnt⟩ := setf_keeps s.build s.slots s.sr s.farg (s.chan c)
    exact State.sameHostOwned_setChan s ⟨hbase, hcnt⟩
  | oscAdv c => exact (State.sameHostOwned_moveTo ..).trans (withOthers _ ..)
  | oscRetrig c => exact State.sameHostOwned_moveTo ..
  | morphSetf =>
    obtain ⟨-, -, hbase0, hcnt0⟩ := setf_keeps s.build s.slots s.sr s.farg s.ch0
    obtain ⟨-, -, hbase1, hcnt1⟩ := setf_keeps s.build s.slots s.sr s.farg s.ch1
    exact (State.sameHostOwned_setChan s (c := .c0) ⟨hbase0, hcnt0⟩).trans
      (State.sameHostOwned_setChan _ (c := .c1) ⟨hbase1, hcnt1⟩)
  | morphAdv =>
    exact ((State.sameHostOwned_moveTo s .c0 (advPos s.build s.ch0)).trans
      (State.sameHostOwned_moveTo _ .c1 (advPos s.build s.ch1))).trans (withOthers _ ..)

end State.SameHostOwned

/-- Settles O38: neither the issue nor the effect of a command writes what only the host writes. -/
theorem commandsLeaveTheHostsRegisters : Obligations.CommandsLeaveTheHostsRegisters := by
  intro i s t h
  have hsame : s.SameHostOwned t := by
    rcases exec_next_cases h with ⟨-, rfl⟩ | ⟨w, -, -, rfl⟩
    · exact .issue ..
    · exact (State.SameHostOwned.effectOf i s).trans (.withOthers _ ..)
  exact ⟨hsame.ctrl, hsame.farg, hsame.sr, hsame.morphP, hsame.sets, hsame.kern, hsame.slots_length, hsame.build,
    hsame.reads, hsame.draws, hsame.turns⟩

/-- Settles O40: the effects write channels, the output history and `MORPH_OUT` only. -/
theorem oscillatorCommandsLeaveTablesAlone : Obligations.OscillatorCommandsLeaveTablesAlone := by
  intro i s t hi h
  rcases exec_next_cases h with ⟨-, rfl⟩ | ⟨w, -, -, rfl⟩
  · exact ⟨State.issue_mem .., State.issue_slots ..⟩
  · rcases hi with ⟨c, rfl | rfl | rfl⟩ | rfl | rfl
    · exact ⟨State.setChan_mem .., State.setChan_slots ..⟩
    · exact ⟨State.moveTo_mem .., State.moveTo_slots ..⟩
    · exact ⟨State.moveTo_mem .., State.moveTo_slots ..⟩
    · exact ⟨rfl, rfl⟩
    · exact ⟨rfl, rfl⟩

end Sys2Proof.Machine

/-! ## The rescaled position (R167) -/

namespace Sys2Proof.Machine

/-- The exact floor lies below the new length. -/
theorem rescaled_floor_lt {pos oldLen newLen u : Nat} (hpos : pos < oldLen * u) (hnew : 1 ≤ newLen) :
    pos * newLen / oldLen < newLen * u := by
  refine Nat.div_lt_of_lt_mul ?_
  calc pos * newLen < oldLen * u * newLen := Nat.mul_lt_mul_of_pos_right hpos hnew
    _ = oldLen * (newLen * u) := by ring

/-- Of a position below the old length the rescaled one is the exact floor: the clamp never binds (R167). -/
theorem rescale_eq_floor {b : Build} {pos oldLen newLen : Nat} (hpos : pos < oldLen * 2 ^ b.fb) (hnew : 1 ≤ newLen) :
    rescale b pos oldLen newLen = pos * newLen / oldLen :=
  Nat.min_eq_left (Nat.le_sub_one_of_lt (rescaled_floor_lt hpos hnew))

/-- Settles O43: the floor lies below the new length, so the clamp does not bind. -/
theorem rescaleIsTheExactFloor : Obligations.RescaleIsTheExactFloor := by
  intro b pos oldLen newLen hpos hnew
  refine ⟨rescale_eq_floor hpos hnew, rescale_lt hnew, fun hlen => ?_⟩
  subst hlen
  rw [rescale_eq_floor hpos hnew, Nat.mul_div_cancel _ hnew]

end Sys2Proof.Machine

/-! ## Host accesses while a command is in flight (R272) -/

namespace Sys2Proof.Machine

theorem descriptorAt_cases (b : Build) (o : Nat) :
    descriptorAt b o = .raz ∨ ∃ t k, descriptorAt b o = .slot t k ∧ t < b.tslots := by
  unfold descriptorAt
  dsimp only
  split
  · exact .inl rfl
  · next ht =>
    have hlt := Nat.lt_of_not_le ht
    split
    · exact .inr ⟨_, _, rfl, hlt⟩
    · exact .inr ⟨_, _, rfl, hlt⟩
    · exact .inr ⟨_, _, rfl, hlt⟩
    · exact .inl rfl

/-- Outside region 0 there are F words, fields of descriptors that exist, and gaps only (R62). -/
theorem locate_outside_registers (b : Build) {a : Word32} (h : a.toNat / 2 ^ 28 ≠ 0) :
    locate b a = .raz ∨ locate b a = .fword a.toNat ∨ ∃ t k, locate b a = .slot t k ∧ t < b.tslots := by
  unfold locate
  dsimp only
  rw [if_neg h]
  split
  · split
    · exact .inr (.inl rfl)
    · exact .inl rfl
  · split
    · split
      · exact .inr (.inl rfl)
      · exact .inl rfl
    · split
      · exact (descriptorAt_cases b _).imp_right .inr
      · exact .inl rfl

/-- Every address, aligned or not, that the map gives to a register is that register's own (R24 to R46, R62). -/
theorem toNat_eq_address_of_locate {b : Build} {a : Word32} {l : Loc} (h : locate b a = l) (hraz : l ≠ .raz)
    (hword : ∀ x, l ≠ .fword x) (hslot : ∀ t k, l ≠ .slot t k) : a.toNat = l.address := by
  subst h
  by_cases hregion : a.toNat / 2 ^ 28 = 0
  · have hl : locate b a = registerAt (a.toNat % 2 ^ 28) := if_pos hregion
    rw [hl] at hraz ⊢
    have hoff := registerAt_address hraz
    omega
  · rcases locate_outside_registers b hregion with hl | hl | ⟨t, k, hl, -⟩
    · exact absurd hl hraz
    · exact absurd hl (hword _)
    · exact absurd hl (hslot t k)

/-- Only the four registers of R72 are read exactly while a command is in flight. -/
theorem stable_address {b : Build} {a : Word32} (h : (locate b a).stableWhileBusy = true) :
    a = 0x000#32 ∨ a = 0x008#32 ∨ a = 0x010#32 ∨ a = 0x018#32 := by
  have heq {l : Loc} (hl : locate b a = l) (hraz : l ≠ .raz) (hword : ∀ x, l ≠ .fword x) (hslot : ∀ t k, l ≠ .slot t k) :
      a = BitVec.ofNat 32 l.address := by
    rw [← toNat_eq_address_of_locate hl hraz hword hslot, BitVec.ofNat_toNat, BitVec.setWidth_eq]
  cases hl : locate b a with
  | id => exact .inl (heq hl nofun nofun nofun)
  | cfg => exact .inr (.inl (heq hl nofun nofun nofun))
  | ctrl => exact .inr (.inr (.inl (heq hl nofun nofun nofun)))
  | status => exact .inr (.inr (.inr (heq hl nofun nofun nofun)))
  | _ => rw [hl] at h; cases h

/-- While a command is in flight a write to any address but those of `CMD`, `CTRL` and `STATUS` raises `HOST_BUSY`. -/
theorem hostWrite_busy_other {s : State} (hr : s.rst = false) (hi : s.inflight ≠ none) {a : Word32}
    (hctrl : a ≠ 0x010#32) (hstatus : a ≠ 0x018#32) (hcmd : a ≠ 0x020#32) (v : Word) :
    hostWrite a v s = .next (s.raise .hostBusy (a.setWidth 64)) := by
  have hstable {l : Loc} (hl : locate s.build a = l) (h : l.stableWhileBusy = true) := stable_address (hl ▸ h)
  rcases hostWrite_cases a v hr with ⟨hl, -⟩ | ⟨hl, -⟩ | ⟨-, -, -, -, hw⟩ | ⟨-, -, -, hb, -⟩
  · exact absurd (eq_cmdAddr_of_locate hl) hcmd
  · rcases hl with hl | hl
    · exact absurd (BitVec.eq_of_toNat_eq (toNat_eq_address_of_locate hl nofun nofun nofun)) hctrl
    · exact absurd (BitVec.eq_of_toNat_eq (toNat_eq_address_of_locate hl nofun nofun nofun)) hstatus
  · exact hw
  · rw [State.busy_eq_true hi] at hb
    cases hb

/-- Settles O17, address by address; the last two clauses by which locations are stable while busy. -/
theorem hostAccessesWhileBusy : Obligations.HostAccessesWhileBusy := by
  intro s w hr hi
  have hne : s.inflight ≠ none := by rw [hi]; nofun
  have hb : s.busy = true := State.busy_eq_true hne
  have hlow {n : Nat} (hn : n ≤ 64) (v : Word) : v.setWidth n = v.extractLsb' 0 n := BitVec.setWidth_eq_extractLsb' hn
  refine ⟨fun v => ?_, fun v => hostWrite_status_w1c v hr,
    fun v hf => hostWrite_cmd_busy (hlow (by decide) v) hr hf hne,
    fun a v hctrl hstatus hcmd => ⟨fun hf => ?_, fun hf => ?_⟩, fun a ha => ?_, fun a hid hcfg hctrl hstatus => ?_⟩
  · rw [hostWrite_ctrl v hr, hlow (by decide)]
  · rw [hostWrite_busy_other hr hne hctrl hstatus hcmd, State.raise_of_none hf]
  · rw [hostWrite_busy_other hr hne hctrl hstatus hcmd, State.raise_of_fault (State.faulted_eq_true hf)]
  · rcases ha with rfl | rfl | rfl | rfl <;> exact hostRead_stable rfl
  · refine hostRead_free hb (Bool.eq_false_iff.mpr fun h => ?_)
    rcases stable_address h with ha | ha | ha | ha
    · exact hid ha
    · exact hcfg ha
    · exact hctrl ha
    · exact hstatus ha

end Sys2Proof.Machine

/-! ## `RST` (R260 to R262) -/

namespace Sys2Proof.Machine

/-- The registers are at their reset values in `t`, `RST` is asserted still, and what is not the machine's stays. -/
def State.HeldTo (s t : State) : Prop := t.AtReset ∧ t.build = s.build ∧ t.out = s.out ∧ t.rst = true

theorem State.AtReset.withTurns {s : State} (h : s.AtReset) (rest : List Turn) :
    State.AtReset { s with turns := rest } := by
  unfold State.AtReset at *
  rw [h]
  rfl

section Held
variable {s t : State} (hr : s.rst = true) (ha : s.AtReset)
include hr ha

theorem State.heldTo_self : s.HeldTo s := ⟨ha, rfl, rfl, hr⟩

theorem engineTurn_held (h : engineTurn s = .next t) : s.HeldTo t := by
  obtain rfl := Host.Outcome.next.inj ((engineTurn_idle ha.inflight).symm.trans h)
  exact State.heldTo_self hr ha

theorem hostRead_held (a : Word32) : s.HeldTo (hostRead a s) := by
  have hread := hostRead_exact (a := a) (.inl (State.busy_eq_false ha.inflight))
  exact ⟨ha.hostRead a, by rw [hread]; rfl, hostRead_out a s, by rw [hread]; exact hr⟩

theorem hostAccess_held {x : Access} (h : hostAccess x s = .next t) : s.HeldTo t := by
  rcases hostAccess_cases x s with ⟨-, hx⟩ | ⟨-, -, hx⟩ | ⟨-, v, -, hx⟩ <;> rw [hx] at h
  · cases h
  · exact Host.Outcome.next.inj h ▸ hostRead_held hr ha x.addr
  · obtain rfl := Host.Outcome.next.inj ((hostWrite_inReset hr).symm.trans h)
    exact State.heldTo_self hr ha

end Held

/-- While `RST` is asserted every step keeps the registers at their reset values, and only the release lowers it. -/
theorem step_held {s t : State} (hr : s.rst = true) (ha : s.AtReset) (h : step s = .next t) :
    s.HeldTo t ∧ (∀ rest, s.turns ≠ .release :: rest) ∨
      ∃ rest, s.turns = .release :: rest ∧ t = State.releaseRst { s with turns := rest } := by
  rcases step_next_cases h with ⟨hs, h⟩ | ⟨x, rest, hs, h⟩ | ⟨rest, hs, -, h⟩ | ⟨rest, hs, -, rfl⟩ | ⟨rest, hs, h⟩ |
    ⟨cells, scr, rest, hs, rfl⟩ | ⟨rest, hs, rfl⟩
  · exact .inl ⟨engineTurn_held hr ha h, by rw [hs]; nofun⟩
  · exact .inl ⟨hostAccess_held (s := { s with turns := rest }) hr (ha.withTurns rest) h, by rw [hs]; nofun⟩
  · exact .inl ⟨engineTurn_held hr ha h, by rw [hs]; nofun⟩
  · exact .inl ⟨hostRead_held (s := { s with turns := rest }) hr (ha.withTurns rest) _, by rw [hs]; nofun⟩
  · exact .inl ⟨engineTurn_held (s := { s with turns := rest }) hr (ha.withTurns rest) h, by rw [hs]; nofun⟩
  · exact .inl ⟨⟨State.resetBy_atReset .., rfl, rfl, rfl⟩, by rw [hs]; nofun⟩
  · exact .inr ⟨rest, hs, rfl⟩

theorem State.AtReset.irq {s : State} (h : s.AtReset) : s.irq = false := by
  have hdone : s.done = false := by rw [h]; rfl
  rw [State.irq_of_no_fault (by rw [h]; rfl), hdone, Bool.and_false]

theorem State.AtReset.statusWord {s : State} (h : s.AtReset) : s.statusWord = 0#64 := by
  have hdone : s.done = false := by rw [h]; rfl
  have hfault : s.fault = none := by rw [h]; rfl
  simp [State.statusWord, State.fcode, State.faulted, State.busy, hdone, hfault, h.inflight]

theorem Channel.reset_values : Channel.reset.setbase = 0#8 ∧ Channel.reset.setcnt = 0#9 ∧ Channel.reset.freq = 0#64 ∧
    Channel.reset.selstat = 0#64 ∧ Channel.reset.curlen = 0#18 ∧ Channel.reset.curkern.code = 0#2 ∧
    Channel.reset.pos = 0#64 ∧ Channel.reset.inc = 0#64 ∧ Channel.reset.bottom = 0#64 ∧ Channel.reset.top = 0#64 ∧
    Channel.reset.cur = 0#64 := ⟨rfl, rfl, rfl, rfl, rfl, rfl, rfl, rfl, rfl, rfl, rfl⟩

/-- Settles O19: the assertion is `resetBy`, the steps while it lasts are those of `step_held`, the release is the turn's. -/
theorem rstGivesEveryRegisterItsResetValue : Obligations.RstGivesEveryRegisterItsResetValue := by
  refine ⟨fun s cells scr rest ht => ?_, fun s hr => ⟨fun a v => hostWrite_inReset hr, fun ha => ⟨ha.irq, fun t h => ?_⟩⟩,
    fun s rest ht => by rw [step, ht]; rfl⟩
  · refine ⟨State.resetBy { s with turns := rest } cells scr, by rw [step, ht], rfl, State.resetBy_atReset .., rfl, rfl, rfl,
      (State.resetBy_atReset ..).statusWord, rfl, rfl, rfl, rfl, rfl, rfl, rfl, rfl, rfl, fun c => ?_, rfl,
      (State.resetBy_atReset ..).irq, rfl, rfl, rfl⟩
    cases c <;> exact Channel.reset_values
  · rcases step_held hr ha h with ⟨⟨hat, hbuild, hout, hrst⟩, hturns⟩ | ⟨rest, hturns, rfl⟩
    · refine ⟨hat, hbuild, hout, fun hlow => ?_, fun ⟨rest, hrest⟩ => absurd hrest (hturns rest)⟩
      rw [hrst] at hlow
      cases hlow
    · exact ⟨(ha.withTurns rest).releaseRst, rfl, rfl, fun _ => ⟨rest, hturns⟩, fun _ => rfl⟩

/-- Storing one byte that is not zero above all cells of a memory appends its cell. -/
theorem Mem.store_above {m : Mem} {c : Host.Cell} (hm : ∀ d ∈ m, d.1 < c.1) (hc : c.2 ≠ 0#8) :
    m.store c.1 [c.2] = m ++ [c] := by
  have hlow : m.filter (fun d => decide (d.1 < c.1)) = m := List.filter_eq_self.mpr fun d hd => decide_eq_true (hm d hd)
  have hhigh : m.filter (fun d => decide (c.1 + [c.2].length ≤ d.1)) = [] :=
    List.filter_eq_nil_iff.mpr fun d hd => by
      have := hm d hd
      simp
      omega
  rw [Mem.store, hlow, hhigh, List.append_nil, cellsFrom, if_neg hc, cellsFrom]

/-- Storing the cells of a canonical memory in order, above those stored before, appends them. -/
theorem Mem.foldl_store_eq_append (cells m : Mem) (h : Mem.wf (m ++ cells)) :
    cells.foldl (fun m c => m.store c.1 [c.2]) m = m ++ cells := by
  induction cells generalizing m with
  | nil => exact (List.append_nil m).symm
  | cons c cells ih =>
    have hbelow : ∀ d ∈ m, d.1 < c.1 := fun d hd => (List.pairwise_append.mp h.1).2.2 d hd c List.mem_cons_self
    have hc : c.2 ≠ 0#8 := h.2 c (by simp)
    rw [List.append_cons] at h
    rw [List.foldl_cons, Mem.store_above hbelow hc, ih _ h, List.append_assoc, List.singleton_append]

theorem Mem.ofCells_eq_self {m : Mem} (h : m.wf) : Mem.ofCells m = m := Mem.foldl_store_eq_append m [] h

/-- Settles O20: a canonical memory over existing bytes is what its own cells make. -/
theorem rstCanLeaveAnyMemory : Obligations.RstCanLeaveAnyMemory := by
  intro s m scr hm hexists
  have hcells : m.filter (fun c => byteExists s.build c.1) = m := List.filter_eq_self.mpr hexists
  show Mem.ofCells (m.filter fun c => byteExists s.build c.1) = m
  rw [hcells, Mem.ofCells_eq_self hm]

end Sys2Proof.Machine

/-! ## What a host write leaves at its own location and at every other (R65, R68) -/

namespace Sys2Proof.Machine

/-! ### What a read looks at -/

theorem State.readLoc_withCtrl (s : State) (x : BitVec 2) {l : Loc} (h : l ≠ .ctrl) :
    State.readLoc { s with ctrl := x } l = s.readLoc l := by
  cases l with
  | ctrl => exact absurd rfl h
  | chan c r => cases c <;> rfl
  | _ => rfl

theorem State.readLoc_withDone (s : State) (x : Bool) {l : Loc} (h : l ≠ .status) :
    State.readLoc { s with done := x } l = s.readLoc l := by
  cases l with
  | status => exact absurd rfl h
  | chan c r => cases c <;> rfl
  | _ => rfl

theorem State.readLoc_withFarg (s : State) (x : F) {l : Loc} (h : l ≠ .farg) :
    State.readLoc { s with farg := x } l = s.readLoc l := by
  cases l with
  | farg => exact absurd rfl h
  | chan c r => cases c <;> rfl
  | _ => rfl

theorem State.readLoc_withSr (s : State) (x : F) {l : Loc} (h : l ≠ .sr) :
    State.readLoc { s with sr := x } l = s.readLoc l := by
  cases l with
  | sr => exact absurd rfl h
  | chan c r => cases c <;> rfl
  | _ => rfl

theorem State.readLoc_withMorphP (s : State) (x : F) {l : Loc} (h : l ≠ .morphP) :
    State.readLoc { s with morphP := x } l = s.readLoc l := by
  cases l with
  | morphP => exact absurd rfl h
  | chan c r => cases c <;> rfl
  | _ => rfl

/-- What a memory holds is seen by the reads of F words only. -/
theorem State.readLoc_withMem (s : State) (m : Mem) {l : Loc} (h : ∀ x, l = .fword x → m.wordAt x = s.mem.wordAt x) :
    State.readLoc { s with mem := m } l = s.readLoc l := by
  cases l with
  | fword x => exact State.fAt_congr (s := s) (t := { s with mem := m }) rfl (h x rfl)
  | chan c r => cases c <;> rfl
  | _ => rfl

/-- A write of a channel's registers is seen by the reads of that channel's registers only. -/
theorem State.readLoc_setChan (s : State) (c : Chan) (r : Channel) {l : Loc}
    (h : ∀ k, l = .chan c k → r.readReg s.build.prec k = (s.chan c).readReg s.build.prec k) :
    (s.setChan c r).readLoc l = s.readLoc l := by
  cases l with
  | chan d k =>
    show ((s.setChan c r).chan d).readReg (s.setChan c r).build.prec k = (s.chan d).readReg s.build.prec k
    rw [State.setChan_build]
    by_cases hd : d = c
    · subst hd
      rw [State.setChan_chan, h k rfl]
    · rw [State.setChan_chan_ne s hd]
  | _ => cases c <;> rfl

/-- A descriptor read after a write; beyond `TSLOTS` there is none to write. -/
theorem State.slot_setSlot (s : State) (t : Nat) (d : SlotDesc) (j : Nat) :
    (s.setSlot t d).slot j = if j = t ∧ t < s.slots.length then d else s.slot j := by
  split
  · next h =>
    obtain ⟨rfl, hlen⟩ := h
    exact State.slot_setSlot_same s hlen d
  · next h =>
    by_cases hj : j = t
    · subst hj
      rw [State.setSlot, List.set_eq_of_length_le (Nat.le_of_not_lt fun hlen => h ⟨rfl, hlen⟩)]
    · exact State.slot_setSlot_other s hj d

/-- A write of a descriptor is seen by the reads of its own fields only. -/
theorem State.readLoc_setSlot (s : State) (t : Nat) (d : SlotDesc) {l : Loc}
    (h : ∀ k, l = .slot t k → d.readField s.build.prec k = (s.slot t).readField s.build.prec k) :
    (s.setSlot t d).readLoc l = s.readLoc l := by
  cases l with
  | slot j k =>
    show ((s.setSlot t d).slot j).readField s.build.prec k = (s.slot j).readField s.build.prec k
    rw [State.slot_setSlot]
    split
    · next hj =>
      obtain ⟨rfl, -⟩ := hj
      exact h k rfl
    · rfl
  | chan c r => cases c <;> rfl
  | _ => rfl

/-! ### Every other location -/

/-- A write of a channel register changes no other one, but for the bounds of the window that it clears (R36, R37). -/
theorem Channel.readReg_writeReg_other (r : Channel) (p : Prec) {k j : ChanReg} (hne : j ≠ k)
    (hwindow : k = .setbase ∨ k = .setcnt → j ≠ .bottom ∧ j ≠ .top) (v : Word) :
    (r.writeReg k v).readReg p j = r.readReg p j := by
  cases k with
  | setbase =>
    obtain ⟨hbottom, htop⟩ := hwindow (.inl rfl)
    cases j with
    | setbase => exact absurd rfl hne
    | bottom => exact absurd rfl hbottom
    | top => exact absurd rfl htop
    | _ => rfl
  | setcnt =>
    obtain ⟨hbottom, htop⟩ := hwindow (.inr rfl)
    cases j with
    | setcnt => exact absurd rfl hne
    | bottom => exact absurd rfl hbottom
    | top => exact absurd rfl htop
    | _ => rfl
  | _ => rfl

theorem SlotDesc.readField_writeField_other (d : SlotDesc) (p : Prec) {k j : SlotField} (hne : j ≠ k) (v : Word) :
    (d.writeField p k v).readField p j = d.readField p j := by
  cases k with
  | maxf => cases j with
    | maxf => exact absurd rfl hne
    | _ => rfl
  | len => cases j with
    | len => exact absurd rfl hne
    | _ => rfl
  | kern => cases j with
    | kern => exact absurd rfl hne
    | _ => rfl

/-- A write at one location leaves what another reads, if F words do not overlap and no window is cleared (R68). -/
theorem State.readLoc_writeLoc_other (s : State) {l m : Loc} (v : Word) (hne : l ≠ .raz → m ≠ l)
    (hwords : ∀ a x, l = .fword a → m = .fword x → x + 8 ≤ a ∨ a + 8 ≤ x)
    (hwindow : ∀ c, l = .chan c .setbase ∨ l = .chan c .setcnt → m ≠ .chan c .bottom ∧ m ≠ .chan c .top) :
    (s.writeLoc l v).readLoc m = s.readLoc m := by
  cases l with
  | ctrl => exact s.readLoc_withCtrl _ (hne nofun)
  | status => exact s.readLoc_withDone _ (hne nofun)
  | farg => exact s.readLoc_withFarg _ (hne nofun)
  | sr => exact s.readLoc_withSr _ (hne nofun)
  | morphP => exact s.readLoc_withMorphP _ (hne nofun)
  | fword a => exact s.readLoc_withMem _ fun x hx => Mem.wordAt_storeWords_outside _ _ _ (hwords a x rfl hx)
  | chan c k =>
    refine s.readLoc_setChan c _ fun j hj => Channel.readReg_writeReg_other _ _ (fun hjk => ?_) (fun hset => ?_) v
    · exact hne nofun (hjk ▸ hj)
    · have hother := hwindow c (hset.imp (congrArg _) (congrArg _))
      rw [hj] at hother
      exact hother.imp (mt (congrArg _)) (mt (congrArg _))
  | slot t k =>
    refine s.readLoc_setSlot t _ fun j hj => SlotDesc.readField_writeField_other _ _ (fun hjk => ?_) v
    exact hne nofun (hjk ▸ hj)
  | id | cfg | cmd | finfo | morphOut | raz => rfl

/-- F words at two different aligned addresses do not overlap. -/
theorem fwords_apart {b : Build} {a x : Word32} (ha : a.toNat % 8 = 0) (hx : x.toNat % 8 = 0) (hne : x ≠ a) {i j : Nat}
    (hi : locate b a = .fword i) (hj : locate b x = .fword j) : j + 8 ≤ i ∨ i + 8 ≤ j := by
  have hia : a.toNat = i := by rw [locate_address (b := b) ha (by rw [hi]; nofun), hi]; rfl
  have hjx : x.toNat = j := by rw [locate_address (b := b) hx (by rw [hj]; nofun), hj]; rfl
  have htoNat : x.toNat ≠ a.toNat := fun h => hne (BitVec.eq_of_toNat_eq h)
  omega

/-- Settles O9: the map is one-to-one, so the other address is of another location. -/
theorem writeChangesOnlyItsWord : Obligations.WriteChangesOnlyItsWord := by
  intro s t a x v hi ha hx hcmd hne hwindow h
  cases hr : s.rst with
  | true =>
    obtain rfl := Host.Outcome.next.inj ((hostWrite_inReset hr).symm.trans h)
    exact ⟨rfl, rfl⟩
  | false =>
    have hl : locate s.build a ≠ .cmd := fun hl => hcmd (eq_cmdAddr_of_locate hl)
    obtain rfl := Host.Outcome.next.inj ((hostWrite_idle hr hi hl).symm.trans h)
    obtain ⟨hbuild, -⟩ := s.writeLoc_keeps (locate s.build a) v
    exact ⟨hbuild, s.readLoc_writeLoc_other v (fun hraz heq => hne (locate_injective ha hx hraz heq))
      (fun _ _ => fwords_apart ha hx hne) hwindow⟩

/-! ### The location itself -/

/-- What a location keeps of a value written to it, and reads back (R23, R26, R30 to R37, R49). -/
def State.kept (s : State) (v : Word) : Loc → Word
  | .farg | .sr | .morphP | .fword _ | .slot _ .maxf => layoutF s.build.prec v
  | .ctrl => (v.setWidth 2).setWidth 64
  | .chan _ .setbase => (v.setWidth 8).setWidth 64
  | .chan _ .setcnt => (v.setWidth 9).setWidth 64
  | .slot _ .len => (v.setWidth 18).setWidth 64
  | .slot _ .kern => (v.setWidth 2).setWidth 64
  | l => s.readLoc l

/-- The F word stored at an address reads back as R34 lays it out. -/
theorem State.fAt_storeWord (s : State) (a : Nat) (v : Word) :
    State.fAt { s with mem := s.mem.storeWords a [layoutF s.build.prec v] } a = layoutF s.build.prec v := by
  have hword := Mem.wordAt_storeWords_inside s.mem a [layoutF s.build.prec v] (k := 0) (by simp)
  rw [State.fAt]
  exact (congrArg (layoutF s.build.prec) hword).trans (layoutF_layoutF ..)

/-- A location other than `STATUS` reads back what it keeps; a descriptor field does if the slot exists. -/
theorem State.readLoc_writeLoc_same (s : State) (l : Loc) (v : Word) (hstatus : l ≠ .status)
    (hslot : ∀ t k, l = .slot t k → t < s.slots.length) : (s.writeLoc l v).readLoc l = s.kept v l := by
  cases l with
  | status => exact absurd rfl hstatus
  | farg | sr | morphP => exact layoutF_layoutF ..
  | fword a => exact s.fAt_storeWord a v
  | chan c k =>
    show ((s.setChan c _).chan c).readReg (s.setChan c _).build.prec k = _
    rw [State.setChan_chan, State.setChan_build]
    cases k <;> rfl
  | slot t k =>
    show ((s.setSlot t _).slot t).readField s.build.prec k = _
    rw [State.slot_setSlot_same s (hslot t k rfl)]
    cases k with
    | maxf => exact layoutF_layoutF ..
    | len | kern => rfl
  | ctrl | id | cfg | cmd | finfo | morphOut | raz => rfl

/-- The slot of a descriptor field exists (R65). -/
theorem locate_slot_lt {b : Build} {a : Word32} {t : Nat} {k : SlotField} (h : locate b a = .slot t k) : t < b.tslots := by
  by_cases hregion : a.toNat / 2 ^ 28 = 0
  · -- a descriptor field is above region 0
    have hl : registerAt (a.toNat % 2 ^ 28) = .slot t k := (if_pos hregion).symm.trans h
    have hoff := registerAt_address (o := a.toNat % 2 ^ 28) (by rw [hl]; nofun)
    rw [hl] at hoff
    cases k <;> simp only [Loc.address] at hoff <;> omega
  · rcases locate_outside_registers b hregion with hl | hl | ⟨u, j, hl, hlt⟩ <;> rw [h] at hl <;> cases hl
    exact hlt

/-! ### The writes at the addresses of the map -/

/-- A write of an idle machine out of reset at an address of a location other than `CMD`. -/
theorem State.writesAt_of_locate {s : State} (hr : s.rst = false) (hi : s.inflight = none) {a : Nat} {l : Loc}
    (hl : ∀ x : Word32, x.toNat = a → locate s.build x = l) (hcmd : l ≠ .cmd) (v : Word) :
    s.WritesAt a v (s.writeLoc l v) := by
  intro x hx
  rw [hostWrite_idle hr hi (by rwa [hl x hx]), hl x hx]

/-- A register of region 0 stands at its offset (R24 to R33). -/
theorem locate_global (b : Build) {o : Nat} {l : Loc} (hl : globalRegAt o = some l) (ho : o < 0x100) {x : Word32}
    (hx : x.toNat = o) : locate b x = l := by
  unfold locate registerAt
  dsimp only
  rw [if_pos (by omega), if_pos (by omega), show x.toNat % 2 ^ 28 = o by omega, hl, Option.getD_some]

theorem State.setChan_self (s : State) (c : Chan) : s.setChan c (s.chan c) = s := by cases c <;> rfl

/-- The registers of a channel that the host can only read are words 2 to 10 of its block (R38 to R46). -/
theorem chanReg_of_readOnly {k : Nat} (h2 : 2 ≤ k) (h10 : k ≤ 10) :
    ∃ r : ChanReg, r.offset = 8 * k ∧ r ≠ .setbase ∧ r ≠ .setcnt := by
  match k with
  | 2 => exact ⟨.freq, rfl, nofun, nofun⟩
  | 3 => exact ⟨.selstat, rfl, nofun, nofun⟩
  | 4 => exact ⟨.curlen, rfl, nofun, nofun⟩
  | 5 => exact ⟨.curkern, rfl, nofun, nofun⟩
  | 6 => exact ⟨.pos, rfl, nofun, nofun⟩
  | 7 => exact ⟨.inc, rfl, nofun, nofun⟩
  | 8 => exact ⟨.bottom, rfl, nofun, nofun⟩
  | 9 => exact ⟨.top, rfl, nofun, nofun⟩
  | 10 => exact ⟨.cur, rfl, nofun, nofun⟩

theorem wordBytes_getD (v : Word) : ∀ j < 8, (wordBytes v).getD j 0#8 = v.extractLsb' (8 * j) 8 := by
  intro j hj
  match j with
  | 0 | 1 | 2 | 3 | 4 | 5 | 6 | 7 => rfl

section Writes
variable {s : State} {v : Word} (hr : s.rst = false) (hi : s.inflight = none)
include hr hi

/-- A write of an F word stores its eight bytes as R34 lays the value out and R67 orders them, and no other byte. -/
theorem State.stores_word {a : Nat} (hl : ∀ x : Word32, x.toNat = a → locate s.build x = .fword x.toNat) :
    ∃ t, s.WritesAt a v t ∧ t = { s with mem := t.mem } ∧ t.fAt a = layoutF s.build.prec v ∧
      (∀ k, k < 8 → t.mem.byteAt (a + k) = (layoutF s.build.prec v).extractLsb' (8 * k) 8) ∧
      ∀ x, ¬(a ≤ x ∧ x < a + 8) → t.mem.byteAt x = s.mem.byteAt x := by
  have hla (x : Word32) (hx : x.toNat = a) : locate s.build x = .fword a := hx ▸ hl x hx
  refine ⟨s.writeLoc (.fword a) v, State.writesAt_of_locate hr hi hla nofun v, rfl,
    s.fAt_storeWord a v, fun k hk => ?_, fun x hx => ?_⟩
  · have hbyte := Mem.byteAt_storeWords_inside s.mem a [layoutF s.build.prec v] (k := 0) (by simp) hk
    exact hbyte.trans (wordBytes_getD _ k hk)
  · exact Mem.byteAt_storeWords_outside s.mem a _ (by simp; omega)

theorem State.ignored_of_readOnly {a : Nat} (ha : ReadOnly a) : s.WritesAt a v s := by
  rcases ha with rfl | rfl | rfl | rfl | ⟨c, k, hk2, hk10, rfl⟩
  · exact State.writesAt_of_locate hr hi (fun x hx => locate_global s.build (l := .id) rfl (by decide) hx) nofun v
  · exact State.writesAt_of_locate hr hi (fun x hx => locate_global s.build (l := .cfg) rfl (by decide) hx) nofun v
  · exact State.writesAt_of_locate hr hi (fun x hx => locate_global s.build (l := .finfo) rfl (by decide) hx) nofun v
  · exact State.writesAt_of_locate hr hi (fun x hx => locate_global s.build (l := .morphOut) rfl (by decide) hx) nofun v
  · obtain ⟨r, hoff, hbase, hcnt⟩ := chanReg_of_readOnly hk2 hk10
    have hw := State.writesAt_of_locate hr hi (fun x hx => locate_channel s.build c r (hoff ▸ hx)) nofun v
    have hself : (s.chan c).writeReg r v = s.chan c := by
      cases r with
      | setbase => exact absurd rfl hbase
      | setcnt => exact absurd rfl hcnt
      | _ => rfl
    rwa [State.writeLoc, hself, State.setChan_self] at hw

end Writes

/-- Settles O8: the location reads back what it keeps, and the map puts the locations at the addresses named. -/
theorem writeReadsBackWhatTheLocationKeeps : Obligations.WriteReadsBackWhatTheLocationKeeps := by
  intro s v hr hi hslots
  refine ⟨fun a ha hcmd hstatus => ?_, fun hb => ?_⟩
  · have hl : locate s.build a ≠ .cmd := mt (locate_cmd_iff _ _ ha).mp hcmd
    refine ⟨_, hostWrite_idle hr hi hl, ?_⟩
    rw [s.readLoc_writeLoc_same _ v (mt (locate_status_iff _ _ ha).mp hstatus) fun t k h => hslots ▸ locate_slot_lt h]
    rfl
  · intro w storesWord
    have hglobal {o : Nat} {l : Loc} (h : globalRegAt o = some l) (ho : o < 0x100) (hcmd : l ≠ .cmd) :=
      State.writesAt_of_locate hr hi (fun x hx => locate_global s.build h ho hx) hcmd v
    have hbuffer {i : Nat} (hi' : i < s.build.n) {a : Nat} (f h : Nat) (hf : f < 3) (hh : h < 2)
        (ha : a = (1 + f) * 2 ^ 28 + 16 * i + 8 * h) : storesWord a :=
      State.stores_word hr hi fun x hx => locate_buffer hb hf hi' hh (hx.trans ha)
    have hlow {n : Nat} (hn : n ≤ 64) : v.setWidth n = v.extractLsb' 0 n := BitVec.setWidth_eq_extractLsb' hn
    have hdesc (k : Nat) (hk : k < s.build.tslots) (x : Word32) := locate_descriptor hb (x := x) hk
    refine ⟨hlow (n := 2) (by decide) ▸ hglobal (o := 0x010) rfl (by decide) nofun,
      hglobal (o := 0x030) rfl (by decide) nofun, hglobal (o := 0x038) rfl (by decide) nofun,
      hglobal (o := 0x040) rfl (by decide) nofun,
      fun i hi' => ⟨hbuffer hi' 0 0 (by decide) (by decide) (by omega), hbuffer hi' 0 1 (by decide) (by decide) (by omega),
        hbuffer hi' 1 0 (by decide) (by decide) (by omega), hbuffer hi' 1 1 (by decide) (by decide) (by omega),
        hbuffer hi' 2 0 (by decide) (by decide) (by omega), hbuffer hi' 2 1 (by decide) (by decide) (by omega)⟩,
      fun k j hk hj => State.stores_word hr hi fun x hx => locate_table hb hk hj hx,
      fun k hk => ⟨State.writesAt_of_locate hr hi (fun x hx => (hdesc k hk x).1 hx) nofun v, ?_, ?_⟩,
      fun a ha => ha.elim (State.ignored_of_readOnly hr hi) fun ha =>
        State.writesAt_of_locate hr hi (fun x hx => locate_absent hb (hx ▸ ha)) nofun v⟩
    · exact hlow (n := 18) (by decide) ▸ State.writesAt_of_locate hr hi (fun x hx => (hdesc k hk x).2.1 hx) nofun v
    · exact hlow (n := 2) (by decide) ▸ State.writesAt_of_locate hr hi (fun x hx => (hdesc k hk x).2.2 hx) nofun v

end Sys2Proof.Machine

/-! ## Host reads (R65, R68) -/

namespace Sys2Proof.Machine

/-- What a host read of an idle machine answers at the addresses of a location. -/
theorem State.readsAt_of_locate {s : State} (hi : s.inflight = none) {a : Nat} {l : Loc}
    (hl : ∀ x : Word32, x.toNat = a → locate s.build x = l) {v : Word} (hv : s.readLoc l = v) : s.ReadsAt a v := by
  intro x hx
  rw [hostRead_exact (.inl (State.busy_eq_false hi)), hl x hx, hv]

/-- A read appends its answer to the model's history, and may move the model's counter of free values. -/
theorem hostRead_appends (a : Word32) (s : State) :
    ∃ v n, hostRead a s = { s with reads := s.reads ++ [⟨a, v⟩], draws := n } ∧
      (s.inflight = none → v = s.readLoc (locate s.build a) ∧ n = s.draws) := by
  rcases hostRead_cases a s with ⟨hread, -⟩ | ⟨hread, hb, -⟩
  · exact ⟨_, s.draws, hread, fun _ => ⟨rfl, rfl⟩⟩
  · refine ⟨_, _, hread, fun hi => ?_⟩
    rw [State.busy_eq_false hi] at hb
    cases hb

section Reads
variable {s : State} (hi : s.inflight = none)
include hi

/-- What an idle machine answers at the registers of a channel (R36 to R46). -/
theorem State.readsAt_channel (c : Chan) (k : ChanReg) {v : Word} (hv : (s.chan c).readReg s.build.prec k = v) :
    s.ReadsAt (chanBase c + k.offset) v :=
  State.readsAt_of_locate hi (fun _ hx => locate_channel s.build c k hx) hv

/-- What an idle machine answers at an F word (R63, R64). -/
theorem State.readsAt_word {a : Nat} (hl : ∀ x : Word32, x.toNat = a → locate s.build x = .fword x.toNat) :
    s.ReadsAt a (s.fAt a) := by
  refine State.readsAt_of_locate hi (l := .fword a) (fun x hx => ?_) rfl
  rw [hl x hx, hx]

end Reads

theorem SlotDesc.readField_len (d : SlotDesc) (p : Prec) : d.readField p .len = 0#46 ++ d.len :=
  BitVec.setWidth_eq_append (by decide)

theorem SlotDesc.readField_kern (d : SlotDesc) (p : Prec) : d.readField p .kern = 0#62 ++ d.kern :=
  BitVec.setWidth_eq_append (by decide)

/-- Settles O12: a read appends its answer, which is the word of the location that the map puts at the address. -/
theorem readsHaveNoSideEffect : Obligations.ReadsHaveNoSideEffect := by
  refine ⟨fun s a => hostRead_appends a s, fun s hi hb => ?_⟩
  intro p
  have hglobal {o : Nat} {l : Loc} {v : Word} (h : globalRegAt o = some l) (ho : o < 0x100) (hv : s.readLoc l = v) :
      s.ReadsAt o v := State.readsAt_of_locate hi (fun x hx => locate_global s.build h ho hx) hv
  have hbuf {i a : Nat} (f h : Nat) (hin : i < s.build.n) (hf : f < 3) (hh : h < 2)
      (ha : a = (1 + f) * 2 ^ 28 + 16 * i + 8 * h) : s.ReadsAt a (s.fAt a) :=
    State.readsAt_word hi fun x hx => locate_buffer hb hf hin hh (hx.trans ha)
  have hdesc {k : Nat} (hk : k < s.build.tslots) (x : Word32) := locate_descriptor hb (x := x) hk
  refine ⟨hglobal (l := .ctrl) rfl (by decide) (BitVec.setWidth_eq_append (by decide)),
    hglobal (l := .cmd) rfl (by decide) (BitVec.setWidth_eq_append (by decide)),
    hglobal (l := .finfo) rfl (by decide) rfl, hglobal (l := .farg) rfl (by decide) rfl,
    hglobal (l := .sr) rfl (by decide) rfl, hglobal (l := .morphP) rfl (by decide) rfl,
    hglobal (l := .morphOut) rfl (by decide) rfl, fun c => ?_, fun i hin => ?_, fun k j hk hj => State.readsAt_word hi fun x hx => locate_table hb hk hj hx,
    fun k hk => ?_,
    fun a ha => State.readsAt_of_locate hi (fun x hx => locate_absent hb (hx ▸ ha)) rfl⟩
  · have hchan := State.readsAt_channel hi c
    refine ⟨hchan .setbase (BitVec.setWidth_eq_append (by decide)), hchan .setcnt (BitVec.setWidth_eq_append (by decide)),
      hchan .freq rfl, hchan .selstat rfl, hchan .curlen (BitVec.setWidth_eq_append (by decide)), hchan .curkern ?_,
      hchan .pos rfl, hchan .inc rfl, hchan .bottom rfl, hchan .top rfl, hchan .cur rfl⟩
    show (s.chan c).curkern.code.setWidth 64 = _
    cases (s.chan c).curkern <;> rfl
  · exact ⟨hbuf 0 0 hin (by decide) (by decide) (by omega), hbuf 0 1 hin (by decide) (by decide) (by omega),
      hbuf 1 0 hin (by decide) (by decide) (by omega), hbuf 1 1 hin (by decide) (by decide) (by omega),
      hbuf 2 0 hin (by decide) (by decide) (by omega), hbuf 2 1 hin (by decide) (by decide) (by omega)⟩
  · exact ⟨State.readsAt_of_locate hi (fun x hx => (hdesc hk x).1 hx) rfl,
      State.readsAt_of_locate hi (fun x hx => (hdesc hk x).2.1 hx) (SlotDesc.readField_len _ p),
      State.readsAt_of_locate hi (fun x hx => (hdesc hk x).2.2 hx) (SlotDesc.readField_kern _ p)⟩

end Sys2Proof.Machine

/-! ## Negation and the order of the values (R14, R110) -/

namespace Sys2Proof.Machine

@[simp] theorem fsign_fneg (p : Prec) (a : F) : fsign p (fneg p a) = !fsign p a := fsign_packBits (fmag_lt p a)

@[simp] theorem fmag_fneg (p : Prec) (a : F) : fmag p (fneg p a) = fmag p a := fmag_packBits (fmag_lt p a)

@[simp] theorem isFinite_fneg (p : Prec) (a : F) : isFinite p (fneg p a) = isFinite p a := by simp [isFinite]

@[simp] theorem isNaN_fneg (p : Prec) (a : F) : isNaN p (fneg p a) = isNaN p a := by simp [isNaN]

theorem signFactor_not (neg : Bool) : signFactor (!neg) = -signFactor neg := by cases neg <;> rfl

theorem signFactor_xor (m n : Bool) : signFactor (m ^^ n) = signFactor m * signFactor n := by cases m <;> cases n <;> rfl

theorem realOf_of_unpack {p : Prec} {v : F} {neg : Bool} {m : Nat} {e : Int} (h : unpack p v = .fin neg m e) :
    realOf p v = signFactor neg * (m * 2 ^ e) := by
  unfold realOf signFactor
  rw [h]
  cases neg <;> simp

theorem realOf_of_finite {p : Prec} {v : F} (h : isFinite p v = true) :
    realOf p v = signFactor (fsign p v) * (significand p v * 2 ^ (fmtExpMin p + binade p v)) :=
  realOf_of_unpack (unpack_finite h)

theorem realOf_fneg {p : Prec} {a : F} (h : isFinite p a = true) : realOf p (fneg p a) = -realOf p a := by
  rw [realOf_of_finite h, realOf_of_finite ((isFinite_fneg p a).trans h), fsign_fneg, signFactor_not]
  simp only [significand, binade, fmag_fneg]
  push_cast
  ring

theorem realOf_nonneg {p : Prec} {v : F} (h : isFinite p v = true) (hs : fsign p v = false) : 0 ≤ realOf p v := by
  rw [realOf_of_finite h, hs]
  simp only [signFactor, Bool.false_eq_true, if_false, Int.cast_one, one_mul]
  positivity

theorem realOf_nonpos {p : Prec} {v : F} (h : isFinite p v = true) (hs : fsign p v = true) : realOf p v ≤ 0 := by
  have hneg := realOf_nonneg ((isFinite_fneg p v).trans h) (by rw [fsign_fneg, hs]; rfl)
  rw [realOf_fneg h] at hneg
  linarith

/-- The two zeros are the only finite values that stand for 0. -/
theorem realOf_eq_zero_iff {p : Prec} {v : F} (h : isFinite p v = true) : realOf p v = 0 ↔ fmag p v = 0 := by
  rw [realOf_of_finite h]
  constructor
  · intro hzero
    by_contra hmag
    have hsign : (signFactor (fsign p v) : ℚ) ≠ 0 := by cases fsign p v <;> norm_num [signFactor]
    have hsig : (significand p v : ℚ) ≠ 0 := mod_cast significand_ne_zero hmag
    exact mul_ne_zero hsign (mul_ne_zero hsig (zpow_ne_zero _ two_ne_zero)) hzero
  · intro hmag
    simp [significand, hmag, fmtHidden_pos]

/-- The order of the patterns is that of the real numbers they stand for (R14). -/
theorem orderKey_le_iff {p : Prec} {a b : F} (ha : isFinite p a = true) (hb : isFinite p b = true) :
    orderKey p a ≤ orderKey p b ↔ realOf p a ≤ realOf p b := by
  have hza := realOf_eq_zero_iff ha
  have hzb := realOf_eq_zero_iff hb
  unfold orderKey
  cases hsa : fsign p a <;> cases hsb : fsign p b
  · rw [realOf_le_iff ha hb hsa hsb]
    simp
  · have hle : realOf p a ≤ realOf p b ↔ realOf p a = 0 ∧ realOf p b = 0 :=
      ⟨fun h => ⟨le_antisymm (h.trans (realOf_nonpos hb hsb)) (realOf_nonneg ha hsa),
        le_antisymm (realOf_nonpos hb hsb) ((realOf_nonneg ha hsa).trans h)⟩, fun ⟨h0, h1⟩ => (h0.trans h1.symm).le⟩
    rw [hle, hza, hzb]
    simp
    omega
  · have hle := (realOf_nonpos ha hsa).trans (realOf_nonneg hb hsb)
    simp [hle]
  · have hneg := realOf_le_iff ((isFinite_fneg p b).trans hb) ((isFinite_fneg p a).trans ha) (by simp [hsb]) (by simp [hsa])
    rw [realOf_fneg hb, realOf_fneg ha, neg_le_neg_iff, fmag_fneg, fmag_fneg] at hneg
    rw [hneg]
    simp

theorem not_nan_of_finite {p : Prec} {v : F} (h : isFinite p v = true) : isNaN p v = false :=
  decide_eq_false (Nat.not_lt.mpr (isFinite_iff.mp h).le)

theorem fle_iff_realOf_le {p : Prec} {a b : F} (ha : isFinite p a = true) (hb : isFinite p b = true) :
    fle p a b = true ↔ realOf p a ≤ realOf p b := by
  rw [fle_iff, orderKey_le_iff ha hb]
  simp [not_nan_of_finite ha, not_nan_of_finite hb]

theorem flt_iff_realOf_lt {p : Prec} {a b : F} (ha : isFinite p a = true) (hb : isFinite p b = true) :
    flt p a b = true ↔ realOf p a < realOf p b := by
  rw [flt_iff, ← not_le, orderKey_le_iff hb ha, not_le]
  simp [not_nan_of_finite ha, not_nan_of_finite hb]

/-! ### The order at the zeros and the infinities -/

theorem isFinite_of_zero {p : Prec} {v : F} (h : IsZero p v) : isFinite p v = true :=
  isFinite_iff.mpr (h.trans_lt (by cases p <;> decide))

theorem not_nan_of_inf {p : Prec} {v : F} (h : IsInf p v) : isNaN p v = false := decide_eq_false h.le.not_gt

/-- A value that is not a NaN lies between the infinities, and only they lie at the ends. -/
theorem orderKey_between {p : Prec} {v : F} (h : isNaN p v = false) :
    -(fmtInf p : Int) ≤ orderKey p v ∧ orderKey p v ≤ fmtInf p ∧
      (orderKey p v = fmtInf p ↔ IsInf p v ∧ fsign p v = false) ∧
      (orderKey p v = -(fmtInf p : Int) ↔ IsInf p v ∧ fsign p v = true) := by
  have hle : fmag p v ≤ fmtInf p := Nat.not_lt.mp (of_decide_eq_false h)
  have hpos : 0 < fmtInf p := by cases p <;> decide
  unfold orderKey IsInf
  cases fsign p v <;> simp <;> omega

theorem flt_iff_of_not_nan {p : Prec} {a b : F} (ha : isNaN p a = false) (hb : isNaN p b = false) :
    flt p a b = true ↔ orderKey p a < orderKey p b := by simp [flt_iff, ha, hb]

theorem fle_iff_of_not_nan {p : Prec} {a b : F} (ha : isNaN p a = false) (hb : isNaN p b = false) :
    fle p a b = true ↔ orderKey p a ≤ orderKey p b := by simp [fle_iff, ha, hb]

/-- Of two values that are not NaNs: the greatest value lies above every other. -/
theorem compare_top {p : Prec} {a b : F} (ha : isNaN p a = false) (hb : isNaN p b = false)
    (htop : IsInf p a ∧ fsign p a = false) : fle p b a = true ∧ flt p a b = false ∧
      (flt p b a = true ↔ ¬(IsInf p b ∧ fsign p b = false)) ∧ (fle p a b = true ↔ IsInf p b ∧ fsign p b = false) := by
  obtain ⟨-, -, hatop, -⟩ := orderKey_between ha
  obtain ⟨-, hble, hbtop, -⟩ := orderKey_between hb
  have hkey := hatop.mpr htop
  rw [← Bool.not_eq_true, flt_iff_of_not_nan ha hb, flt_iff_of_not_nan hb ha, fle_iff_of_not_nan ha hb,
    fle_iff_of_not_nan hb ha, ← hbtop, hkey]
  omega

/-- The least value lies below every other. -/
theorem compare_bottom {p : Prec} {a b : F} (ha : isNaN p a = false) (hb : isNaN p b = false)
    (hbot : IsInf p a ∧ fsign p a = true) : fle p a b = true ∧ flt p b a = false ∧
      (flt p a b = true ↔ ¬(IsInf p b ∧ fsign p b = true)) ∧ (fle p b a = true ↔ IsInf p b ∧ fsign p b = true) := by
  obtain ⟨-, -, -, habot⟩ := orderKey_between ha
  obtain ⟨hbge, -, -, hbbot⟩ := orderKey_between hb
  have hkey := habot.mpr hbot
  rw [← Bool.not_eq_true, flt_iff_of_not_nan ha hb, flt_iff_of_not_nan hb ha, fle_iff_of_not_nan ha hb,
    fle_iff_of_not_nan hb ha, ← hbbot, hkey]
  omega

/-- Settles O60: the keys of the patterns are in the order of the values, the infinities at the ends. -/
theorem comparisonsOrderTheValues : Obligations.ComparisonsOrderTheValues := by
  intro p a b
  refine ⟨fun h => ⟨flt_of_nan h, fle_of_nan h, flt_of_nan h.symm, fle_of_nan h.symm⟩,
    fun ha hb => ⟨flt_iff_realOf_lt ha hb, fle_iff_realOf_le ha hb, flt_iff_realOf_lt hb ha, fle_iff_realOf_le hb ha⟩,
    fun ha hb => ?_, fun ha hb => ⟨fun hs => ?_, fun hs => ?_⟩, fun hb ha => ⟨fun hs => ?_, fun hs => ?_⟩⟩
  · have hfa := isFinite_of_zero ha
    have hfb := isFinite_of_zero hb
    have heq : realOf p a = realOf p b := ((realOf_eq_zero_iff hfa).mpr ha).trans ((realOf_eq_zero_iff hfb).mpr hb).symm
    refine ⟨Bool.eq_false_iff.mpr fun h => ?_, (fle_iff_realOf_le hfa hfb).mpr heq.le,
      Bool.eq_false_iff.mpr fun h => ?_, (fle_iff_realOf_le hfb hfa).mpr heq.ge⟩
    · exact ((flt_iff_realOf_lt hfa hfb).mp h).ne heq
    · exact ((flt_iff_realOf_lt hfb hfa).mp h).ne heq.symm
  · exact compare_top (not_nan_of_inf ha) hb ⟨ha, hs⟩
  · exact compare_bottom (not_nan_of_inf ha) hb ⟨ha, hs⟩
  · exact compare_top (not_nan_of_inf hb) ha ⟨hb, hs⟩
  · exact compare_bottom (not_nan_of_inf hb) ha ⟨hb, hs⟩

end Sys2Proof.Machine

/-! ## Rounding in full (R14): a nearest value below the overflow bound, an infinity from it on -/

namespace Sys2Proof.Machine

theorem nearestEven_iff_real {p : Prec} {x : ℚ} {v : F} : NearestEven p x v ↔ NearestEvenReal p (x : ℝ) v := by
  unfold NearestEven NearestEvenReal
  norm_cast

/-- The negation of a nearest value is a nearest value of the negated number. -/
theorem NearestEvenReal.neg {p : Prec} {x : ℝ} {v : F} (h : NearestEvenReal p x v) :
    NearestEvenReal p (-x) (fneg p v) := by
  obtain ⟨hv, hnear⟩ := h
  refine ⟨(isFinite_fneg p v).trans hv, fun y hy => ?_⟩
  have hmirror (r : ℝ) : |(-r) - (-x)| = |r - x| := by rw [neg_sub_neg, abs_sub_comm]
  obtain ⟨hle, htie⟩ := hnear (fneg p y) ((isFinite_fneg p y).trans hy)
  rw [realOf_fneg hy, Rat.cast_neg, ← hmirror, ← hmirror (-_), neg_neg] at hle htie
  rw [realOf_fneg hv, Rat.cast_neg, fmag_fneg]
  exact ⟨hle, fun heq => (htie heq).imp_left fun h => by rw [← h, neg_neg]⟩

theorem fneg_packBits {p : Prec} {neg : Bool} {mag : Nat} (h : mag < fmtSign p) :
    fneg p (packBits p neg mag) = packBits p (!neg) mag := by
  rw [fneg, fsign_packBits h, fmag_packBits h]

/-- Rounding treats both signs alike. -/
theorem fneg_roundF (p : Prec) (neg : Bool) (m : Nat) (e : Int) (sticky : Bool) :
    fneg p (roundF p neg m e sticky) = roundF p (!neg) m e sticky := by
  unfold roundF
  split
  · exact fneg_packBits (by cases p <;> decide)
  · exact fneg_packBits ((roundMag_le p m e sticky).trans_lt (fmtInf_lt_fmtSign p))

/-! ### The significand and its carry -/

section Significand
variable {p : Prec} {m : Nat} {e : Int} {sticky : Bool} {x : ℝ}

theorem roundSig_le (hx : Stands m e sticky x) (hdrop : sticky = true → 2 ^ p.digits ≤ m) :
    roundSig p m e sticky ≤ 2 * fmtHidden p := by
  have hpos := ulp_pos p (roundBinade p m e)
  obtain ⟨-, hhi⟩ := abs_le.mp (roundSig_nearest hx hdrop).1
  have hxlt := hx.lt.trans_le (succ_le_two_hidden_ulp p m e)
  have hlt : (roundSig p m e sticky : ℝ) < 2 * fmtHidden p + 1 := by
    by_contra hge
    nlinarith
  exact_mod_cast Nat.lt_succ_iff.mp (mod_cast hlt)

theorem hidden_le_roundSig (hm : m ≠ 0) (hx : Stands m e sticky x) (hdrop : sticky = true → 2 ^ p.digits ≤ m)
    (hj : roundBinade p m e ≠ 0) : fmtHidden p ≤ roundSig p m e sticky := by
  have hpos := ulp_pos p (roundBinade p m e)
  obtain ⟨hlo, -⟩ := abs_le.mp (roundSig_nearest hx hdrop).1
  have hxge := (hidden_ulp_le hm hj).trans hx.le
  have hlt : (fmtHidden p : ℝ) < roundSig p m e sticky + 1 := by
    by_contra hge
    nlinarith
  exact_mod_cast Nat.lt_succ_iff.mp (mod_cast hlt)

/-- The magnitude bits before they are cut off at infinity. -/
def uncutMag (p : Prec) (m : Nat) (e : Int) (sticky : Bool) : Nat :=
  roundSig p m e sticky + roundBinade p m e * fmtHidden p

/-- Below infinity the rounded pattern stands for its significand in units of its binade. -/
theorem roundF_of_uncutMag_lt (hm : m ≠ 0) (hx : Stands m e sticky x) (hdrop : sticky = true → 2 ^ p.digits ≤ m)
    (hmag : uncutMag p m e sticky < fmtInf p) : isFinite p (roundF p false m e sticky) = true ∧
      fmag p (roundF p false m e sticky) = uncutMag p m e sticky ∧
      (realOf p (roundF p false m e sticky) : ℝ) = roundSig p m e sticky * ulp p (roundBinade p m e) := by
  have hround : roundF p false m e sticky = packBits p false (uncutMag p m e sticky) := by
    rw [roundF, if_neg hm, roundMag_eq, ← uncutMag, Nat.min_eq_left hmag.le]
  have hbits := hmag.trans (fmtInf_lt_fmtSign p)
  have hfmag := fmag_packBits (neg := false) hbits
  have hfin : isFinite p (packBits p false (uncutMag p m e sticky)) = true := isFinite_iff.mpr (hfmag.trans_lt hmag)
  rw [hround]
  exact ⟨hfin, hfmag, realOf_of_fmag hfin (fsign_packBits hbits) hfmag (roundSig_le hx hdrop)
    (or_iff_not_imp_left.mpr (hidden_le_roundSig hm hx hdrop))⟩

/-- Below infinity the rounded pattern is a nearest value: the significand is nearest in its binade. -/
theorem roundF_nearest_of_uncutMag_lt (hm : m ≠ 0) (hx : Stands m e sticky x) (hdrop : sticky = true → 2 ^ p.digits ≤ m)
    (hmag : uncutMag p m e sticky < fmtInf p) : NearestEvenReal p x (roundF p false m e sticky) := by
  obtain ⟨hnear, htie⟩ := roundSig_nearest hx hdrop
  obtain ⟨hfin, hfmag, hval⟩ := roundF_of_uncutMag_lt hm hx hdrop hmag
  refine nearestEvenReal_of_grid hfin hval (or_iff_not_imp_left.mpr fun h => (hidden_ulp_le hm h).trans hx.le)
    (by rwa [hval]) fun h => ?_
  rw [hval] at h
  rw [hfmag, uncutMag, Nat.add_mod, htie h, Nat.mul_mod, fmtHidden_even, Nat.mul_zero]

/-! ### The overflow bound -/

/-- The binade of the greatest finite value. -/
def topBinade (p : Prec) : Nat := fmtExpMax p - 2

theorem fmtInf_eq (p : Prec) : fmtInf p = (topBinade p + 2) * fmtHidden p := by cases p <;> rfl

/-- The overflow bound is half a unit above the greatest finite value. -/
theorem overflowBound_eq (p : Prec) :
    (overflowBound p : ℝ) = (2 * fmtHidden p - 1 / 2) * ulp p (topBinade p) := by
  have htop : topBinade p = fmtExpMax p - 3 + 1 := by cases p <;> rfl
  have hpow : 2 ^ (p.digits + 1) = 4 * fmtHidden p := by rw [pow_succ', ← two_mul_fmtHidden]; ring
  have hone : 1 ≤ 4 * fmtHidden p := by have := fmtHidden_pos p; omega
  rw [htop, ulp_add, overflowBound, hpow, Nat.cast_sub hone, ulp]
  push_cast
  ring

theorem two_mul_ulp_le {i j : Nat} (h : i < j) : 2 * ulp p i ≤ ulp p j := by
  obtain ⟨d, rfl⟩ := Nat.exists_eq_add_of_lt h
  have hone : (1 : ℝ) ≤ 2 ^ d := one_le_pow₀ one_le_two
  have hpos := ulp_pos p i
  rw [add_assoc, ulp_add, pow_succ]
  nlinarith

/-- The pattern is cut off at infinity exactly from the overflow bound on. -/
theorem uncutMag_lt_iff (hm : m ≠ 0) (hx : Stands m e sticky x) (hdrop : sticky = true → 2 ^ p.digits ≤ m) :
    uncutMag p m e sticky < fmtInf p ↔ x < overflowBound p := by
  have hh : (1 : ℝ) ≤ fmtHidden p := mod_cast fmtHidden_pos p
  have htop := ulp_pos p (topBinade p)
  rw [overflowBound_eq, uncutMag, fmtInf_eq]
  rcases Nat.lt_trichotomy (roundBinade p m e) (topBinade p) with hj | hj | hj
  · refine iff_of_true ?_ ?_
    · have hsig := roundSig_le hx hdrop
      have hmul := Nat.mul_le_mul_right (fmtHidden p) (Nat.succ_le_of_lt hj)
      have := fmtHidden_pos p
      rw [Nat.succ_mul] at hmul
      rw [Nat.add_mul]
      omega
    · have hxlt := hx.lt.trans_le (succ_le_two_hidden_ulp p m e)
      have hulp := two_mul_ulp_le (p := p) hj
      nlinarith
  · obtain ⟨hnear, htie⟩ := roundSig_nearest hx hdrop
    obtain ⟨hlo, hhi⟩ := abs_le.mp hnear
    rw [hj] at hlo hhi htie
    have hsum : roundSig p m e sticky + roundBinade p m e * fmtHidden p < (topBinade p + 2) * fmtHidden p ↔
        roundSig p m e sticky < 2 * fmtHidden p := by rw [hj, Nat.add_mul]; omega
    rw [hsum]
    constructor
    · -- half a unit above `2 * fmtHidden - 1`, which is odd, a tie would round up
      intro hsig
      have hsig' : (roundSig p m e sticky : ℝ) + 1 ≤ 2 * fmtHidden p := mod_cast hsig
      by_contra hge
      rw [not_lt] at hge
      have hx' : x = roundSig p m e sticky * ulp p (topBinade p) + ulp p (topBinade p) / 2 := by nlinarith
      have hlast : (roundSig p m e sticky : ℝ) + 1 = 2 * fmtHidden p := by nlinarith
      have hlast' : roundSig p m e sticky + 1 = 2 * fmtHidden p := mod_cast hlast
      have heven := htie (by rw [abs_sub_comm, hx', add_sub_cancel_left, abs_of_pos (half_pos htop)])
      omega
    · intro hlt
      have : (roundSig p m e sticky : ℝ) < 2 * fmtHidden p := by
        by_contra hge
        nlinarith
      exact_mod_cast this
  · have hne : roundBinade p m e ≠ 0 := Nat.ne_zero_of_lt hj
    refine iff_of_false ?_ ?_
    · have hsig := hidden_le_roundSig hm hx hdrop hne
      have hmul := Nat.mul_le_mul_right (fmtHidden p) (Nat.succ_le_of_lt hj)
      rw [Nat.succ_mul] at hmul
      rw [Nat.add_mul]
      omega
    · have hxge := (hidden_ulp_le hm hne).trans hx.le
      have hulp := two_mul_ulp_le (p := p) hj
      rw [not_lt]
      nlinarith

end Significand

/-! ### Both signs -/

/-- Rounding once (R14): below the overflow bound a nearest value, ties to even. -/
theorem roundF_nearest_signed {p : Prec} {m : Nat} {e : Int} {sticky : Bool} {x : ℚ} (hm : m ≠ 0)
    (hx : Stands m e sticky x) (hdrop : sticky = true → 2 ^ p.digits ≤ m) (hlt : x < overflowBound p) (neg : Bool) :
    NearestEven p (signFactor neg * x) (roundF p neg m e sticky) := by
  have hpos := roundF_nearest_of_uncutMag_lt hm hx hdrop ((uncutMag_lt_iff hm hx hdrop).mpr (Rat.cast_lt.mpr hlt))
  rw [nearestEven_iff_real]
  cases neg with
  | false => simpa [signFactor] using hpos
  | true =>
    have hneg := hpos.neg
    rw [fneg_roundF] at hneg
    simpa [signFactor] using hneg

/-- From the overflow bound on rounding gives an infinity. -/
theorem roundF_overflow {p : Prec} {m : Nat} {e : Int} {sticky : Bool} {x : ℚ} (hm : m ≠ 0) (hx : Stands m e sticky x)
    (hdrop : sticky = true → 2 ^ p.digits ≤ m) (hge : overflowBound p ≤ x) (neg : Bool) :
    roundF p neg m e sticky = infF p neg := by
  have hmag : fmtInf p ≤ uncutMag p m e sticky :=
    Nat.le_of_not_lt (mt (uncutMag_lt_iff hm hx hdrop).mp (not_lt.mpr (Rat.cast_le.mpr hge)))
  rw [roundF, if_neg hm, roundMag_eq, ← uncutMag, Nat.min_eq_right hmag, infF]

theorem stands_exact_rat (m : Nat) (e : Int) : Stands m e false (((m : ℚ) * 2 ^ e : ℚ) : ℝ) := by
  show _ = _
  push_cast
  rfl

theorem zeroF_nearest (p : Prec) (neg : Bool) : NearestEven p 0 (zeroF p neg) := by
  have hmag : fmag p (zeroF p neg) = 0 := fmag_packBits (by cases p <;> decide)
  have hfin := isFinite_of_zero hmag
  exact nearestEven_iff_real.mpr (nearestEvenReal_of_eq hfin (by rw [(realOf_eq_zero_iff hfin).mpr hmag]))

theorem abs_signFactor_mul (neg : Bool) {x : ℚ} (hx : 0 ≤ x) : |(signFactor neg : ℚ) * x| = x := by
  cases neg <;> simp [signFactor, abs_of_nonneg hx]

/-- An exact rational of either sign, zero included, is rounded once (R14). -/
theorem roundF_nearestEven {p : Prec} {neg : Bool} {m : Nat} {e : Int}
    (hlt : |(signFactor neg : ℚ) * (m * 2 ^ e)| < overflowBound p) :
    NearestEven p (signFactor neg * (m * 2 ^ e)) (roundF p neg m e false) := by
  rw [abs_signFactor_mul neg (by positivity)] at hlt
  rcases eq_or_ne m 0 with rfl | hm
  · simpa [roundF] using zeroF_nearest p neg
  · exact roundF_nearest_signed hm (stands_exact_rat m e) nofun hlt neg

/-- Settles O55: below infinity the significand is nearest in its binade, and the bound is where the cut begins. -/
theorem roundingIsNearestTiesToEven : Obligations.RoundingIsNearestTiesToEven := by
  intro p neg m e hm x
  have hx : x = signFactor neg * (m * 2 ^ e) := by cases neg <;> simp [x, signFactor]
  rw [hx]
  refine ⟨roundF_nearestEven, fun hge => ?_⟩
  rw [abs_signFactor_mul neg (by positivity)] at hge
  exact roundF_overflow hm.ne' (stands_exact_rat m e) nofun hge neg

end Sys2Proof.Machine

/-! ## Sums, products and quotients (R14, R110) -/

namespace Sys2Proof.Machine

/-- Aligning a significand to a lower exponent keeps the value. -/
theorem signedShift_mul_zpow (neg : Bool) (m : Nat) {e f : Int} (h : f ≤ e) :
    (signedShift neg m (e - f).toNat : ℚ) * 2 ^ f = signFactor neg * (m * 2 ^ e) := by
  have hexp : (2 : ℚ) ^ e = 2 ^ (e - f).toNat * 2 ^ f := by
    rw [← zpow_natCast, ← zpow_add₀ two_ne_zero]
    congr 1
    omega
  rw [hexp]
  cases neg <;> simp [signedShift, signFactor, mul_assoc]

theorem signFactor_natAbs (t : Int) : signFactor (decide (t < 0)) * (t.natAbs : Int) = t := by
  by_cases ht : t < 0
  · simp only [ht, signFactor, decide_true, if_true]
    omega
  · simp only [ht, signFactor, decide_false, Bool.false_eq_true, if_false]
    omega

/-- The sum of two finite numbers, aligned to the lower exponent, is rounded once. -/
theorem addFinite_nearest {p : Prec} {na nb : Bool} {ma mb : Nat} {ea eb : Int} {x : ℚ}
    (hx : x = signFactor na * (ma * 2 ^ ea) + signFactor nb * (mb * 2 ^ eb)) (hlt : |x| < overflowBound p) :
    NearestEven p x (addFinite p na ma ea nb mb eb) := by
  unfold addFinite
  dsimp only
  generalize ht : signedShift na ma (ea - min ea eb).toNat + signedShift nb mb (eb - min ea eb).toNat = t
  have hsum : x = t * 2 ^ min ea eb := by
    rw [hx, ← signedShift_mul_zpow na ma (min_le_left ea eb), ← signedShift_mul_zpow nb mb (min_le_right ea eb), ← ht]
    push_cast
    ring
  split
  · next hzero =>
    rw [hsum, hzero, Int.cast_zero, zero_mul]
    exact zeroF_nearest ..
  · have hsigned : x = signFactor (decide (t < 0)) * (t.natAbs * 2 ^ min ea eb) := by
      rw [hsum, ← mul_assoc, ← Int.cast_natCast t.natAbs, ← Int.cast_mul, signFactor_natAbs]
    rw [hsigned] at hlt ⊢
    exact roundF_nearestEven hlt

section Finite
variable {p : Prec} {a b : F} (ha : isFinite p a = true) (hb : isFinite p b = true)
include ha hb

theorem fadd_nearest (hlt : |realOf p a + realOf p b| < overflowBound p) :
    NearestEven p (realOf p a + realOf p b) (fadd p a b) := by
  have hadd : fadd p a b = addFinite p (fsign p a) (significand p a) (fmtExpMin p + binade p a) (fsign p b)
      (significand p b) (fmtExpMin p + binade p b) := by rw [fadd, unpack_finite ha, unpack_finite hb]
  rw [hadd]
  exact addFinite_nearest (by rw [realOf_of_finite ha, realOf_of_finite hb]) hlt

theorem fsub_nearest (hlt : |realOf p a - realOf p b| < overflowBound p) :
    NearestEven p (realOf p a - realOf p b) (fsub p a b) := by
  rw [sub_eq_add_neg, ← realOf_fneg hb] at hlt ⊢
  exact fadd_nearest ha ((isFinite_fneg p b).trans hb) hlt

theorem fmul_nearest (hlt : |realOf p a * realOf p b| < overflowBound p) :
    NearestEven p (realOf p a * realOf p b) (fmul p a b) := by
  have hmul : fmul p a b = roundF p (fsign p a ^^ fsign p b) (significand p a * significand p b)
      (fmtExpMin p + binade p a + (fmtExpMin p + binade p b)) false := by rw [fmul, unpack_finite ha, unpack_finite hb]
  have hprod : realOf p a * realOf p b = signFactor (fsign p a ^^ fsign p b) *
      (((significand p a * significand p b : ℕ) : ℚ) * 2 ^ (fmtExpMin p + binade p a + (fmtExpMin p + binade p b))) := by
    rw [realOf_of_finite ha, realOf_of_finite hb, signFactor_xor, zpow_add₀ two_ne_zero (fmtExpMin p + binade p a)]
    push_cast
    ring
  rw [hprod] at hlt ⊢
  rw [hmul]
  exact roundF_nearestEven hlt

end Finite

/-- Settles O56: each operation computes the exact result and rounds it once. -/
theorem sumsAndProductsAreRoundedOnce : Obligations.SumsAndProductsAreRoundedOnce := fun _ _ _ ha hb =>
  ⟨fadd_nearest ha hb, fsub_nearest ha hb, fmul_nearest ha hb⟩

/-! ### Quotients -/

/-- The integer quotient, with a sticky digit for the remainder, stands for the quotient. -/
theorem stands_div (n : Nat) {d : Nat} (hd : d ≠ 0) (e : Int) : Stands (n / d) e (n % d != 0) ((n : ℝ) / d * 2 ^ e) := by
  have hpos : (0 : ℝ) < 2 ^ e := zpow_pos two_pos _
  have hd' : (0 : ℝ) < d := mod_cast Nat.pos_of_ne_zero hd
  have hsplit : (n : ℝ) / d = (n / d : ℕ) + (n % d : ℕ) / (d : ℝ) := by
    have hnat : ((n / d * d + n % d : ℕ) : ℝ) = n := congrArg Nat.cast (Nat.div_add_mod' n d)
    rw [← hnat]
    push_cast
    field_simp
  cases hexact : (n % d != 0) with
  | false =>
    have hrem : n % d = 0 := by simpa using hexact
    show _ = _
    rw [hsplit, hrem, Nat.cast_zero, zero_div, add_zero]
  | true =>
    have hrem : (0 : ℝ) < (n % d : ℕ) := mod_cast Nat.pos_of_ne_zero (by simpa using hexact)
    have hless : ((n % d : ℕ) : ℝ) / d < 1 := (div_lt_one hd').mpr (mod_cast Nat.mod_lt n (Nat.pos_of_ne_zero hd))
    have hgreater : 0 < ((n % d : ℕ) : ℝ) / d := div_pos hrem hd'
    rw [hsplit]
    exact ⟨by gcongr; linarith, by gcongr⟩

/-- By how many bits `divFinite` scales the numerator. -/
def divScale (p : Prec) (mb : Nat) : Nat := p.digits + 3 + Nat.log2 mb

theorem divFinite_eq (p : Prec) (neg : Bool) (ma : Nat) (ea : Int) (mb : Nat) (eb : Int) : divFinite p neg ma ea mb eb =
    roundF p neg (ma * 2 ^ divScale p mb / mb) (ea - eb - (divScale p mb : Int)) (ma * 2 ^ divScale p mb % mb != 0) := rfl

/-- The integer quotient has more digits than the format. -/
theorem digits_le_scaled_div (p : Prec) {ma mb : Nat} (ha : ma ≠ 0) (hb : mb ≠ 0) :
    2 ^ p.digits ≤ ma * 2 ^ divScale p mb / mb := by
  rw [Nat.le_div_iff_mul_le (Nat.pos_of_ne_zero hb)]
  calc 2 ^ p.digits * mb ≤ 2 ^ p.digits * 2 ^ (Nat.log2 mb + 1) := Nat.mul_le_mul_left _ Nat.lt_log2_self.le
    _ = 2 ^ (p.digits + (Nat.log2 mb + 1)) := (pow_add ..).symm
    _ ≤ 2 ^ divScale p mb := Nat.pow_le_pow_right two_pos (by unfold divScale; omega)
    _ ≤ ma * 2 ^ divScale p mb := Nat.le_mul_of_pos_left _ (Nat.pos_of_ne_zero ha)

theorem scaled_div_eq (p : Prec) (ma : Nat) {mb : Nat} (hb : mb ≠ 0) (ea eb : Int) :
    ((ma * 2 ^ divScale p mb : ℕ) : ℝ) / mb * 2 ^ (ea - eb - (divScale p mb : Int)) = ma * 2 ^ ea / (mb * 2 ^ eb) := by
  have hb' : (mb : ℝ) ≠ 0 := mod_cast hb
  have hexp : (2 : ℝ) ^ (ea - eb - (divScale p mb : Int)) = 2 ^ ea / 2 ^ eb / 2 ^ divScale p mb := by
    rw [zpow_sub₀ two_ne_zero, zpow_sub₀ two_ne_zero, zpow_natCast]
  rw [hexp]
  push_cast
  field_simp

theorem fdiv_nearest {p : Prec} {a b : F} (ha : isFinite p a = true) (hb : isFinite p b = true) (hz : realOf p b ≠ 0)
    (hlt : |realOf p a / realOf p b| < overflowBound p) : NearestEven p (realOf p a / realOf p b) (fdiv p a b) := by
  have hbmag : fmag p b ≠ 0 := mt (realOf_eq_zero_iff hb).mpr hz
  have hsb : significand p b ≠ 0 := significand_ne_zero hbmag
  rw [fdiv_finite ha hb hbmag, divFinite_eq]
  have hquot : realOf p a / realOf p b = signFactor (fsign p a ^^ fsign p b) *
      (significand p a * 2 ^ (fmtExpMin p + binade p a) / (significand p b * 2 ^ (fmtExpMin p + binade p b)) : ℚ) := by
    rw [realOf_of_finite ha, realOf_of_finite hb, signFactor_xor]
    cases fsign p a <;> cases fsign p b <;> simp [signFactor, neg_div, div_neg]
  rw [hquot] at hlt ⊢
  rw [abs_signFactor_mul _ (by positivity)] at hlt
  rcases eq_or_ne (significand p a) 0 with hsa | hsa
  · simpa [hsa, roundF] using zeroF_nearest ..
  · have hdigits := digits_le_scaled_div p hsa hsb
    have hstands := stands_div (significand p a * 2 ^ divScale p (significand p b)) hsb
      (fmtExpMin p + binade p a - (fmtExpMin p + binade p b) - (divScale p (significand p b) : Int))
    rw [scaled_div_eq p _ hsb] at hstands
    have hcast : ((significand p a : ℝ) * 2 ^ (fmtExpMin p + binade p a) /
        (significand p b * 2 ^ (fmtExpMin p + binade p b))) = ((significand p a * 2 ^ (fmtExpMin p + binade p a) /
          (significand p b * 2 ^ (fmtExpMin p + binade p b)) : ℚ) : ℝ) := by push_cast; rfl
    rw [hcast] at hstands
    exact roundF_nearest_signed (Nat.two_pow_pos _ |>.trans_le hdigits).ne' hstands (fun _ => hdigits) hlt _

/-- Settles O57: the integer quotient and its remainder stand for the exact quotient, which is rounded once. -/
theorem quotientsAreRoundedOnce : Obligations.QuotientsAreRoundedOnce := fun _ _ _ => fdiv_nearest

end Sys2Proof.Machine

/-! ## NaNs (R110) -/

namespace Sys2Proof.Machine

/-- A value is the canonical NaN under the condition, and no NaN otherwise. -/
def NaNWhen (p : Prec) (v : F) (c : Prop) : Prop := (v = canonNaN p ∧ c) ∨ (isNaN p v = false ∧ ¬c)

theorem isNaN_canonNaN (p : Prec) : isNaN p (canonNaN p) = true := by cases p <;> decide

theorem NaNWhen.canonical {p : Prec} {v : F} {c : Prop} (h : NaNWhen p v c) (hv : isNaN p v = true) :
    v = canonNaN p := by
  rcases h with ⟨hcanon, -⟩ | ⟨hnum, -⟩
  · exact hcanon
  · rw [hv] at hnum
    cases hnum

theorem NaNWhen.iff {p : Prec} {v : F} {c : Prop} (h : NaNWhen p v c) : isNaN p v = true ↔ c := by
  rcases h with ⟨rfl, hc⟩ | ⟨hnum, hc⟩
  · exact iff_of_true (isNaN_canonNaN p) hc
  · exact iff_of_false (by simp [hnum]) hc

theorem nanWhen_canonNaN {p : Prec} {c : Prop} (hc : c) : NaNWhen p (canonNaN p) c := .inl ⟨rfl, hc⟩

theorem isNaN_packBits {p : Prec} {neg : Bool} {mag : Nat} (h : mag ≤ fmtInf p) : isNaN p (packBits p neg mag) = false := by
  have hbits := h.trans_lt (fmtInf_lt_fmtSign p)
  exact decide_eq_false (Nat.not_lt.mpr ((fmag_packBits hbits).trans_le h))

theorem isNaN_infF (p : Prec) (neg : Bool) : isNaN p (infF p neg) = false := isNaN_packBits le_rfl

theorem isNaN_zeroF (p : Prec) (neg : Bool) : isNaN p (zeroF p neg) = false := isNaN_packBits (Nat.zero_le _)

theorem isNaN_roundF (p : Prec) (neg : Bool) (m : Nat) (e : Int) (sticky : Bool) :
    isNaN p (roundF p neg m e sticky) = false := by
  unfold roundF
  split
  · exact isNaN_zeroF p neg
  · exact isNaN_packBits (roundMag_le p m e sticky)

theorem isNaN_addFinite (p : Prec) (na : Bool) (ma : Nat) (ea : Int) (nb : Bool) (mb : Nat) (eb : Int) :
    isNaN p (addFinite p na ma ea nb mb eb) = false := by
  unfold addFinite
  dsimp only
  split
  · exact isNaN_zeroF ..
  · exact isNaN_roundF ..

/-- Above the magnitude of infinity the exponent field is all ones and the fraction is not zero. -/
theorem unpack_nan {p : Prec} {v : F} (h : fmtInf p < fmag p v) : unpack p v = .nan := by
  have hlt := fmag_lt p v
  have hsign : fmtSign p = (fmtExpMax p + 1) * fmtHidden p := by cases p <;> rfl
  have hex : fmag p v / fmtHidden p = fmtExpMax p :=
    Nat.div_eq_of_lt_le h.le (hsign ▸ hlt)
  have hfr : fmag p v % fmtHidden p ≠ 0 := fun h0 => by
    have hsplit := Nat.div_add_mod' (fmag p v) (fmtHidden p)
    rw [hex, h0, Nat.add_zero] at hsplit
    exact h.ne hsplit
  simp [unpack, hex, hfr]

/-- The three kinds of patterns, each with what `unpack` makes of it and which of NaN, infinity and zero it is. -/
theorem unpack_kinds (p : Prec) (v : F) :
    (unpack p v = .nan ∧ isNaN p v = true ∧ ¬IsInf p v ∧ ¬IsZero p v) ∨
    (unpack p v = .inf (fsign p v) ∧ isNaN p v = false ∧ IsInf p v ∧ ¬IsZero p v) ∨
    (∃ m e, unpack p v = .fin (fsign p v) m e ∧ isNaN p v = false ∧ ¬IsInf p v ∧ (IsZero p v ↔ m = 0)) := by
  have hpos : 0 < fmtInf p := by cases p <;> decide
  rcases Nat.lt_trichotomy (fmag p v) (fmtInf p) with hlt | heq | hgt
  · have hfin := isFinite_iff.mpr hlt
    refine .inr (.inr ⟨_, _, unpack_finite hfin, not_nan_of_finite hfin, hlt.ne, fun hz => ?_, fun hsig => ?_⟩)
    · unfold IsZero at hz
      simp [significand, hz, fmtHidden_pos]
    · by_contra hz
      exact significand_ne_zero hz hsig
  · refine .inr (.inl ⟨unpack_infinite heq, not_nan_of_inf heq, heq, ?_⟩)
    unfold IsZero
    omega
  · refine .inl ⟨unpack_nan hgt, decide_eq_true hgt, hgt.ne', ?_⟩
    unfold IsZero
    omega

@[simp] theorem isInf_fneg (p : Prec) (a : F) : IsInf p (fneg p a) ↔ IsInf p a := by simp [IsInf]

section Operations
variable (p : Prec) (a b : F)

theorem fadd_nanWhen : NaNWhen p (fadd p a b)
    (isNaN p a = true ∨ isNaN p b = true ∨ (IsInf p a ∧ IsInf p b ∧ fsign p a ≠ fsign p b)) := by
  unfold fadd
  rcases unpack_kinds p a with ⟨ua, na, -⟩ | ⟨ua, na, ia, -⟩ | ⟨ma, ea, ua, na, ia, -⟩
  · rw [ua]
    exact nanWhen_canonNaN (.inl na)
  all_goals
    rcases unpack_kinds p b with ⟨ub, nb, -⟩ | ⟨ub, nb, ib, -⟩ | ⟨mb, eb, ub, nb, ib, -⟩ <;> rw [ua, ub]
  · exact nanWhen_canonNaN (.inr (.inl nb))
  · by_cases hs : fsign p a = fsign p b <;> simp [NaNWhen, na, nb, ia, ib, hs, isNaN_infF]
  · simp [NaNWhen, na, nb, ib, isNaN_infF]
  · exact nanWhen_canonNaN (.inr (.inl nb))
  · simp [NaNWhen, na, nb, ia, isNaN_infF]
  · simp [NaNWhen, na, nb, ia, isNaN_addFinite]

theorem fsub_nanWhen : NaNWhen p (fsub p a b)
    (isNaN p a = true ∨ isNaN p b = true ∨ (IsInf p a ∧ IsInf p b ∧ fsign p a = fsign p b)) := by
  unfold fsub
  simpa using fadd_nanWhen p a (fneg p b)

theorem fmul_nanWhen : NaNWhen p (fmul p a b)
    (isNaN p a = true ∨ isNaN p b = true ∨ (IsInf p a ∧ IsZero p b) ∨ (IsZero p a ∧ IsInf p b)) := by
  unfold fmul
  rcases unpack_kinds p a with ⟨ua, na, -⟩ | ⟨ua, na, ia, za⟩ | ⟨ma, ea, ua, na, ia, za⟩
  · rw [ua]
    exact nanWhen_canonNaN (.inl na)
  all_goals
    rcases unpack_kinds p b with ⟨ub, nb, -⟩ | ⟨ub, nb, ib, zb⟩ | ⟨mb, eb, ub, nb, ib, zb⟩ <;> rw [ua, ub]
  · exact nanWhen_canonNaN (.inr (.inl nb))
  · simp [NaNWhen, na, nb, za, zb, isNaN_infF]
  · by_cases hz : mb = 0 <;> simp [NaNWhen, na, nb, ia, ib, zb, hz, isNaN_infF]
  · exact nanWhen_canonNaN (.inr (.inl nb))
  · by_cases hz : ma = 0 <;> simp [NaNWhen, na, nb, ia, ib, za, hz, isNaN_infF]
  · simp [NaNWhen, na, nb, ia, ib, isNaN_roundF]

theorem fdiv_nanWhen : NaNWhen p (fdiv p a b)
    (isNaN p a = true ∨ isNaN p b = true ∨ (IsZero p a ∧ IsZero p b) ∨ (IsInf p a ∧ IsInf p b)) := by
  unfold fdiv
  rcases unpack_kinds p a with ⟨ua, na, -⟩ | ⟨ua, na, ia, za⟩ | ⟨ma, ea, ua, na, ia, za⟩
  · rw [ua]
    exact nanWhen_canonNaN (.inl na)
  all_goals
    rcases unpack_kinds p b with ⟨ub, nb, -⟩ | ⟨ub, nb, ib, zb⟩ | ⟨mb, eb, ub, nb, ib, zb⟩ <;> rw [ua, ub]
  · exact nanWhen_canonNaN (.inr (.inl nb))
  · exact nanWhen_canonNaN (.inr (.inr (.inr ⟨ia, ib⟩)))
  · simp [NaNWhen, na, nb, ib, za, isNaN_infF]
  · exact nanWhen_canonNaN (.inr (.inl nb))
  · simp [NaNWhen, na, nb, ia, zb, isNaN_zeroF]
  · by_cases hz : mb = 0
    · by_cases hz' : ma = 0 <;> simp [NaNWhen, na, nb, ia, za, zb, hz, hz', isNaN_infF]
    · simp [NaNWhen, na, nb, ia, zb, hz, divFinite_eq, isNaN_roundF]

theorem fsqrt_nanWhen : NaNWhen p (fsqrt p a) (isNaN p a = true ∨ (fsign p a = true ∧ ¬IsZero p a)) := by
  unfold fsqrt
  rcases unpack_kinds p a with ⟨ua, na, -⟩ | ⟨ua, na, -, za⟩ | ⟨m, e, ua, na, -, za⟩ <;> rw [ua]
  · exact nanWhen_canonNaN (.inl na)
  · cases hs : fsign p a <;> simp [NaNWhen, na, za, isNaN_infF]
  · by_cases hz : m = 0
    · simp [NaNWhen, na, za, hz, isNaN_zeroF]
    · cases hs : fsign p a <;> simp [NaNWhen, na, za, hz, sqrtFinite_eq, isNaN_roundF]

end Operations

/-- Settles O58, operation by operation on the kinds of the operands. -/
theorem naNResultsAreCanonical : Obligations.NaNResultsAreCanonical := by
  intro p a b
  have hadd := fadd_nanWhen p a b
  have hsub := fsub_nanWhen p a b
  have hmul := fmul_nanWhen p a b
  have hdiv := fdiv_nanWhen p a b
  have hsqrt := fsqrt_nanWhen p a
  exact ⟨hadd.canonical, hsub.canonical, hmul.canonical, hdiv.canonical, hsqrt.canonical, hadd.iff, hsub.iff, hmul.iff,
    hdiv.iff, hsqrt.iff, by cases p <;> rfl, fsign_fneg p a, fmag_fneg p a⟩

end Sys2Proof.Machine

/-! ## The ends of the blend (R202) -/

namespace Sys2Proof.Machine

/-- A finite value lies below the overflow bound. -/
theorem abs_realOf_lt_overflowBound {p : Prec} {v : F} (h : isFinite p v = true) : |realOf p v| < overflowBound p := by
  have hreal : |(realOf p v : ℝ)| < overflowBound p := by
    have hbinade : binade p v ≤ topBinade p := Nat.le_sub_of_add_le (Nat.succ_le_of_lt (binade_lt h))
    have hulp : ulp p (binade p v) ≤ ulp p (topBinade p) :=
      zpow_le_zpow_right₀ one_le_two (by omega)
    have hsig : (significand p v : ℝ) + 1 ≤ 2 * fmtHidden p := mod_cast significand_lt p v
    have hsign : |((signFactor (fsign p v) : ℤ) : ℝ)| = 1 := by cases fsign p v <;> simp [signFactor]
    have htop := ulp_pos p (topBinade p)
    rw [overflowBound_eq, realOf_finite h, Int.cast_mul, abs_mul, abs_mul, hsign, one_mul, Int.cast_natCast,
      abs_of_nonneg (Nat.cast_nonneg _), abs_of_pos (ulp_pos ..)]
    calc (significand p v : ℝ) * ulp p (binade p v) ≤ significand p v * ulp p (topBinade p) := by gcongr
      _ < (2 * fmtHidden p - 1 / 2) * ulp p (topBinade p) := by gcongr; linarith
  exact_mod_cast hreal

/-- A nearest value of a number that a finite value stands for stands for it too. -/
theorem NearestEven.realOf_eq {p : Prec} {a v : F} (h : NearestEven p (realOf p a) v) (ha : isFinite p a = true) :
    realOf p v = realOf p a := by
  have hle := (h.2 a ha).1
  rw [sub_self, abs_zero] at hle
  exact sub_eq_zero.mp (abs_nonpos_iff.mp hle)

/-- Laid-out finite patterns that stand for one number other than 0 are one pattern. -/
theorem eq_of_realOf_eq {p : Prec} {a v : F} (ha : isFinite p a = true) (hv : isFinite p v = true) (hla : Laid p a)
    (hlv : Laid p v) (hz : fmag p a ≠ 0) (h : realOf p v = realOf p a) : v = a := by
  have hkey : orderKey p v = orderKey p a :=
    le_antisymm ((orderKey_le_iff hv ha).mpr h.le) ((orderKey_le_iff ha hv).mpr h.ge)
  have hsame : fsign p v = fsign p a ∧ fmag p v = fmag p a := by
    unfold orderKey at hkey
    cases hsv : fsign p v <;> cases hsa : fsign p a <;>
      simp only [hsv, hsa, Bool.false_eq_true, if_true, if_false] at hkey
    · exact ⟨rfl, by omega⟩
    · omega
    · omega
    · exact ⟨rfl, by omega⟩
  rw [← packBits_fsign_fmag hla, ← packBits_fsign_fmag hlv, hsame.1, hsame.2]

/-- A nearest value of the number that a finite pattern other than a zero stands for is that pattern. -/
theorem NearestEven.eq_self {p : Prec} {a v : F} (h : NearestEven p (realOf p a) v) (ha : isFinite p a = true)
    (hla : Laid p a) (hlv : Laid p v) (hz : fmag p a ≠ 0) : v = a :=
  eq_of_realOf_eq ha h.1 hla hlv hz (h.realOf_eq ha)

/-- One and the zeros that the ends of the blend meet. -/
theorem blend_constants (p : Prec) : isFinite p (toF p 1) = true ∧ realOf p (toF p 1) = 1 ∧
    fsub p (toF p 1) 0#64 = toF p 1 ∧ fsub p (toF p 1) (toF p 1) = 0#64 ∧ isFinite p 0#64 = true := by
  obtain ⟨hone, hunpack⟩ := unpack_toF_two_pow p 0 (by decide)
  refine ⟨hone, ?_, by cases p <;> decide +kernel, by cases p <;> decide +kernel, by cases p <;> decide⟩
  have h := realOf_two_pow hunpack
  simpa [signFactor] using h

section Ends
variable {p : Prec} {a z : F} (ha : isFinite p a = true) (hla : Laid p a) (hz : fmag p a ≠ 0)
include ha hla hz

theorem one_fmul : fmul p (toF p 1) a = a := by
  obtain ⟨hone, hreal, -⟩ := blend_constants p
  have hprod : realOf p (toF p 1) * realOf p a = realOf p a := by rw [hreal, one_mul]
  have h := fmul_nearest hone ha (hprod.symm ▸ abs_realOf_lt_overflowBound ha)
  rw [hprod] at h
  exact h.eq_self ha hla (fmul_laid ..) hz

theorem fadd_zero_right (hfin : isFinite p z = true) (hzero : realOf p z = 0) : fadd p a z = a := by
  have hsum : realOf p a + realOf p z = realOf p a := by rw [hzero, add_zero]
  have h := fadd_nearest ha hfin (hsum.symm ▸ abs_realOf_lt_overflowBound ha)
  rw [hsum] at h
  exact h.eq_self ha hla (fadd_laid ..) hz

theorem fadd_zero_left (hfin : isFinite p z = true) (hzero : realOf p z = 0) : fadd p z a = a := by
  have hsum : realOf p z + realOf p a = realOf p a := by rw [hzero, zero_add]
  have h := fadd_nearest hfin ha (hsum.symm ▸ abs_realOf_lt_overflowBound ha)
  rw [hsum] at h
  exact h.eq_self ha hla (fadd_laid ..) hz

end Ends

/-- The product of a zero and a finite value is a zero of some sign. -/
theorem zero_fmul {p : Prec} {b : F} (hb : isFinite p b = true) :
    isFinite p (fmul p 0#64 b) = true ∧ realOf p (fmul p 0#64 b) = 0 := by
  obtain ⟨-, -, -, -, hzero⟩ := blend_constants p
  have hprod : realOf p 0#64 * realOf p b = realOf p 0#64 := by rw [realOf_zero, zero_mul]
  have h := fmul_nearest hzero hb (hprod.symm ▸ abs_realOf_lt_overflowBound hzero)
  rw [hprod] at h
  exact ⟨h.1, (h.realOf_eq hzero).trans (realOf_zero p)⟩

/-- Settles O59: one factor is 1 and the other 0, and both the product by 1 and the sum with a zero are exact. -/
theorem blendEndsAreTheChannels : Obligations.BlendEndsAreTheChannels := by
  intro p a b hla hlb ha hb hza hzb
  obtain ⟨-, -, hsub0, hsub1, -⟩ := blend_constants p
  obtain ⟨hfina, hzeroa⟩ := zero_fmul ha
  obtain ⟨hfinb, hzerob⟩ := zero_fmul hb
  unfold blend
  rw [hsub0, hsub1, one_fmul ha hla hza, one_fmul hb hlb hzb]
  exact ⟨fadd_zero_right ha hla hza hfinb hzerob, fadd_zero_left hb hlb hzb hfina hzeroa⟩

end Sys2Proof.Machine

/-! ## The increment (R169, R170) -/

namespace Sys2Proof.Machine

/-- The product `x` of R169. -/
def incProduct (b : Build) (f : F) (l : Nat) (sr : F) : F :=
  fmul b.prec (fmul b.prec f (toF b.prec l)) (srInverse b.prec sr)

section Increment
variable {b : Build} {f sr : F} {l : Nat}

theorem incOf_of_nonneg {m : Nat} {e : Int} (h : unpack b.prec (incProduct b f l sr) = .fin false m e) :
    incOf b f l sr = min (floorScaled m (e + b.fb)) (l * 2 ^ b.fb) := by
  unfold incProduct at h
  rw [incOf, h]

theorem incOf_of_neg {m : Nat} {e : Int} (h : unpack b.prec (incProduct b f l sr) = .fin true m e) :
    incOf b f l sr = 0 := by
  unfold incProduct at h
  rw [incOf, h]

theorem incOf_of_nan (h : unpack b.prec (incProduct b f l sr) = .nan) : incOf b f l sr = 0 := by
  unfold incProduct at h
  rw [incOf, h]

/-- Of a finite product that is not below 0 the increment is the clamped floor; `-0.0` counts as 0. -/
theorem incOf_eq_floor (hfin : isFinite b.prec (incProduct b f l sr) = true)
    (hnonneg : 0 ≤ realOf b.prec (incProduct b f l sr)) :
    (incOf b f l sr : Int) = min ⌊realOf b.prec (incProduct b f l sr) * 2 ^ b.fb⌋ ((l * 2 ^ b.fb : Nat) : Int) := by
  have hunpack := unpack_finite hfin
  cases hs : fsign b.prec (incProduct b f l sr) with
  | false =>
    rw [hs] at hunpack
    have hreal : realOf b.prec (incProduct b f l sr) * 2 ^ b.fb = (significand b.prec (incProduct b f l sr) : ℚ) *
        2 ^ (fmtExpMin b.prec + binade b.prec (incProduct b f l sr) + (b.fb : Int)) := by
      rw [realOf_of_unpack hunpack, zpow_add₀ two_ne_zero _ (b.fb : Int), zpow_natCast]
      simp only [signFactor, Bool.false_eq_true, if_false, Int.cast_one, one_mul]
      ring
    rw [incOf_of_nonneg hunpack, hreal, ← floorScaled_eq_floor]
    exact Nat.cast_min ..
  | true =>
    rw [hs] at hunpack
    rw [incOf_of_neg hunpack, le_antisymm (realOf_nonpos hfin hs) hnonneg, zero_mul, Int.floor_zero]
    exact (min_eq_left (Int.natCast_nonneg _)).symm

end Increment

/-- A product with a NaN or a zero factor is a NaN or a zero, whatever the other factor is. -/
theorem fmul_of_nan_or_zero {p : Prec} {a : F} (h : isNaN p a = true ∨ IsZero p a) (b : F) :
    isNaN p (fmul p a b) = true ∨ IsZero p (fmul p a b) := by
  rcases h with hnan | hzero
  · exact .inl ((fmul_nanWhen p a b).iff.mpr (.inl hnan))
  · rcases unpack_kinds p b with ⟨-, hb, -⟩ | ⟨-, -, hb, -⟩ | ⟨m, e, ub, -⟩
    · exact .inl ((fmul_nanWhen p a b).iff.mpr (.inr (.inl hb)))
    · exact .inl ((fmul_nanWhen p a b).iff.mpr (.inr (.inr (.inr ⟨hzero, hb⟩))))
    · have hsig : significand p a = 0 := by
        unfold IsZero at hzero
        simp [significand, hzero, fmtHidden_pos]
      have hmul : fmul p a b = zeroF p (fsign p a ^^ fsign p b) := by
        simp [fmul, unpack_finite (isFinite_of_zero hzero), ub, hsig, roundF]
      rw [hmul]
      exact .inr (fmag_packBits (by cases p <;> decide))

/-- A zero frequency does not move the position, whatever the sample rate and the length are (R170). -/
theorem incOf_of_zero (b : Build) {f : F} (hf : IsZero b.prec f) (l : Nat) (sr : F) : incOf b f l sr = 0 := by
  have hproduct : isNaN b.prec (incProduct b f l sr) = true ∨ IsZero b.prec (incProduct b f l sr) :=
    fmul_of_nan_or_zero (fmul_of_nan_or_zero (.inr hf) _) _
  rcases unpack_kinds b.prec (incProduct b f l sr) with ⟨hu, -⟩ | ⟨-, hnum, -, hne⟩ | ⟨m, e, hu, hnum, -, hzero⟩
  · exact incOf_of_nan hu
  · simp [hnum, hne] at hproduct
  · obtain rfl : m = 0 := hzero.mp (hproduct.resolve_left (by simp [hnum]))
    cases hs : fsign b.prec (incProduct b f l sr) <;> rw [hs] at hu
    · rw [incOf_of_nonneg hu]
      simp [floorScaled]
    · exact incOf_of_neg hu

/-- Settles O44: the floor is that of the unpacked product, and the clamp is made last. -/
theorem incrementIsTheClampedFloor : Obligations.IncrementIsTheClampedFloor := fun b f sr l =>
  ⟨incOf_eq_floor, fun hf _ _ => incOf_of_zero b hf l sr, incOf_le b f l sr⟩

end Sys2Proof.Machine

/-! ## Advances in a row (R174) -/

namespace Sys2Proof.Machine

/-- One `OSC.ADV` from acceptance to completion: the position moves by the increment, modulo the length, and the registers
the next advance looks at are kept. -/
theorem advanceOnce_completes {s : State} (h : s.StoredSound) {c : Chan} (hv : (s.chan c).valid = true) :
    ∃ t v, advanceOnce c s = .next t ∧ t.StoredSound ∧ t.build = s.build ∧
      t.chan c = { s.chan c with pos := posWord s.build (advPos s.build (s.chan c)), cur := v } := by
  let u : State := { s with inflight := some (encode (.oscAdv c)) }
  have hu : u.StoredSound := { h with }
  have hchan : u.chan c = s.chan c := by cases c <;> rfl
  have hc : operandFault (.oscAdv c) u = none := checkTable_eq_none.mpr (hchan ▸ hv)
  refine ⟨_, u.sampleAt c (advPos s.build (s.chan c)), exec_completes rfl hc, { hu.effectOf hc with }, ?_, ?_⟩
  · simp [effectOf]
  · cases c <;> rfl

/-- `K` advances from a state with a table (R174). -/
theorem advanceTimes_completes (c : Chan) (k : Nat) {s : State} (h : s.StoredSound) (hv : (s.chan c).valid = true) :
    ∃ t, advanceTimes c k s = .next t ∧ (t.chan c).inc = (s.chan c).inc ∧
      (t.chan c).pos.toNat = ((s.chan c).pos.toNat + k * (s.chan c).inc.toNat) % lengthFx s.build (s.chan c) := by
  induction k generalizing s with
  | zero =>
    obtain ⟨-, -, -, hpos⟩ := (h.chan c).selected hv
    refine ⟨s, rfl, rfl, ?_⟩
    rw [Nat.zero_mul, Nat.add_zero, Nat.mod_eq_of_lt hpos]
  | succ k ih =>
    obtain ⟨t, v, ht, hstored, hbuild, hchan⟩ := advanceOnce_completes h hv
    obtain ⟨u, hu, hinc, hpos⟩ := ih hstored (by rw [hchan]; exact hv)
    have hsound := h.chan c
    obtain ⟨-, -, -, hlt⟩ := hsound.selected hv
    refine ⟨u, by rw [advanceTimes, ht]; exact hu, by rw [hinc, hchan], ?_⟩
    rw [hpos, hbuild, hchan]
    show ((posWord s.build (advPos s.build (s.chan c))).toNat + k * (s.chan c).inc.toNat) % lengthFx s.build (s.chan c) = _
    rw [hsound.posWord_advPos h.legal hv, advPos_eq_mod hlt hsound.inc_le, Nat.mod_add_mod, Nat.add_assoc, Nat.succ_mul,
      Nat.add_comm (k * _)]

/-- A step from below the modulus comes back exactly when it is a multiple of the modulus. -/
theorem add_mod_eq_self_iff {a d n : Nat} (ha : a < n) : (a + d) % n = a ↔ n ∣ d := by
  have hcancel : a + d ≡ a + 0 [MOD n] ↔ d ≡ 0 [MOD n] := ⟨Nat.ModEq.add_left_cancel' a, Nat.ModEq.add_left a⟩
  rw [← Nat.modEq_zero_iff_dvd, ← hcancel, Nat.ModEq, Nat.add_zero, Nat.mod_eq_of_lt ha]

/-- Settles O46, by induction on the number of advances. -/
theorem positionAfterKAdvances : Obligations.PositionAfterKAdvances := by
  intro s c k hs hv
  obtain ⟨t, ht, hinc, hpos⟩ := advanceTimes_completes c k hs.stored hv
  obtain ⟨-, -, -, hlt⟩ := (hs.stored.chan c).selected hv
  refine ⟨t, ht, hpos, hinc, ?_⟩
  rw [← BitVec.toNat_inj, hpos]
  exact add_mod_eq_self_iff hlt

end Sys2Proof.Machine

/-! ## Interpolation (R180 to R185) -/

namespace Sys2Proof.Machine

/-! ### The fraction is exact (R181) -/

section Exact
variable {p : Prec} {m : Nat} {e : Int}

theorem quantum_le (hm : m ≠ 0) (hdigits : m < 2 ^ p.digits) (he : fmtExpMin p ≤ e) : quantum p m e ≤ e := by
  have hlog := (Nat.log2_lt hm).mpr hdigits
  refine max_le ?_ he
  omega

/-- A significand that fits the format is not shifted down, so no digit is lost. -/
theorem roundSig_mul_ulp (h : quantum p m e ≤ e) :
    (roundSig p m e false : ℝ) * ulp p (roundBinade p m e) = m * 2 ^ e := by
  rw [roundSig, if_pos h, ulp, ← quantum_eq]
  push_cast
  rw [mul_assoc, ← zpow_natCast, ← zpow_add₀ two_ne_zero]
  congr 2
  omega

/-- A number that the format has a place for is rounded to itself. -/
theorem roundF_exact (hdigits : m < 2 ^ p.digits) (he : fmtExpMin p ≤ e) (hlt : (m : ℚ) * 2 ^ e < overflowBound p) :
    isFinite p (roundF p false m e false) = true ∧ realOf p (roundF p false m e false) = m * 2 ^ e := by
  rcases eq_or_ne m 0 with rfl | hm
  · have hmag : fmag p (zeroF p false) = 0 := fmag_packBits (by cases p <;> decide)
    have hfin := isFinite_of_zero hmag
    simpa [roundF, hfin] using (realOf_eq_zero_iff hfin).mpr hmag
  · have hstands := stands_exact_rat m e
    have hmag := (uncutMag_lt_iff (p := p) hm hstands nofun).mpr (Rat.cast_lt.mpr hlt)
    obtain ⟨hfin, -, hval⟩ := roundF_of_uncutMag_lt hm hstands nofun hmag
    rw [roundSig_mul_ulp (quantum_le hm hdigits he)] at hval
    exact ⟨hfin, Rat.cast_injective (α := ℝ) (by push_cast; exact hval)⟩

end Exact

theorem one_lt_overflowBound (p : Prec) : 1 < overflowBound p := by
  obtain ⟨hone, hreal, -⟩ := blend_constants p
  simpa [hreal] using abs_realOf_lt_overflowBound hone

theorem fixedFrac_exact {b : Build} (h : b.Legal) (pos : Nat) : isFinite b.prec (fixedFrac b pos) = true ∧
    realOf b.prec (fixedFrac b pos) = ((pos % 2 ^ b.fb : ℕ) : ℚ) / 2 ^ b.fb := by
  obtain ⟨hfb, hdigits⟩ := le_min_iff.mp h.fb_le
  have hfrac : pos % 2 ^ b.fb < 2 ^ b.fb := Nat.mod_lt _ (Nat.two_pow_pos _)
  have hexp : fmtExpMin b.prec ≤ -(b.fb : Int) := by
    cases b.prec <;> simp only [fmtExpMin] <;> omega
  have hquot : ((pos % 2 ^ b.fb : ℕ) : ℚ) * 2 ^ (-(b.fb : Int)) = ((pos % 2 ^ b.fb : ℕ) : ℚ) / 2 ^ b.fb := by
    rw [zpow_neg, zpow_natCast, div_eq_mul_inv]
  have hone : ((pos % 2 ^ b.fb : ℕ) : ℚ) / 2 ^ b.fb < 1 := (div_lt_one (by positivity)).mpr (mod_cast hfrac)
  rw [fixedFrac, ← hquot]
  exact roundF_exact (hfrac.trans_le (Nat.pow_le_pow_right two_pos hdigits)) hexp
    (hquot ▸ hone.trans (one_lt_overflowBound _))

/-! ### The four samples (R180) -/

/-- The sample `d` places after the position's, around the period. -/
def State.neighbour (s : State) (slot l pos : Nat) (d : Int) : F :=
  s.tabRead slot (((pos / 2 ^ s.build.fb : Nat) + d) % (l : Int)).toNat

theorem wrap_natCast (i l d : Nat) : (((i : Int) + (d : Int)) % (l : Int)).toNat = (i + d) % l := by
  rw [← Nat.cast_add, ← Int.natCast_mod, Int.toNat_natCast]

theorem wrap_neg_one (i : Nat) {l : Nat} (hl : 1 ≤ l) : (((i : Int) + (-1)) % (l : Int)).toNat = (i + l - 1) % l := by
  have hshift : (i : Int) + (-1) = ((i + l - 1 : ℕ) : Int) - l := by omega
  rw [hshift, Int.sub_emod_right, ← Int.natCast_mod, Int.toNat_natCast]

theorem State.neighbour_natCast (s : State) (slot l pos d : Nat) :
    s.neighbour slot l pos d = s.tabRead slot ((pos / 2 ^ s.build.fb + d) % l) := by
  rw [State.neighbour, wrap_natCast]

theorem State.neighbour_neg_one (s : State) (slot : Nat) {l : Nat} (pos : Nat) (hl : 1 ≤ l) :
    s.neighbour slot l pos (-1) = s.tabRead slot ((pos / 2 ^ s.build.fb + l - 1) % l) := by
  rw [State.neighbour, wrap_neg_one _ hl]

theorem State.interp_eq (s : State) (k : Kernel) (slot : Nat) {l : Nat} (pos : Nat) (hl : 1 ≤ l) :
    s.interp k slot l pos = kernelOn s.build.prec k (s.neighbour slot l pos (-1)) (s.neighbour slot l pos (0 : ℕ))
      (s.neighbour slot l pos (1 : ℕ)) (s.neighbour slot l pos (2 : ℕ)) (fixedFrac s.build pos) := by
  simp only [State.neighbour_natCast, s.neighbour_neg_one slot pos hl]
  rfl

theorem State.neighbour_congr {s t : State} {slot l : Nat} (pos : Nat) (hl : 1 ≤ l) (hbuild : t.build = s.build)
    (h : ∀ j, j < l → t.tabRead slot j = s.tabRead slot j) (d : Int) :
    t.neighbour slot l pos d = s.neighbour slot l pos d := by
  unfold State.neighbour
  rw [hbuild]
  refine h _ ?_
  have hpos : (0 : Int) < l := by omega
  have := Int.emod_lt_of_pos ((pos / 2 ^ s.build.fb : Nat) + d) hpos
  omega

/-! ### The kernels (R182 to R185) -/

/-- Interpolation reads the samples of the table and the build, and nothing else of the state. -/
theorem State.interp_congr {s t : State} (k : Kernel) {slot l : Nat} (pos : Nat) (hl : 1 ≤ l) (hbuild : t.build = s.build)
    (h : ∀ j, j < l → t.tabRead slot j = s.tabRead slot j) : t.interp k slot l pos = s.interp k slot l pos := by
  simp only [State.interp_eq _ _ _ _ hl, State.neighbour_congr pos hl hbuild h, hbuild]

theorem Kernel.code_cases (k : Kernel) : k.code = 0#2 ∨ k.code = 1#2 ∨ k.code = 2#2 := by cases k <;> decide

theorem kernelOf_code_kernel (k : Kernel) : kernelOf k.code = k := by cases k <;> rfl

theorem Kernel.eq_of_code {k j : Kernel} (h : k.code = j.code) : k = j := by
  rw [← kernelOf_code_kernel k, h, kernelOf_code_kernel]

/-- The constants of R184 as patterns. -/
theorem hermite_constants (p : Prec) :
    fHalf p = (match p with | .binary32 => 0x3F000000#64 | .binary64 => 0x3FE0000000000000#64) ∧
    fThreeHalves p = (match p with | .binary32 => 0x3FC00000#64 | .binary64 => 0x3FF8000000000000#64) ∧
    toF p 2 = (match p with | .binary32 => 0x40000000#64 | .binary64 => 0x4000000000000000#64) ∧
    fFiveHalves p = (match p with | .binary32 => 0x40200000#64 | .binary64 => 0x4004000000000000#64) := by
  cases p <;> decide +kernel

/-- Settles O48, kernel by kernel on the four samples and the exact fraction. -/
theorem interpolationReadsOnlyTheTable : Obligations.InterpolationReadsOnlyTheTable := by
  refine ⟨fun s k slot l pos hl => ?_, Kernel.code_cases, fun _ pos h => fixedFrac_exact h pos,
    fun _ _ k _ _ pos => State.interp_congr k pos⟩
  obtain ⟨hhalf, hthree, htwo, hfive⟩ := hermite_constants s.build.prec
  rw [State.interp_eq s k slot pos hl]
  refine ⟨fun hk => ?_, fun hk => ?_, fun hk => ?_⟩
  · obtain rfl : k = .linear := Kernel.eq_of_code hk
    rfl
  · obtain rfl : k = .hermite := Kernel.eq_of_code hk
    dsimp only [kernelOn, kernelHermite]
    rw [hhalf, hthree, htwo, hfive]
    rfl
  · obtain rfl : k = .cubic := Kernel.eq_of_code hk
    rfl

end Sys2Proof.Machine
